-- ==== Sys2Proof/Word.lean ====
section
/-! DEFINITION. The word types of the block's data formats (spec 30, R96 to R101), the element of an
internal channel as it stands on the wire (R90 to R95), and the reasons a decoder rejects one. -/

namespace Sys2Proof

/-- A byte of an output record (R66). -/
abbrev Byte := BitVec 8

/-- The 32-bit payload of a row (R96). -/
abbrev Payload := BitVec 32

/-- A completed row, bit 36 received first (R96). -/
abbrev RowWord := BitVec 37

/-- A 15-bit codeword: five syndrome bits above ten data bits (R99). -/
abbrev Codeword := BitVec 15

/-- A ten-bit data word, a "decle" (R100). -/
abbrev DataWord := BitVec 10

/-- The five check bits of a codeword (R99). -/
abbrev Syndrome := BitVec 5

/-- The 16-bit output word, upper six bits zero (R100). -/
abbrev OutWord := BitVec 16

/-- The 128 preamble bits, the first received the most significant (R101). -/
abbrev PreambleWord := BitVec 128

/-- The fifteen payloads of a chunk in order of reception (R98). -/
abbrev Chunk := Vector Payload 15

/-- The 32 data words of a decoded chunk in column order (R94, R222). -/
abbrev Words := Vector DataWord 32

/-- The 32 correction marks of a decoded chunk in column order (R94, R222). -/
abbrev Marks := Vector Bool 32

/-- A syndrome table: 32 entries of five bits (R9). -/
abbrev SynTable := Vector Syndrome 32

/-- The operands of an `FE` token, which are abstract records (R94). Each kind of token reads the
fields its own rule lists; the others stand at these zeros. -/
structure FeOperands where
  a : Nat := 0
  b : Nat := 0
  c : Nat := 0
  words : Words := Vector.replicate 32 0
  marks : Marks := Vector.replicate 32 false
  metric : Int := 0
  z : Option Int := none
deriving DecidableEq, Repr

/-- One element as a channel carries it: the code bits of its format beside the operands whose
representation the spec leaves abstract (R91 to R94). The constructor is the channel: each channel
has a code space of its own and no bit of a token names its channel. -/
inductive Packet where
  /-- the `IN` port: `SAMPLE_WIDTH + 1` bits, read as a number (R90) -/
  | inPort (w : Nat)
  /-- channel `TR`: the kind bit and two rationals (R91) -/
  | tr (kind : BitVec 1) (ifrac energy : Rat)
  /-- channel `CL`: two kind bits above three class bits, and the start time (R92) -/
  | cl (w : BitVec 5) (time : Rat)
  /-- channel `SY`: the side-band `eos` bit above three code bits, and the start time (R93) -/
  | sy (w : BitVec 4) (time : Rat)
  /-- the function call to the decoder: fifteen payloads, row 0 in the highest bits (R98) -/
  | ecc (w : BitVec 480)
  /-- channel `FE`: three kind bits and abstract operands (R94) -/
  | fe (kind : BitVec 3) (ops : FeOperands)
  /-- the `OUT` port: four kind bits and three `COUNTER_WIDTH`-bit payloads, read as a number (R95) -/
  | outPort (w : Nat)
  /-- a 37-bit row (R96) -/
  | row (w : RowWord)
  /-- a 15-bit codeword (R99) -/
  | codeword (w : Codeword)
  /-- a 16-bit output word (R100) -/
  | outword (w : OutWord)
  /-- 128 preamble bits (R101) -/
  | preamble (w : PreambleWord)
  /-- bits whose number fits no format of R90 to R101 -/
  | stray (nbits w : Nat)
deriving DecidableEq, Repr

/-- Why a packet stands for no instruction. Each is safe: the decoder refuses rather than guesses. -/
inductive Reject where
  /-- more bits than the format has (R90, R95) -/
  | tooWide
  /-- `CL` interval classes 5 to 7 (R92, R103c) -/
  | reservedClass
  /-- `FE` kinds 5 to 7, which R94 does not list -/
  | reservedFeKind
  /-- `OUT` kinds 8 to 15 (R95, R103c) -/
  | reservedOutKind
  /-- an unused `OUT` payload that is not zero (R95) -/
  | payloadNotZero
  /-- an `OUT.BYTE` value above 255 (R95) -/
  | byteTooLarge
  /-- a column number above 31 (R94, R95) -/
  | columnTooLarge
  /-- an output word with one of its upper six bits set (R100) -/
  | highBitsNotZero
  /-- bits of no format of R90 to R101 -/
  | noSuchFormat
deriving DecidableEq, Repr

end Sys2Proof
end

