-- ==== Sys2Proof/Config.lean ====
section
/-! DEFINITION. What is fixed for a run: the configuration inputs (R7, R13), the three constants the
spec requires and does not print (R9), and the opaque parameters that stand for those constants and for
the one value that no rule states. -/

namespace Sys2Proof

/-- The static configuration inputs of the block (R7) and the two open widths (R13). -/
structure Config where
  /-- `SAMPLE_RATE`, in Hz -/
  sampleRate : Nat
  /-- `BIT_RATE`, in bits a second -/
  bitRate : Nat
  /-- `ENERGY_THRESHOLD`, in units of sample amplitude -/
  energyThreshold : Rat
  /-- `TOLERANCE`, the `τ` of R151 -/
  tolerance : Rat
  /-- `DCWINDOW_BITS`, in bit periods; 0 or less disables the window -/
  dcWindowBits : Rat
  /-- `SAMPLE_WIDTH`, in bits -/
  sampleWidth : Nat
  /-- `COUNTER_WIDTH`, in bits -/
  counterWidth : Nat
deriving DecidableEq, Repr

/-- The constants of the block (R9, R36): never written by any rule (R78). -/
structure Rom where
  /-- `PREAMBLE` as R101 writes it: the bit received first is bit 127 -/
  preamble : PreambleWord
  /-- `HIGH_SYNDROME` -/
  highSyndrome : SynTable
  /-- `LOW_SYNDROME` -/
  lowSyndrome : SynTable
deriving DecidableEq, Repr

/-- The value of `PREAMBLE` in a machine after reset. The source does not print it and a model must
not invent one (R9, N1): a constant with no body, so no proof can see it (log entry 3). -/
opaque Param.preamble : PreambleWord

/-- The value of `HIGH_SYNDROME` in a machine after reset (R9, N2; log entry 3). -/
opaque Param.highSyndrome : SynTable

/-- The value of `LOW_SYNDROME` in a machine after reset (R9, N2; log entry 3). -/
opaque Param.lowSyndrome : SynTable

/-- How many elements of `RECORDS` lie between the last one and the element that an `OUT.REC_OPEN(k)`
creates when `k` is not the number `n` of its elements, applied to `k` and `n`. R248 names element `k`
and R60 lets the space only grow, and no rule says which element it then is: a constant with no body
(log entry 27). -/
opaque Param.recordGap : Nat → Nat → Nat

/-- The configuration inputs of a machine after reset: the defaults of R7 where it gives one.
DESIGN CHOICE (log entry 4): `SAMPLE_RATE` has none and stands at the 44100 of the spec's examples;
the two widths stand at the values R13 suggests. -/
def Config.atReset : Config where
  sampleRate := 44100
  bitRate := 3000
  energyThreshold := 500
  tolerance := mkRat 3 4
  dcWindowBits := mkRat 3 2
  sampleWidth := 16
  counterWidth := 32

/-- The constants of a machine after reset: the opaque parameters. -/
def Rom.atReset : Rom := ⟨Param.preamble, Param.highSyndrome, Param.lowSyndrome⟩

end Sys2Proof
end

