-- ==== Sys2Proof/Machine/State.lean ====
section
/-! DEFINITION. The state of the block as plain data, one structure for each sub-block that owns it
(R20), the reasons a step can be refused, and the state after reset (R290). -/

namespace Sys2Proof.Machine

/-- The framer's mode (R27). -/
inductive Mode where
  | idle
  | hunt
  | synced
  | abort
deriving DecidableEq, Repr

/-- The five interval classes (R92, R151). -/
inductive IntervalClass where
  | narrow
  | short
  | mid
  | long
  | wide
deriving DecidableEq, Repr

/-- The kind of an anomaly symbol: the interval class that caused it (R93). -/
inductive AnomalyKind where
  | narrow
  | mid
  | long
  | wide
deriving DecidableEq, Repr

/-- A token of the `SY` channel, as the tap shows it (R93). -/
inductive SySymbol where
  | zero
  | one
  | gap
  | segstart (time : Rat)
  | anomaly (kind : AnomalyKind)
  | eos
deriving DecidableEq, Repr

/-- A token of the `OUT` channel (R95). -/
inductive OutEvent where
  | recOpen (k : Nat)
  | zeroRun (n : Int)
  | corrected (chunk : Nat) (col : Fin 32)
  | byte (b : Byte)
  | recClose
  | errFraming (seg row off : Nat)
  | errEcc (seg chunk : Nat) (col : Fin 32)
  | endRun
deriving DecidableEq, Repr

/-- A line of the manifest (R105, R248). -/
inductive ManifestLine where
  | file (k : Nat)
  | zero (n : Int)
deriving DecidableEq, Repr

/-- A record of the space `RECORDS`: its bytes by address, and whether `OUT.REC_CLOSE` has frozen
it (R66). -/
structure Record where
  bytes : List Byte := []
  frozen : Bool := false
deriving DecidableEq, Repr

/-- An entry of `ECCTAB` (R65). -/
inductive EccEntry where
  | valid
  | corrected (c : Codeword)
  | unrecoverable
deriving DecidableEq, Repr

/-- The result of `ECC.DECODE` (R219). -/
inductive EccResult where
  | ok (words : Words) (corr : Marks)
  | fail (col : Fin 32)
deriving DecidableEq, Repr

/-- What a call on the `ECC` channel returns: the result of `ECC.DECODE` (R219), or, for a lone
codeword, its entry (R220). -/
inductive EccReply where
  | result (r : EccResult)
  | entry (e : EccEntry)
deriving DecidableEq, Repr

/-- A fault of the block with the position it records (R261, R262). -/
inductive FaultInfo where
  /-- `Framing(seg, row, off)`, cause code 1 -/
  | framing (seg row off : Nat)
  /-- `Ecc(seg, chunk, col)`, cause code 2 -/
  | ecc (seg chunk : Nat) (col : Fin 32)
deriving DecidableEq, Repr

/-- What the host presents: a token, or a pulse of the reset line (R290). -/
inductive HostInput where
  | token (p : Packet)
  | reset
deriving DecidableEq, Repr

/-- State of the interpolating_zero_crossing_detector (R21 to R24). -/
structure Detector where
  n : Nat := 0
  dcbuf : List Int := []
  ebuf : List Rat := []
  prev : Option Rat := none
deriving DecidableEq, Repr

/-- State of the adaptive_pulse_classifier (R25). -/
structure Classifier where
  last : Option Rat := none
deriving DecidableEq, Repr

/-- State of the nrzi_bit_recoverer (R26). -/
structure Recoverer where
  expecting : Bool := false
deriving DecidableEq, Repr

/-- State of the synchronization_framer (R27 to R35). -/
structure Framer where
  mode : Mode := .idle
  window : List Bool := []
  zeroCount : Nat := 0
  leading : Bool := true
  zeroMetric : Option Int := none
  rowbits : List Bool := []
  rows : List Payload := []
  chunkIndex : Nat := 0
  symPos : Nat := 0
  rowStart : Nat := 0
  segNo : Nat := 0
deriving DecidableEq, Repr

/-- State of the record_byte_emitter (R37, R38). -/
structure Emitter where
  recOpen : Bool := false
  recNo : Nat := 0
deriving DecidableEq, Repr

/-- The status outputs that are state of their own (R39, R40). -/
structure Status where
  errFraming : Bool := false
  errEcc : Bool := false
  correctedCount : Nat := 0
  done : Bool := false
deriving DecidableEq, Repr

/-- The two observable streams of a run (R75) and the two output spaces the host reads (R60, R66). -/
structure Streams where
  syTap : List SySymbol := []
  outs : List OutEvent := []
  records : List Record := []
  manifest : List ManifestLine := []
deriving DecidableEq, Repr

/-- The whole state of the block (R20), its static inputs (R42), its constants (R36), what it has put
out since the last reset (`io`) and before it (`past`, one element for each earlier run, the oldest
first; R296, log entry 6), and two fields of the model's own: the inputs presented and not yet taken (log entry 1) and the last result returned
on the `ECC` channel (log entry 7). -/
structure State where
  cfg : Config
  rom : Rom
  pending : List HostInput := []
  det : Detector := {}
  cls : Classifier := {}
  rcv : Recoverer := {}
  frm : Framer := {}
  emt : Emitter := {}
  sts : Status := {}
  io : Streams := {}
  past : List Streams := []
  eccReply : Option EccReply := none
deriving DecidableEq, Repr

/-- Why the machine stops with a fault. It has no constructor: the block's two faults are state
changes that end a segment and never the run (R260, R266, R267), and "There is no other fault".
Safe: nothing is left out by it (log entry 21). -/
inductive Fault where
deriving DecidableEq, Repr

/-- Why a step is refused. Each is safe: the model stops and claims nothing of what follows. -/
inductive Refusal where
  /-- Raised by an arm of `exec` for an instruction with no meaning yet. Safe. -/
  | notModelled (mnemonic : String)
  /-- Raised by `step` for a packet that stands for no instruction (R103c, U10). Safe. -/
  | undecodable (r : Reject)
  /-- Raised by every instruction once `IN.EOS` or `OUT.END` has been processed and until reset
  (R40, R247, R296, U5). Safe. -/
  | tokenAfterEos
  /-- Raised by every instruction under a configuration outside R12 (U7). Safe. -/
  | invalidConfig
  /-- Raised by a `SY` symbol other than `SEGSTART` and `EOS` in mode `IDLE` (R202, U6). Safe. -/
  | symbolOutsideSegment
  /-- Raised by `SY.SEGSTART` in a mode other than `IDLE` (R202, U6). Safe. -/
  | segstartInsideSegment
  /-- Raised by a completed chunk in a `SYNCED` state with no metric, which no run reaches (R45, R191). Safe. -/
  | metricMissing
  /-- Raised by `OUT.BYTE`, `OUT.REC_CLOSE` and `OUTWORD` presented while no record is open (R66, R75). Safe. -/
  | noOpenRecord
deriving DecidableEq, Repr

/-- The machine right after reset: the table of spec 10 section 12 (R290). The configuration, the
constants and the two fields of the model's own stand as log entries 1, 3, 4 and 7 say. -/
def State.reset : State where
  cfg := Config.atReset
  rom := Rom.atReset

end Sys2Proof.Machine
end

