-- ==== Sys2Proof/Machine/Operands.lean ====
section
/-! DEFINITION. The values the operations compute with: the constants derived from the configuration
(R10), the sliding buffer of spec 00 section 4, and the assembly of rows, codewords and bytes
(R97 to R101). -/

namespace Sys2Proof.Machine

/-! ## Derived constants (R10) -/

/-- `spb = SAMPLE_RATE / BIT_RATE` (R10). -/
def spb (c : Config) : Rat := mkRat c.sampleRate c.bitRate

/-- `W = ceil(spb × 10)`, the capacity of the energy buffer (R10, R61), `spb × 10` as one fraction. -/
def energyLen (c : Config) : Nat := (Rat.ceil (mkRat (c.sampleRate * 10) c.bitRate)).toNat

/-- `D = ceil(spb × DCWINDOW_BITS)`, the capacity of the DC buffer (R10, R62), the product as one
fraction. -/
def dcLen (c : Config) : Nat :=
  (Rat.ceil (mkRat (c.sampleRate * c.dcWindowBits.num) (c.bitRate * c.dcWindowBits.den))).toNat

/-- `MID = floor(D / 2)` (R10). -/
def dcMid (c : Config) : Nat := dcLen c / 2

/-- `SHIFT = D − MID − 1` (R10). -/
def dcShift (c : Config) : Nat := dcLen c - dcMid c - 1

/-- `q = spb / 4`, the quarter-bit period (R10). -/
def quarter (c : Config) : Rat := spb c / 4

/-- `E_NS`, the lower edge of `SHORT` (R10). -/
def edgeNarrowShort (c : Config) : Rat := (2 - c.tolerance) * quarter c

/-- `E_SM`, the upper edge of `SHORT` (R10). -/
def edgeShortMid (c : Config) : Rat := (2 + c.tolerance) * quarter c

/-- `E_ML`, the lower edge of `LONG` (R10). -/
def edgeMidLong (c : Config) : Rat := (4 - c.tolerance) * quarter c

/-- `E_LW`, the upper edge of `LONG` (R10). -/
def edgeLongWide (c : Config) : Rat := (4 + c.tolerance) * quarter c

/-! ## Buffers -/

/-- `push(s, L, e)` of spec 00 section 4: append, then drop the oldest when the buffer is over-full. -/
def push {α : Type} (s : List α) (cap : Nat) (e : α) : List α :=
  let t := s ++ [e]
  if cap < t.length then t.drop 1 else t

/-- The greatest element of a buffer that is not empty (R132). -/
def maxOf : List Rat → Rat
  | [] => 0
  | x :: xs => xs.foldl (fun m y => if m < y then y else m) x

/-- The least element of a buffer that is not empty (R132). -/
def minOf : List Rat → Rat
  | [] => 0
  | x :: xs => xs.foldl (fun m y => if y < m then y else m) x

/-- `energy = max(buffer) − min(buffer)` (R132). -/
def energyOf (buf : List Rat) : Rat := maxOf buf - minOf buf

/-- `dcbuf[MID] − mean(dcbuf)`, by exact division (R131). -/
def dcCorrected (c : Config) (buf : List Int) : Rat :=
  (buf.getD (dcMid c) 0 : Rat) - (buf.foldl (· + ·) 0 : Int) / (dcLen c : Rat)

/-- `ifrac = (i − 1) + |p| / |y − p|` (R134). -/
def interpolate (i : Int) (p y : Rat) : Rat := ((i - 1 : Int) : Rat) + absQ p / absQ (y - p)
where
  /-- `abs` of spec 00 section 4. -/
  absQ (r : Rat) : Rat := if r < 0 then -r else r

/-! ## Bits, rows, codewords, bytes -/

/-- The number whose bits are `bits`, the first the most significant (R97). -/
def bitsToNat (bits : List Bool) : Nat := bits.foldl (fun n b => 2 * n + b.toNat) 0

/-- The bits of a word in order of reception, the most significant first (R68, R101). -/
def bitsOf {w : Nat} (v : BitVec w) : List Bool := (List.range w).map v.getMsbD

/-- `row = Σ b[k] << (36 − k)` (R97). -/
def assembleRow (bits : List Bool) : RowWord := BitVec.ofNat 37 (bitsToNat bits)

/-- `prefix = row[36:32]` (R97). -/
def rowPrefix (r : RowWord) : BitVec 5 := r.extractLsb' 32 5

/-- `payload = row[31:0]` (R97). -/
def rowPayload (r : RowWord) : Payload := r.extractLsb' 0 32

/-- The framing constant `0b11101` (R8, R96). -/
def framingPrefix : BitVec 5 := 0b11101#5

/-- `cw[j] = Σ p[r][31 − j] << (14 − r)` (R98). -/
def codewordOf (p : Chunk) (j : Fin 32) : Codeword :=
  BitVec.ofNat 15 (bitsToNat (p.toList.map fun r => r.getLsbD (31 - j.val)))

/-- `DataWord = codeword & 0x3FF` (R100, R222). -/
def dataOf (c : Codeword) : DataWord := c.setWidth 10

/-- The output word of a data word: six zero bits above it (R100). -/
def outWordOf (d : DataWord) : OutWord := d.setWidth 16

/-- `value >> 8` of the output word (R67, R242). -/
def highByte (d : DataWord) : Byte := (outWordOf d >>> 8).setWidth 8

/-- `value & 0xff` of the output word (R67, R242). -/
def lowByte (d : DataWord) : Byte := (outWordOf d).setWidth 8

/-- The 32-element vector of a function of the column, in column order. -/
def byColumn {α : Type} (f : Fin 32 → α) : Vector α 32 := ⟨⟨(List.finRange 32).map f⟩, by simp⟩

end Sys2Proof.Machine
end

