-- ==== Sys2Proof/Machine/Flags.lean ====
section
/-! DEFINITION. The one-bit computations: the sign test (R133), the validity of a configuration
(R12), the gate of the emission (R135), the flag `leading` (R188), and whether the block takes a
token at all (R40, R247). -/

namespace Sys2Proof.Machine

/-- `Neg(v) = (v < 0)`, so that 0 counts with the positive values (R133). -/
def neg (v : Rat) : Bool := decide (v < 0)

/-- A transition between `p` and `y` (R133). -/
def signChange (p y : Rat) : Bool := neg p != neg y

/-- `DC_ON = (DCWINDOW_BITS > 0)` (R10). -/
def dcOn (c : Config) : Bool := decide (0 < c.dcWindowBits)

/-- The conditions under which the block's rules hold (R12). -/
def configValid (c : Config) : Bool :=
  decide (1 ≤ c.sampleRate) && decide (1 ≤ c.bitRate) && decide (0 ≤ c.energyThreshold) &&
    decide (0 ≤ c.tolerance) && decide (c.tolerance < 1)

/-- The energy buffer holds `W` samples (R135). -/
def energyFull (c : Config) (buf : List Rat) : Bool := buf.length == energyLen c

/-- `leading` after a bit hunted: the first `One` clears it (R29, R188). -/
def leadingAfter (leading b : Bool) : Bool := leading && !b

/-- `OUT.END` has been emitted in this run: "After `OUT.END` the block emits nothing until reset" (R247). -/
def ended (s : State) : Bool := s.io.outs.getLast? == some .endRun

/-- The block takes a token: the run has not ended (R40, R296) and the configuration is one under
which its rules hold (R12). -/
def accepting (s : State) : Bool := !s.sts.done && !ended s && configValid s.cfg

end Sys2Proof.Machine
end

