-- ==== Sys2Proof/Syntax.lean ====
section
/-! DEFINITION. The operations: one constructor for each row of spec/opcode_table.json, with the
operands its format rule gives it (R90 to R101). -/

namespace Sys2Proof

/-- The operations of the block. -/
inductive Instr where
  /-- `IN.SAMPLE(x)` (R130) -/
  | inSample (x : Int)
  /-- `IN.EOS` (R137) -/
  | inEos
  /-- `TR.TRANS(ifrac, energy)` (R150) -/
  | trTrans (ifrac energy : Rat)
  /-- `TR.EOS` (R154) -/
  | trEos
  /-- `CL.IVL_NARROW` (R170) -/
  | clIvlNarrow
  /-- `CL.IVL_SHORT` (R167) -/
  | clIvlShort
  /-- `CL.IVL_MID` (R169) -/
  | clIvlMid
  /-- `CL.IVL_LONG` (R166) -/
  | clIvlLong
  /-- `CL.IVL_WIDE` (R168) -/
  | clIvlWide
  /-- `CL.SEG_OPEN(time)` (R165) -/
  | clSegOpen (time : Rat)
  /-- `CL.DROPOUT` (R171) -/
  | clDropout
  /-- `CL.EOS` (R172) -/
  | clEos
  /-- `SY.ZERO` (R186) -/
  | syZero
  /-- `SY.ONE` (R187) -/
  | syOne
  /-- `SY.GAP` (R196) -/
  | syGap
  /-- `SY.SEGSTART(time)` (R185) -/
  | sySegstart (time : Rat)
  /-- `SY.ANOM_NARROW` (R192) -/
  | syAnomNarrow
  /-- `SY.ANOM_MID` (R193) -/
  | syAnomMid
  /-- `SY.ANOM_LONG` (R194) -/
  | syAnomLong
  /-- `SY.ANOM_WIDE` (R195) -/
  | syAnomWide
  /-- `SY.EOS` (R197) -/
  | syEos
  /-- `ECC.DECODE(p)` (R219) -/
  | eccDecode (p : Chunk)
  /-- `FE.CHUNK_OK(chunk, words, corr, metric)` (R240) -/
  | feChunkOk (chunk : Nat) (words : Words) (corr : Marks) (metric : Int)
  /-- `FE.SEG_END(z)` (R244) -/
  | feSegEnd (z : Option Int)
  /-- `FE.FAULT_FRAMING(seg, row, off, z)` (R245) -/
  | feFaultFraming (seg row off : Nat) (z : Option Int)
  /-- `FE.FAULT_ECC(seg, chunk, col, z)` (R246) -/
  | feFaultEcc (seg chunk : Nat) (col : Fin 32) (z : Option Int)
  /-- `FE.EOS` (R247) -/
  | feEos
  /-- `OUT.REC_OPEN(k)` (R95, R241) -/
  | outRecOpen (k : Nat)
  /-- `OUT.ZERO_RUN(N)` (R95, R241, R244) -/
  | outZeroRun (n : Int)
  /-- `OUT.CORRECTED(chunk, column)` (R95, R243) -/
  | outCorrected (chunk : Nat) (col : Fin 32)
  /-- `OUT.BYTE(b)` (R95, R242) -/
  | outByte (b : Byte)
  /-- `OUT.REC_CLOSE` (R95, R244) -/
  | outRecClose
  /-- `OUT.ERR_FRAMING(seg, row, off)` (R95, R245) -/
  | outErrFraming (seg row off : Nat)
  /-- `OUT.ERR_ECC(seg, chunk, col)` (R95, R246) -/
  | outErrEcc (seg chunk : Nat) (col : Fin 32)
  /-- `OUT.END` (R95, R247) -/
  | outEnd
  /-- the data format `ROW`, with whatever stands in its five prefix bits (R96) -/
  | row (pre : BitVec 5) (payload : Payload)
  /-- the data format `CODEWORD` (R99) -/
  | codeword (syn : Syndrome) (data : DataWord)
  /-- the data format `OUTWORD` (R100) -/
  | outword (data : DataWord)
  /-- the data format `PREAMBLE` (R101) -/
  | preamble (bits : PreambleWord)
deriving DecidableEq, Repr

end Sys2Proof
end

