-- ==== Sys2Proof/Machine/Ops.lean ====
section
/-! DEFINITION. The operations the meanings share: emission on `OUT` with its two spaces (R66, R248)
and on the `SY` tap (R75), the end of a segment (R198, R244), entry of a fault (R266) and the return
from one (R267, R185), reset (R290), and the taking of a token (R12, R296). -/

namespace Sys2Proof.Machine

/-- The three outcomes of a step of this machine. -/
abbrev Out := Host.Outcome State Fault Refusal

/-- What `f` makes of a next state, and a stop as it stands. -/
def onNext (o : Out) (f : State → State) : Out :=
  match o with
  | .next s => .next (f s)
  | .fault r => .fault r
  | .refused r => .refused r

/-! ## The output spaces and streams -/

/-- `f` applied to the last record, where there is one. -/
def onLast (f : Record → Record) : List Record → List Record
  | [] => []
  | [r] => [f r]
  | r :: r' :: rs => r :: onLast f (r' :: rs)

/-- How many elements lie between the last of the `n` records and the one that `OUT.REC_OPEN(k)`
creates: none when `k` is the next number (R248). DESIGN CHOICE (log entry 27): for another `k` the
number is free. -/
def recordGap (k n : Nat) : Nat := if k = n then 0 else Param.recordGap k n

/-- An element of `RECORDS` that no event has created: it holds no byte and takes none. -/
def absentRecord : Record := ⟨[], true⟩

/-- What one event does to the space `RECORDS` (R66, R248). -/
def recordsAfter (rs : List Record) : OutEvent → List Record
  | .recOpen k => rs ++ List.replicate (recordGap k rs.length) absentRecord ++ [{ }]
  | .byte b => onLast (fun r => { r with bytes := r.bytes ++ [b] }) rs
  | .recClose => onLast (fun r => { r with frozen := true }) rs
  | .zeroRun _ => rs
  | .corrected _ _ => rs
  | .errFraming _ _ _ => rs
  | .errEcc _ _ _ => rs
  | .endRun => rs

/-- The manifest lines of one event (R105, R248). -/
def linesOf : OutEvent → List ManifestLine
  | .recOpen k => [.file k]
  | .zeroRun n => [.zero n]
  | .corrected _ _ => []
  | .byte _ => []
  | .recClose => []
  | .errFraming _ _ _ => []
  | .errEcc _ _ _ => []
  | .endRun => []

/-- `Records(outs)`, the host's fold over the events of a run (R248), with the frozen marks of R66. -/
def recordsOf (outs : List OutEvent) : List Record := outs.foldl recordsAfter []

/-- `Manifest(outs)`, the host's list of lines (R248). -/
def manifestOf (outs : List OutEvent) : List ManifestLine := outs.flatMap linesOf

/-- `emit OUT.e`: the event joins the stream, and the spaces `RECORDS` and `MANIFEST` take what it
writes (R60, R75). -/
def emit (e : OutEvent) (s : State) : State :=
  { s with io := { s.io with
      outs := s.io.outs ++ [e]
      records := recordsAfter s.io.records e
      manifest := s.io.manifest ++ linesOf e } }

/-- Events emitted one after another (R75). -/
def emitAll (es : List OutEvent) (s : State) : State := es.foldl (fun t e => emit e t) s

/-- A symbol appears on the `SY` tap (R75, R93). -/
def tap (y : SySymbol) (s : State) : State :=
  { s with io := { s.io with syTap := s.io.syTap ++ [y] } }

/-- The byte at byte address `a` of record `k`, if it has been written (R66). -/
def readByte (s : State) (k a : Nat) : Option Byte := (s.io.records[k]?).bind fun r => r.bytes[a]?

/-- The streams and spaces of every run, the oldest first and the present one last (R296). -/
def runsOf (s : State) : List Streams := s.past ++ [s.io]

/-- The byte at byte address `a` of record `k` of run `r`, if it has been written (R66, R296). -/
def readByteOfRun (s : State) (r k a : Nat) : Option Byte :=
  (runsOf s)[r]?.bind fun io => io.records[k]?.bind fun rec => rec.bytes[a]?

/-- The last record exists and is not frozen (R66). -/
def recordOpen (rs : List Record) : Bool :=
  match rs.getLast? with
  | some r => !r.frozen
  | none => false

/-! ## The end of a segment -/

/-- `ZeroReport` (R198): the metric, else the zero count when it is not 0, else nothing. -/
def zeroReport (f : Framer) : Option Int :=
  match f.zeroMetric with
  | some m => some m
  | none => if 0 < f.zeroCount then some (f.zeroCount : Int) else none

/-- The partial chunk and the window are discarded (R198, R266). -/
def dropAssembly (f : Framer) : Framer := { f with rowbits := [], rows := [], window := [] }

/-- What `FE.SEG_END(z)` does (R244): close the open record, or else report `z`. -/
def segmentEnd (z : Option Int) (s : State) : State :=
  if s.emt.recOpen then
    let t := emit .recClose s
    { t with emt := { t.emt with recOpen := false } }
  else
    match z with
    | some m => emit (.zeroRun m) s
    | none => s

/-! ## Faults -/

/-- The event that reports a fault (R95, R260). -/
def faultEvent : FaultInfo → OutEvent
  | .framing seg row off => .errFraming seg row off
  | .ecc seg chunk col => .errEcc seg chunk col

/-- The sticky flag of a fault is set (R39, R266 step 1). -/
def setSticky (i : FaultInfo) (st : Status) : Status :=
  match i with
  | .framing _ _ _ => { st with errFraming := true }
  | .ecc _ _ _ => { st with errEcc := true }

/-- What `FE.FAULT_FRAMING` and `FE.FAULT_ECC` do: the report, then as `FE.SEG_END(z)` (R245, R246). -/
def reportFault (i : FaultInfo) (z : Option Int) (s : State) : State :=
  segmentEnd z (emit (faultEvent i) s)

/-- Entry of a fault, `raise Framing(…)` and `raise Ecc(…)` (R266): the sticky flag, `ZeroReport`, the
assembly discarded, mode `ABORT`, then the report. -/
def raiseFault (i : FaultInfo) (s : State) : State :=
  let z := zeroReport s.frm
  reportFault i z
    { s with
      sts := setSticky i s.sts
      frm := { dropAssembly s.frm with mode := .abort } }

/-- The start of a segment (R185), which is also how processing resumes after a fault (R267). -/
def segmentStart (f : Framer) : Framer := { mode := .hunt, segNo := f.segNo + 1 }

/-! ## Reset and the taking of a token -/

/-- A pulse of the reset line (R290): every element of the block's state takes its reset value; the
host still drives its inputs and constants, its queue stands, and what has been put out stands as an earlier
run: "the bytes already emitted stand" (R296). -/
def applyReset (s : State) : State :=
  { State.reset with cfg := s.cfg, rom := s.rom, pending := s.pending, past := runsOf s }

/-- The block takes a token and runs its rule `k`, unless the run has ended (R40, R296) or the
configuration is invalid (R12). -/
def present (s : State) (k : State → Out) : Out :=
  if s.sts.done || ended s then .refused .tokenAfterEos
  else if configValid s.cfg then k s
  else .refused .invalidConfig

end Sys2Proof.Machine
end

