-- ==== Sys2Proof/Machine/EccDecoder.lean ====
section
/-! DEFINITION. The ecc_block_decoder_15x32 (spec 44): the code, the table `ECCTAB` as R217 builds it
and in the closed form of R218, and the operation `ECC.DECODE`. -/

namespace Sys2Proof.Machine

/-- `Syn(d)`: the high table at bits 9..5 of `d`, XOR the low table at bits 4..0 (R215). -/
def syndrome (rom : Rom) (d : DataWord) : Syndrome :=
  rom.highSyndrome[d.toNat / 32 % 32] ^^^ rom.lowSyndrome[d.toNat % 32]

/-- `Enc(d) = d | (Syn(d) << 10)` (R216). -/
def encodeData (rom : Rom) (d : DataWord) : Codeword :=
  d.setWidth 15 ||| ((syndrome rom d).setWidth 15 <<< 10)

/-- `1 << bit`, a single bit of a codeword (R217). -/
def oneBit (b : Nat) : Codeword := 1#15 <<< b

/-! ## The table as it is built (R217) -/

/-- `T[x] := e`. -/
def setEntry (t : Codeword → EccEntry) (x : Codeword) (e : EccEntry) : Codeword → EccEntry :=
  fun y => if y = x then e else t y

/-- The 1024 data values in increasing order. -/
def allData : List DataWord := (List.range 1024).map (BitVec.ofNat 10)

/-- Pass 1 for one data value: its codeword is `Valid`. -/
def markValid (rom : Rom) (t : Codeword → EccEntry) (d : DataWord) : Codeword → EccEntry :=
  setEntry t (encodeData rom d) .valid

/-- Pass 2 for one data value: the fifteen neighbours of its codeword are corrected to it. -/
def markNeighbours (rom : Rom) (t : Codeword → EccEntry) (d : DataWord) : Codeword → EccEntry :=
  (List.range 15).foldl
    (fun t b => setEntry t (encodeData rom d ^^^ oneBit b) (.corrected (encodeData rom d))) t

/-- `BuildTable(HIGH_SYNDROME, LOW_SYNDROME)`: the three passes in their order (R217). -/
def buildTable (rom : Rom) : Codeword → EccEntry :=
  allData.foldl (markNeighbours rom) (allData.foldl (markValid rom) fun _ => .unrecoverable)

/-! ## The table entry by entry (R218) -/

/-- `x` is a valid codeword (R216). -/
def isCodeword (rom : Rom) (x : Codeword) : Bool := encodeData rom (dataOf x) == x

/-- `N(x)`: the data values whose codeword is at distance exactly 1 from `x` (R218). -/
def neighbours (rom : Rom) (x : Codeword) : List DataWord :=
  ((List.range 15).filter fun b => isCodeword rom (x ^^^ oneBit b)).map fun b => dataOf (x ^^^ oneBit b)

/-- The greatest of a list of data values, if there is one. -/
def greatest : List DataWord → Option DataWord
  | [] => none
  | d :: ds => some (ds.foldl (fun m e => if m < e then e else m) d)

/-- `ECCTAB[x]` in the closed form of R218, which R218 derives from `buildTable`. The block reads its
table here: the two agree for every pair of syndrome tables (obligation EccTableIsAsBuilt). -/
def eccEntry (rom : Rom) (x : Codeword) : EccEntry :=
  match greatest (neighbours rom x) with
  | some d => .corrected (encodeData rom d)
  | none => if isCodeword rom x then .valid else .unrecoverable

/-! ## ECC.DECODE -/

/-- The entry of column `j` of a chunk (R219 steps 1 and 2, R220). -/
def columnEntry (rom : Rom) (p : Chunk) (j : Fin 32) : EccEntry := eccEntry rom (codewordOf p j)

/-- The codeword a column delivers: its own, or the one it is corrected to (R220, R222). -/
def deliveredCodeword (cw : Codeword) : EccEntry → Codeword
  | .valid => cw
  | .corrected c => c
  | .unrecoverable => cw

/-- `corr[j]` (R222). -/
def isCorrected : EccEntry → Bool
  | .valid => false
  | .corrected _ => true
  | .unrecoverable => false

/-- The least column whose entry is `Unrecoverable` (R221). -/
def badColumn (rom : Rom) (p : Chunk) : Option (Fin 32) :=
  (List.finRange 32).find? fun j => columnEntry rom p j == .unrecoverable

/-- The 32 data words of a chunk with no bad column (R222). -/
def decodedWords (rom : Rom) (p : Chunk) : Words :=
  byColumn fun j => dataOf (deliveredCodeword (codewordOf p j) (columnEntry rom p j))

/-- The 32 correction marks of a chunk with no bad column (R222). -/
def decodedMarks (rom : Rom) (p : Chunk) : Marks := byColumn fun j => isCorrected (columnEntry rom p j)

/-- The result of `ECC.DECODE(p)` (R219). -/
def eccResult (rom : Rom) (p : Chunk) : EccResult :=
  match badColumn rom p with
  | some j => .fail j
  | none => .ok (decodedWords rom p) (decodedMarks rom p)

/-- A call on the `ECC` channel returns `r`; only the model's own reply field shows it (R36, log entry 7). -/
def reply (r : EccReply) (s : State) : State := { s with eccReply := some r }

/-- `ECC.DECODE(p)` (R219). -/
def execEccDecode (p : Chunk) (s : State) : Out :=
  present s fun s => .next (reply (.result (eccResult s.rom p)) s)

end Sys2Proof.Machine
end

