-- ==== Sys2Proof/Machine/Emitter.lean ====
section
/-! DEFINITION. The record_byte_emitter (spec 45): the operations `FE.CHUNK_OK`, `FE.SEG_END`,
`FE.FAULT_FRAMING`, `FE.FAULT_ECC` and `FE.EOS`. -/

namespace Sys2Proof.Machine

/-- The events that open a record: the `file` line precedes the `zero` line (R241). -/
def openingEvents (recNo : Nat) (metric : Int) : List OutEvent := [.recOpen recNo, .zeroRun metric]

/-- A record is opened, when none is open, with the segment's metric (R241). -/
def openRecord (metric : Int) (s : State) : State :=
  if s.emt.recOpen then s
  else
    let t := emitAll (openingEvents s.emt.recNo metric) s
    { t with emt := { recOpen := true, recNo := s.emt.recNo + 1 } }

/-- The correction reports of a chunk, in column order (R243). -/
def correctionEvents (chunk : Nat) (corr : Marks) : List OutEvent :=
  ((List.finRange 32).filter fun j => corr[j]).map fun j => .corrected chunk j

/-- The corrections of a chunk are reported and counted (R243). -/
def reportCorrections (chunk : Nat) (corr : Marks) (s : State) : State :=
  let es := correctionEvents chunk corr
  let t := emitAll es s
  { t with sts := { t.sts with correctedCount := t.sts.correctedCount + es.length } }

/-- The two byte events of a data word, high byte first (R242). -/
def wordEvents (d : DataWord) : List OutEvent := [.byte (highByte d), .byte (lowByte d)]

/-- The 64 byte events of a chunk, in column order (R242). -/
def byteEvents (words : Words) : List OutEvent := words.toList.flatMap wordEvents

/-- What `FE.CHUNK_OK(chunk, words, corr, metric)` does, in the order of R240. -/
def chunkOk (chunk : Nat) (words : Words) (corr : Marks) (metric : Int) (s : State) : State :=
  emitAll (byteEvents words) (reportCorrections chunk corr (openRecord metric s))

/-- What `FE.EOS` does (R247). -/
def endOfRun (s : State) : State := emit .endRun s

/-- `FE.CHUNK_OK` (R240). -/
def execFeChunkOk (chunk : Nat) (words : Words) (corr : Marks) (metric : Int) (s : State) : Out :=
  present s fun s => .next (chunkOk chunk words corr metric s)

/-- `FE.SEG_END` (R244). -/
def execFeSegEnd (z : Option Int) (s : State) : Out :=
  present s fun s => .next (segmentEnd z s)

/-- `FE.FAULT_FRAMING` (R245). The sticky flag is the raiser's to set (R266), not this operation's. -/
def execFeFaultFraming (seg row off : Nat) (z : Option Int) (s : State) : Out :=
  present s fun s => .next (reportFault (.framing seg row off) z s)

/-- `FE.FAULT_ECC` (R246). The sticky flag is the raiser's to set (R266), not this operation's. -/
def execFeFaultEcc (seg chunk : Nat) (col : Fin 32) (z : Option Int) (s : State) : Out :=
  present s fun s => .next (reportFault (.ecc seg chunk col) z s)

/-- `FE.EOS` (R247). -/
def execFeEos (s : State) : Out :=
  present s fun s => .next (endOfRun s)

end Sys2Proof.Machine
end

