-- ==== Sys2Proof/Machine/Framer.lean ====
section
/-! DEFINITION. The synchronization_framer (spec 43): the nine operations of the `SY` channel and the
procedures they share. -/

namespace Sys2Proof.Machine

/-- `HuntBit(b)` (R188): the leading-zero count, the rolling window, and the recognition of the
preamble when the window holds 128 bits equal to it. -/
def huntBit (preamble : PreambleWord) (b : Bool) (f : Framer) : Framer :=
  let count := if f.leading && !b then f.zeroCount + 1 else f.zeroCount
  let window := push f.window 128 b
  let f' := { f with zeroCount := count, leading := leadingAfter f.leading b, window := window }
  if window.length = 128 ∧ window = bitsOf preamble then
    { f' with mode := .synced, zeroMetric := some ((count : Int) - 25), rowbits := [], rows := [], window := [] }
  else f'

/-- `ChunkDone` (R191) on the fifteen payloads of the chunk: the chunk goes to the decoder, and to the
emitter or into the ECC fault. -/
def chunkDone (p : Chunk) (s : State) : Out :=
  let s := { s with frm := { s.frm with rows := [] } }
  match eccResult s.rom p with
  | .fail col => .next (raiseFault (.ecc (s.frm.segNo - 1) s.frm.chunkIndex col) (reply (.result (.fail col)) s))
  | .ok words corr =>
    match s.frm.zeroMetric with
    | none => .refused .metricMissing
    | some m =>
      let t := chunkOk s.frm.chunkIndex words corr m (reply (.result (.ok words corr)) s)
      .next { t with frm := { t.frm with chunkIndex := t.frm.chunkIndex + 1 } }

/-- `RowDone` (R190): the completed row's prefix is tested, then its payload joins the chunk. -/
def rowDone (s : State) : Out :=
  let row := assembleRow s.frm.rowbits
  let s := { s with frm := { s.frm with rowbits := [] } }
  if rowPrefix row = framingPrefix then
    let rows := s.frm.rows ++ [rowPayload row]
    let s := { s with frm := { s.frm with rows := rows } }
    if h : rows.length = 15 then chunkDone ⟨⟨rows⟩, h⟩ s else .next s
  else
    .next (raiseFault (.framing (s.frm.segNo - 1) (15 * s.frm.chunkIndex + s.frm.rows.length) s.frm.rowStart) s)

/-- `RowBit(b, pos)` (R189). -/
def rowBit (b : Bool) (pos : Nat) (s : State) : Out :=
  let start := if s.frm.rowbits = [] then pos else s.frm.rowStart
  let bits := s.frm.rowbits ++ [b]
  let s := { s with frm := { s.frm with rowStart := start, rowbits := bits } }
  if bits.length = 37 then rowDone s else .next s

/-- `Anomaly` (R203). -/
def anomaly (f : Framer) : Framer :=
  match f.mode with
  | .hunt => { f with window := [], leading := false }
  | .synced => { f with rowbits := [], window := [] }
  | .idle => f
  | .abort => f

/-- `SegTerminate` (R198) and the return to `IDLE` (R196, R197). -/
def segTerminate (s : State) : State :=
  let z := zeroReport s.frm
  let t := segmentEnd z { s with frm := dropAssembly s.frm }
  { t with frm := { t.frm with mode := .idle } }

/-- What `SY.ZERO` and `SY.ONE` do, by mode (R186, R187, R199, R202). -/
def symbolBit (b : Bool) (s : State) : Out :=
  let counted := { s with frm := { s.frm with symPos := s.frm.symPos + 1 } }
  match s.frm.mode with
  | .idle => .refused .symbolOutsideSegment
  | .hunt => .next { counted with frm := huntBit s.rom.preamble b counted.frm }
  | .synced => rowBit b s.frm.symPos counted
  | .abort => .next s

/-- What `SY.ANOM_*` do, by mode; the framer does not look at the kind (R192 to R195, R199, R202). -/
def symbolAnomaly (s : State) : Out :=
  let counted := { s.frm with symPos := s.frm.symPos + 1 }
  match s.frm.mode with
  | .idle => .refused .symbolOutsideSegment
  | .hunt => .next { s with frm := anomaly counted }
  | .synced => .next { s with frm := anomaly counted }
  | .abort => .next s

/-- The `SY` channel carries `SEGSTART(time)` (R185, R202). -/
def sendSegstart (time : Rat) (s : State) : Out :=
  let s := tap (.segstart time) s
  match s.frm.mode with
  | .idle => .next { s with frm := segmentStart s.frm }
  | .hunt => .refused .segstartInsideSegment
  | .synced => .refused .segstartInsideSegment
  | .abort => .refused .segstartInsideSegment

/-- The `SY` channel carries `ZERO` (R186). -/
def sendZero (s : State) : Out := symbolBit false (tap .zero s)

/-- The `SY` channel carries `ONE` (R187). -/
def sendOne (s : State) : Out := symbolBit true (tap .one s)

/-- The `SY` channel carries `ANOM_NARROW` (R192). -/
def sendAnomNarrow (s : State) : Out := symbolAnomaly (tap (.anomaly .narrow) s)

/-- The `SY` channel carries `ANOM_MID` (R193). -/
def sendAnomMid (s : State) : Out := symbolAnomaly (tap (.anomaly .mid) s)

/-- The `SY` channel carries `ANOM_LONG` (R194). -/
def sendAnomLong (s : State) : Out := symbolAnomaly (tap (.anomaly .long) s)

/-- The `SY` channel carries `ANOM_WIDE` (R195). -/
def sendAnomWide (s : State) : Out := symbolAnomaly (tap (.anomaly .wide) s)

/-- The `SY` channel carries `GAP` (R196, R202). -/
def sendGap (s : State) : Out :=
  let s := tap .gap s
  match s.frm.mode with
  | .idle => .refused .symbolOutsideSegment
  | .hunt => .next (segTerminate s)
  | .synced => .next (segTerminate s)
  | .abort => .next { s with frm := { s.frm with mode := .idle } }

/-- The `SY` channel carries `EOS` (R197). -/
def sendEos (s : State) : Out :=
  let s := tap .eos s
  match s.frm.mode with
  | .idle => .next (endOfRun s)
  | .hunt => .next (endOfRun (segTerminate s))
  | .synced => .next (endOfRun (segTerminate s))
  | .abort => .next (endOfRun { s with frm := { s.frm with mode := .idle } })

/-- `SY.SEGSTART` (R185). -/
def execSySegstart (time : Rat) (s : State) : Out := present s (sendSegstart time)

/-- `SY.ZERO` (R186). -/
def execSyZero (s : State) : Out := present s sendZero

/-- `SY.ONE` (R187). -/
def execSyOne (s : State) : Out := present s sendOne

/-- `SY.ANOM_NARROW` (R192). -/
def execSyAnomNarrow (s : State) : Out := present s sendAnomNarrow

/-- `SY.ANOM_MID` (R193). -/
def execSyAnomMid (s : State) : Out := present s sendAnomMid

/-- `SY.ANOM_LONG` (R194). -/
def execSyAnomLong (s : State) : Out := present s sendAnomLong

/-- `SY.ANOM_WIDE` (R195). -/
def execSyAnomWide (s : State) : Out := present s sendAnomWide

/-- `SY.GAP` (R196). -/
def execSyGap (s : State) : Out := present s sendGap

/-- `SY.EOS` (R197). -/
def execSyEos (s : State) : Out := present s sendEos

end Sys2Proof.Machine
end

