-- ==== Sys2Proof/Machine/Recoverer.lean ====
section
/-! DEFINITION. The nrzi_bit_recoverer (spec 42): the eight operations of the `CL` channel. Each emits
at most one symbol, whose rule runs at once (R3). -/

namespace Sys2Proof.Machine

/-- The state with the flag `expecting` at `b` (R26). -/
def setExpecting (b : Bool) (s : State) : State := { s with rcv := { expecting := b } }

/-- The `CL` channel carries `SEG_OPEN(time)` (R165). -/
def beginSegment (time : Rat) (s : State) : Out := sendSegstart time (setExpecting false s)

/-- The `CL` channel carries `IVL_LONG` (R166). -/
def intervalLong (s : State) : Out :=
  if s.rcv.expecting then sendAnomLong (setExpecting false s) else sendZero s

/-- The `CL` channel carries `IVL_SHORT` (R167). -/
def intervalShort (s : State) : Out :=
  if s.rcv.expecting then sendOne (setExpecting false s) else .next (setExpecting true s)

/-- The `CL` channel carries `IVL_WIDE` (R168). -/
def intervalWide (s : State) : Out := sendAnomWide (setExpecting false s)

/-- The `CL` channel carries `IVL_MID` (R169). -/
def intervalMid (s : State) : Out := sendAnomMid (setExpecting false s)

/-- The `CL` channel carries `IVL_NARROW` (R170). -/
def intervalNarrow (s : State) : Out := sendAnomNarrow (setExpecting false s)

/-- The `CL` channel carries `DROPOUT` (R171): a pending `SHORT` leaves no symbol. -/
def dropout (s : State) : Out := sendGap (setExpecting false s)

/-- The `CL` channel carries `EOS` (R172): a pending `SHORT` leaves no symbol. -/
def intervalsEnd (s : State) : Out := sendEos (setExpecting false s)

/-- `CL.SEG_OPEN` (R165). -/
def execClSegOpen (time : Rat) (s : State) : Out := present s (beginSegment time)

/-- `CL.IVL_LONG` (R166). -/
def execClIvlLong (s : State) : Out := present s intervalLong

/-- `CL.IVL_SHORT` (R167). -/
def execClIvlShort (s : State) : Out := present s intervalShort

/-- `CL.IVL_WIDE` (R168). -/
def execClIvlWide (s : State) : Out := present s intervalWide

/-- `CL.IVL_MID` (R169). -/
def execClIvlMid (s : State) : Out := present s intervalMid

/-- `CL.IVL_NARROW` (R170). -/
def execClIvlNarrow (s : State) : Out := present s intervalNarrow

/-- `CL.DROPOUT` (R171). -/
def execClDropout (s : State) : Out := present s dropout

/-- `CL.EOS` (R172). -/
def execClEos (s : State) : Out := present s intervalsEnd

end Sys2Proof.Machine
end

