-- ==== Sys2Proof/Machine/Classifier.lean ====
section
/-! DEFINITION. The adaptive_pulse_classifier (spec 41): `TR.TRANS` and `TR.EOS`. -/

namespace Sys2Proof.Machine

/-- `Classify(delta)`, the tests in the order of R151. -/
def classify (c : Config) (delta : Rat) : IntervalClass :=
  if edgeLongWide c < delta then .wide
  else if edgeMidLong c ≤ delta then .long
  else if edgeShortMid c < delta then .mid
  else if edgeNarrowShort c ≤ delta then .short
  else .narrow

/-- The `CL` channel carries `IVL_<class>` (R150). -/
def sendInterval (k : IntervalClass) (s : State) : Out :=
  match k with
  | .narrow => intervalNarrow s
  | .short => intervalShort s
  | .mid => intervalMid s
  | .long => intervalLong s
  | .wide => intervalWide s

/-- The `TR` channel carries `TRANS(ifrac, energy)` (R150): the anchor of a segment (R155), an
interval (R151, R156), a dropout (R153), or nothing. -/
def transition (ifrac energy : Rat) (s : State) : Out :=
  if s.cfg.energyThreshold ≤ energy then
    let anchored := { s with cls := { last := some ifrac } }
    match s.cls.last with
    | none => beginSegment (ifrac / (s.cfg.sampleRate : Rat)) anchored
    | some l => sendInterval (classify s.cfg (ifrac - l)) anchored
  else
    match s.cls.last with
    | none => .next s
    | some _ => dropout { s with cls := { last := none } }

/-- The `TR` channel carries `EOS` (R154). -/
def transitionsEnd (s : State) : Out := intervalsEnd { s with cls := { last := none } }

/-- `TR.TRANS` (R150). -/
def execTrTrans (ifrac energy : Rat) (s : State) : Out := present s (transition ifrac energy)

/-- `TR.EOS` (R154). -/
def execTrEos (s : State) : Out := present s transitionsEnd

end Sys2Proof.Machine
end

