-- ==== Sys2Proof/Machine/Detector.lean ====
section
/-! DEFINITION. The interpolating_zero_crossing_detector (spec 40): `IN.SAMPLE` and `IN.EOS`. -/

namespace Sys2Proof.Machine

/-- The stages R132 to R136 on the corrected sample `y` of index `i`: energy, zero-crossing test,
interpolation, emission gate, and the update of `prev`. `prev` is the detector's own (R20), so it is
written before the transition runs downstream (log entry 19). -/
def correctedSample (i : Int) (y : Rat) (s : State) : Out :=
  let ebuf := push s.det.ebuf (energyLen s.cfg) y
  let t := { s with det := { s.det with ebuf := ebuf, prev := some y } }
  match s.det.prev with
  | none => .next t
  | some p =>
    if signChange p y && energyFull s.cfg ebuf then transition (interpolate i p y) (energyOf ebuf) t
    else .next t

/-- The stages of `IN.SAMPLE(x)` (R130): the counter (R136), the DC stage (R131), then the corrected
sample, if there is one. -/
def acceptSample (x : Int) (s : State) : Out :=
  let n := s.det.n
  let s := { s with det := { s.det with n := n + 1 } }
  if dcOn s.cfg then
    let dcbuf := push s.det.dcbuf (dcLen s.cfg) x
    let s := { s with det := { s.det with dcbuf := dcbuf } }
    if dcbuf.length < dcLen s.cfg then .next s
    else correctedSample ((n : Int) - (dcShift s.cfg : Int)) (dcCorrected s.cfg dcbuf) s
  else correctedSample (n : Int) (x : Rat) s

/-- The flag `done` is set (R40, R137). -/
def setDone (s : State) : State := { s with sts := { s.sts with done := true } }

/-- What `IN.EOS` does: `TR.EOS`, then `done` after every downstream rule has run (R137). -/
def acceptEos (s : State) : Out := onNext (transitionsEnd s) setDone

/-- `IN.SAMPLE` (R130). -/
def execInSample (x : Int) (s : State) : Out := present s (acceptSample x)

/-- `IN.EOS` (R137). -/
def execInEos (s : State) : Out := present s acceptEos

end Sys2Proof.Machine
end

