-- ==== Sys2Proof/Machine/Formats.lean ====
section
/-! DEFINITION. The four data formats as operations (log entry 13): a row and a preamble are bits the
`SY` channel carries one after another (R68, R97, R101), a codeword is looked up (R220), an output
word is written as two bytes (R100, R242). -/

namespace Sys2Proof.Machine

/-- The `SY` channel carries one bit (R186, R187). -/
def sendBit (b : Bool) (s : State) : Out := if b then sendOne s else sendZero s

/-- The `SY` channel carries bits one after another, the first of the list first. -/
def sendBits : List Bool → State → Out
  | [], s => .next s
  | b :: bs, s =>
    match sendBit b s with
    | .next t => sendBits bs t
    | .fault r => .fault r
    | .refused r => .refused r

/-- The word of a row from its two fields (R96). -/
def rowOf (pre : BitVec 5) (payload : Payload) : RowWord := pre ++ payload

/-- `ROW`: its 37 bits are received, bit 36 first (R68, R96, R97). -/
def execRow (pre : BitVec 5) (payload : Payload) (s : State) : Out :=
  present s (sendBits (bitsOf (rowOf pre payload)))

/-- `CODEWORD`: its entry of `ECCTAB` is read (R99, R220). -/
def execCodeword (syn : Syndrome) (data : DataWord) (s : State) : Out :=
  present s fun s => .next (reply (.entry (eccEntry s.rom (syn ++ data))) s)

/-- `OUTWORD`: its two bytes are appended to the open record, high byte first (R100, R242). -/
def execOutword (data : DataWord) (s : State) : Out :=
  present s fun s =>
    if recordOpen s.io.records then .next (emitAll (wordEvents data) s) else .refused .noOpenRecord

/-- `PREAMBLE`: its 128 bits are received, bit 127 first (R101, R188). -/
def execPreamble (bits : PreambleWord) (s : State) : Out := present s (sendBits (bitsOf bits))

end Sys2Proof.Machine
end

