-- ==== Sys2Proof/Machine/OutPort.lean ====
section
/-! DEFINITION. The eight tokens of the `OUT` channel as operations. They are "results, not
operations" (R102): what one does, presented on its own, is to join the `OUT` stream and to write the
spaces `RECORDS` and `MANIFEST` as R60, R66 and R248 say (log entry 14). -/

namespace Sys2Proof.Machine

/-- `e` is emitted, when a record is open to take it (R66, R75). -/
def intoOpenRecord (e : OutEvent) (s : State) : Out :=
  if recordOpen s.io.records then .next (emit e s) else .refused .noOpenRecord

/-- `OUT.REC_OPEN(k)`: a new empty record as element `k` (R248), or, for a `k` that is not the next
number, as a free element past the last (log entry 27). -/
def execOutRecOpen (k : Nat) (s : State) : Out := present s fun s => .next (emit (.recOpen k) s)

/-- `OUT.ZERO_RUN(N)`: the line `zero <N>` (R105). -/
def execOutZeroRun (n : Int) (s : State) : Out := present s fun s => .next (emit (.zeroRun n) s)

/-- `OUT.CORRECTED(chunk, col)` (R95). -/
def execOutCorrected (chunk : Nat) (col : Fin 32) (s : State) : Out :=
  present s fun s => .next (emit (.corrected chunk col) s)

/-- `OUT.BYTE(b)`: one byte appended to the open record (R95). -/
def execOutByte (b : Byte) (s : State) : Out := present s (intoOpenRecord (.byte b))

/-- `OUT.REC_CLOSE`: the open record is frozen (R66). -/
def execOutRecClose (s : State) : Out := present s (intoOpenRecord .recClose)

/-- `OUT.ERR_FRAMING(seg, row, off)` (R95). -/
def execOutErrFraming (seg row off : Nat) (s : State) : Out :=
  present s fun s => .next (emit (.errFraming seg row off) s)

/-- `OUT.ERR_ECC(seg, chunk, col)` (R95). -/
def execOutErrEcc (seg chunk : Nat) (col : Fin 32) (s : State) : Out :=
  present s fun s => .next (emit (.errEcc seg chunk col) s)

/-- `OUT.END`: nothing is emitted after it until reset (R247). -/
def execOutEnd (s : State) : Out := present s fun s => .next (emit .endRun s)

end Sys2Proof.Machine
end

