-- ==== Sys2Proof/Machine/Dispatch.lean ====
section
/-! DEFINITION. The meaning of every instruction, one arm for each constructor of `Instr`. -/

namespace Sys2Proof.Machine

/-- The instruction `i` on the state `s` (R102: "each operation has exactly one rule"). -/
def exec (i : Instr) (s : State) : Host.Outcome State Fault Refusal :=
  match i with
  | .inSample x => Sys2Proof.Machine.execInSample x s
  | .inEos => Sys2Proof.Machine.execInEos s
  | .trTrans ifrac energy => Sys2Proof.Machine.execTrTrans ifrac energy s
  | .trEos => Sys2Proof.Machine.execTrEos s
  | .clIvlNarrow => Sys2Proof.Machine.execClIvlNarrow s
  | .clIvlShort => Sys2Proof.Machine.execClIvlShort s
  | .clIvlMid => Sys2Proof.Machine.execClIvlMid s
  | .clIvlLong => Sys2Proof.Machine.execClIvlLong s
  | .clIvlWide => Sys2Proof.Machine.execClIvlWide s
  | .clSegOpen time => Sys2Proof.Machine.execClSegOpen time s
  | .clDropout => Sys2Proof.Machine.execClDropout s
  | .clEos => Sys2Proof.Machine.execClEos s
  | .syZero => Sys2Proof.Machine.execSyZero s
  | .syOne => Sys2Proof.Machine.execSyOne s
  | .syGap => Sys2Proof.Machine.execSyGap s
  | .sySegstart time => Sys2Proof.Machine.execSySegstart time s
  | .syAnomNarrow => Sys2Proof.Machine.execSyAnomNarrow s
  | .syAnomMid => Sys2Proof.Machine.execSyAnomMid s
  | .syAnomLong => Sys2Proof.Machine.execSyAnomLong s
  | .syAnomWide => Sys2Proof.Machine.execSyAnomWide s
  | .syEos => Sys2Proof.Machine.execSyEos s
  | .eccDecode p => Sys2Proof.Machine.execEccDecode p s
  | .feChunkOk chunk words corr metric => Sys2Proof.Machine.execFeChunkOk chunk words corr metric s
  | .feSegEnd z => Sys2Proof.Machine.execFeSegEnd z s
  | .feFaultFraming seg row off z => Sys2Proof.Machine.execFeFaultFraming seg row off z s
  | .feFaultEcc seg chunk col z => Sys2Proof.Machine.execFeFaultEcc seg chunk col z s
  | .feEos => Sys2Proof.Machine.execFeEos s
  | .outRecOpen k => Sys2Proof.Machine.execOutRecOpen k s
  | .outZeroRun n => Sys2Proof.Machine.execOutZeroRun n s
  | .outCorrected chunk col => Sys2Proof.Machine.execOutCorrected chunk col s
  | .outByte b => Sys2Proof.Machine.execOutByte b s
  | .outRecClose => Sys2Proof.Machine.execOutRecClose s
  | .outErrFraming seg row off => Sys2Proof.Machine.execOutErrFraming seg row off s
  | .outErrEcc seg chunk col => Sys2Proof.Machine.execOutErrEcc seg chunk col s
  | .outEnd => Sys2Proof.Machine.execOutEnd s
  | .row pre payload => Sys2Proof.Machine.execRow pre payload s
  | .codeword syn data => Sys2Proof.Machine.execCodeword syn data s
  | .outword data => Sys2Proof.Machine.execOutword data s
  | .preamble bits => Sys2Proof.Machine.execPreamble bits s

end Sys2Proof.Machine
end

