-- ==== Sys2Proof/WellFormed.lean ====
section
/-! DEFINITION. Which instructions the formats of R90 to R101 can carry at given widths. What the
types already say (a column below 32, 32 words of ten bits) is not said again. -/

namespace Sys2Proof

/-- `x` is a two's-complement value of `w` bits (R90, R95). -/
def fitsSigned (w : Nat) (x : Int) : Bool :=
  decide (-(2 : Int) ^ (w - 1) ≤ x) && decide (x < (2 : Int) ^ (w - 1))

/-- `n` is an unsigned value of `w` bits (R95). -/
def fitsNat (w n : Nat) : Bool := decide (n < 2 ^ w)

/-- The operands stand within the fields of the instruction's format: a sample within `SAMPLE_WIDTH`
(R90, R298), an energy not negative (R91), every `OUT` payload within `COUNTER_WIDTH` (R95, R298). -/
def Instr.wellFormed (c : Config) : Instr → Bool
  | .inSample x => fitsSigned c.sampleWidth x
  | .inEos => true
  | .trTrans _ energy => decide (0 ≤ energy)
  | .trEos => true
  | .clIvlNarrow => true
  | .clIvlShort => true
  | .clIvlMid => true
  | .clIvlLong => true
  | .clIvlWide => true
  | .clSegOpen _ => true
  | .clDropout => true
  | .clEos => true
  | .syZero => true
  | .syOne => true
  | .syGap => true
  | .sySegstart _ => true
  | .syAnomNarrow => true
  | .syAnomMid => true
  | .syAnomLong => true
  | .syAnomWide => true
  | .syEos => true
  | .eccDecode _ => true
  | .feChunkOk _ _ _ _ => true
  | .feSegEnd _ => true
  | .feFaultFraming _ _ _ _ => true
  | .feFaultEcc _ _ _ _ => true
  | .feEos => true
  | .outRecOpen k => fitsNat c.counterWidth k
  | .outZeroRun n => fitsSigned c.counterWidth n
  | .outCorrected chunk col => fitsNat c.counterWidth chunk && fitsNat c.counterWidth col.val
  | .outByte b => fitsNat c.counterWidth b.toNat
  | .outRecClose => true
  | .outErrFraming seg r off =>
      fitsNat c.counterWidth seg && fitsNat c.counterWidth r && fitsNat c.counterWidth off
  | .outErrEcc seg chunk col =>
      fitsNat c.counterWidth seg && fitsNat c.counterWidth chunk && fitsNat c.counterWidth col.val
  | .outEnd => true
  | .row _ _ => true
  | .codeword _ _ => true
  | .outword _ => true
  | .preamble _ => true

end Sys2Proof
end

