-- ==== Sys2Proof/Decode.lean ====
section
/-! DEFINITION. The decoder of every channel and data format (R90 to R101), total and rejecting by
name, then the encoder written from the same rules, then the reading of an opcode-table word. -/

namespace Sys2Proof

/-- `sext_w` of R90: the integer a field `v` of `w` bits stands for in two's complement. -/
def signedField (w v : Nat) : Int :=
  if v < 2 ^ (w - 1) then (v : Int) else (v : Int) - 2 ^ w

/-- The field of `w` bits that holds `x` in two's complement. -/
def unsignedField (w : Nat) (x : Int) : Nat := (x % (2 : Int) ^ w).toNat

/-- Payload `r` of a chunk word: row 0 stands in bits 479..448 (R98, the table's layout). -/
def chunkRow (w : BitVec 480) (r : Fin 15) : Payload :=
  BitVec.ofNat 32 (w.toNat / 2 ^ (32 * (14 - r.val)))

/-- The fifteen payloads of a chunk word, row 0 first (R98). -/
def chunkOfWord (w : BitVec 480) : Chunk := ⟨⟨(List.finRange 15).map (chunkRow w)⟩, by simp⟩

/-- The chunk word of fifteen payloads, row 0 in the highest bits (R98). -/
def wordOfChunk (p : Chunk) : BitVec 480 :=
  BitVec.ofNat 480 (p.toList.foldl (fun n r => n * 2 ^ 32 + r.toNat) 0)

/-- The `IN` token: bit `sw` is `eos`, the bits below it the sample, ignored when `eos = 1` (R90). -/
def decodeIn (sw w : Nat) : Except Reject Instr :=
  if 2 ^ (sw + 1) ≤ w then .error .tooWide
  else if 2 ^ sw ≤ w then .ok .inEos
  else .ok (.inSample (signedField sw w))

/-- The `TR` token: kind 0 is `TRANS`, 1 is `EOS` (R91). DESIGN CHOICE (log entry 28): R91 gives the
energy as not negative and says nothing of another; the decoder takes any, and R150 compares it. -/
def decodeTr (kind : BitVec 1) (ifrac energy : Rat) : Except Reject Instr :=
  if kind = 0 then .ok (.trTrans ifrac energy) else .ok .trEos

/-- The `CL` token: two kind bits above three class bits; the class is read for intervals only (R92). -/
def decodeCl (w : BitVec 5) (time : Rat) : Except Reject Instr :=
  match (w.toNat / 8, w.toNat % 8) with
  | (0, 0) => .ok .clIvlNarrow
  | (0, 1) => .ok .clIvlShort
  | (0, 2) => .ok .clIvlMid
  | (0, 3) => .ok .clIvlLong
  | (0, 4) => .ok .clIvlWide
  | (0, _) => .error .reservedClass
  | (1, _) => .ok (.clSegOpen time)
  | (2, _) => .ok .clDropout
  | (_, _) => .ok .clEos

/-- The `SY` token: the side-band `eos` bit above the three code bits (R93). -/
def decodeSy (w : BitVec 4) (time : Rat) : Except Reject Instr :=
  match w.toNat with
  | 0 => .ok .syZero
  | 1 => .ok .syOne
  | 2 => .ok .syGap
  | 3 => .ok (.sySegstart time)
  | 4 => .ok .syAnomNarrow
  | 5 => .ok .syAnomMid
  | 6 => .ok .syAnomLong
  | 7 => .ok .syAnomWide
  | _ => .ok .syEos

/-- A column number read from a natural field: 0 to 31 (R94, R95). -/
def columnOf (n : Nat) (k : Fin 32 → Instr) : Except Reject Instr :=
  if h : n < 32 then .ok (k ⟨n, h⟩) else .error .columnTooLarge

/-- The `FE` token: kinds 0 to 4 in the order R94 lists them. -/
def decodeFe (kind : BitVec 3) (o : FeOperands) : Except Reject Instr :=
  match kind.toNat with
  | 0 => .ok (.feChunkOk o.a o.words o.marks o.metric)
  | 1 => .ok (.feSegEnd o.z)
  | 2 => .ok (.feFaultFraming o.a o.b o.c o.z)
  | 3 => columnOf o.c (fun col => .feFaultEcc o.a o.b col o.z)
  | 4 => .ok .feEos
  | _ => .error .reservedFeKind

/-- `i`, when the payloads its kind does not use are zero (R95: "unused payloads are zero"). -/
def whenZero (unused : List Nat) (i : Except Reject Instr) : Except Reject Instr :=
  if unused.all (· == 0) then i else .error .payloadNotZero

/-- The `OUT` token of a kind and its three payloads (R95). -/
def decodeOutFields (cw kind p0 p1 p2 : Nat) : Except Reject Instr :=
  match kind with
  | 0 => whenZero [p1, p2] (.ok (.outRecOpen p0))
  | 1 => whenZero [p1, p2] (.ok (.outZeroRun (signedField cw p0)))
  | 2 => whenZero [p2] (columnOf p1 (fun col => .outCorrected p0 col))
  | 3 => whenZero [p1, p2] (if p0 < 256 then .ok (.outByte (BitVec.ofNat 8 p0)) else .error .byteTooLarge)
  | 4 => whenZero [p0, p1, p2] (.ok .outRecClose)
  | 5 => .ok (.outErrFraming p0 p1 p2)
  | 6 => columnOf p2 (fun col => .outErrEcc p0 p1 col)
  | 7 => whenZero [p0, p1, p2] (.ok .outEnd)
  | _ => .error .reservedOutKind

/-- The `OUT` token: kind, P0, P1, P2 from the most significant end (R95, the table's layout). -/
def decodeOut (cw w : Nat) : Except Reject Instr :=
  if 16 * 2 ^ (3 * cw) ≤ w then .error .tooWide
  else
    decodeOutFields cw (w / 2 ^ (3 * cw)) (w / 2 ^ (2 * cw) % 2 ^ cw) (w / 2 ^ cw % 2 ^ cw) (w % 2 ^ cw)

/-- The output word: upper six bits zero (R100). -/
def decodeOutword (w : OutWord) : Except Reject Instr :=
  if w.toNat < 1024 then .ok (.outword (BitVec.ofNat 10 w.toNat)) else .error .highBitsNotZero

/-- The instruction a packet stands for at the given widths, or why it stands for none. -/
def decode (c : Config) : Packet → Except Reject Instr
  | .inPort w => decodeIn c.sampleWidth w
  | .tr kind ifrac energy => decodeTr kind ifrac energy
  | .cl w time => decodeCl w time
  | .sy w time => decodeSy w time
  | .ecc w => .ok (.eccDecode (chunkOfWord w))
  | .fe kind ops => decodeFe kind ops
  | .outPort w => decodeOut c.counterWidth w
  | .row w => .ok (.row (w.extractLsb' 32 5) (w.extractLsb' 0 32))
  | .codeword w => .ok (.codeword (w.extractLsb' 10 5) (w.extractLsb' 0 10))
  | .outword w => decodeOutword w
  | .preamble w => .ok (.preamble w)
  | .stray _ _ => .error .noSuchFormat

/-! ## The encoder -/

/-- An `OUT` token from its fields (R95, the table's layout). -/
def packOut (cw kind p0 p1 p2 : Nat) : Packet :=
  .outPort (((kind * 2 ^ cw + p0) * 2 ^ cw + p1) * 2 ^ cw + p2)

/-- The packet of an instruction at the given widths (R90 to R101). -/
def encode (c : Config) : Instr → Packet
  | .inSample x => .inPort (unsignedField c.sampleWidth x)
  | .inEos => .inPort (2 ^ c.sampleWidth)
  | .trTrans ifrac energy => .tr 0#1 ifrac energy
  | .trEos => .tr 1#1 0 0
  | .clIvlNarrow => .cl 0b00000#5 0
  | .clIvlShort => .cl 0b00001#5 0
  | .clIvlMid => .cl 0b00010#5 0
  | .clIvlLong => .cl 0b00011#5 0
  | .clIvlWide => .cl 0b00100#5 0
  | .clSegOpen time => .cl 0b01000#5 time
  | .clDropout => .cl 0b10000#5 0
  | .clEos => .cl 0b11000#5 0
  | .syZero => .sy 0b0000#4 0
  | .syOne => .sy 0b0001#4 0
  | .syGap => .sy 0b0010#4 0
  | .sySegstart time => .sy 0b0011#4 time
  | .syAnomNarrow => .sy 0b0100#4 0
  | .syAnomMid => .sy 0b0101#4 0
  | .syAnomLong => .sy 0b0110#4 0
  | .syAnomWide => .sy 0b0111#4 0
  | .syEos => .sy 0b1000#4 0
  | .eccDecode p => .ecc (wordOfChunk p)
  | .feChunkOk chunk words corr metric => .fe 0#3 { a := chunk, words := words, marks := corr, metric := metric }
  | .feSegEnd z => .fe 1#3 { z := z }
  | .feFaultFraming seg row off z => .fe 2#3 { a := seg, b := row, c := off, z := z }
  | .feFaultEcc seg chunk col z => .fe 3#3 { a := seg, b := chunk, c := col.val, z := z }
  | .feEos => .fe 4#3 { }
  | .outRecOpen k => packOut c.counterWidth 0 k 0 0
  | .outZeroRun n => packOut c.counterWidth 1 (unsignedField c.counterWidth n) 0 0
  | .outCorrected chunk col => packOut c.counterWidth 2 chunk col.val 0
  | .outByte b => packOut c.counterWidth 3 b.toNat 0 0
  | .outRecClose => packOut c.counterWidth 4 0 0 0
  | .outErrFraming seg row off => packOut c.counterWidth 5 seg row off
  | .outErrEcc seg chunk col => packOut c.counterWidth 6 seg chunk col.val
  | .outEnd => packOut c.counterWidth 7 0 0 0
  | .row pre payload => .row (pre ++ payload)
  | .codeword syn data => .codeword (syn ++ data)
  | .outword data => .outword (data.setWidth 16)
  | .preamble bits => .preamble bits

/-! ## Opcode-table words -/

/-- The packet of a table word that is known to hold one byte at most. The table's codes of `TR`,
`FE`, `SY` and `CL` overlap (each channel has its own code space, R91 to R94) and the word does not
name its channel: the narrowest code space that has the value is taken. DESIGN CHOICE (log entry 9).
Operands to which the table gives no bits are zero. -/
def tableByte (w : Nat) : Packet :=
  if w < 2 then .tr (BitVec.ofNat 1 w) 0 0
  else if w < 5 then .fe (BitVec.ofNat 3 w) { }
  else if w < 16 then .sy (BitVec.ofNat 4 w) 0
  else if w < 32 then .cl (BitVec.ofNat 5 w) 0
  else .stray 8 w

/-- The packet of an opcode-table word of `nbits` bits, a row's own width or that width in whole bytes. -/
def tablePacket (nbits w : Nat) : Packet :=
  match nbits with
  | 1 => if w < 2 then .tr (BitVec.ofNat 1 w) 0 0 else .stray nbits w
  | 3 => if w < 8 then .fe (BitVec.ofNat 3 w) { } else .stray nbits w
  | 4 => if w < 16 then .sy (BitVec.ofNat 4 w) 0 else .stray nbits w
  | 5 => if w < 32 then .cl (BitVec.ofNat 5 w) 0 else .stray nbits w
  | 8 => tableByte w
  | 15 => if w < 2 ^ 15 then .codeword (BitVec.ofNat 15 w) else .stray nbits w
  | 16 =>
    if w < 2 ^ 10 then .outword (BitVec.ofNat 16 w)
    else if w < 2 ^ 15 then .codeword (BitVec.ofNat 15 w)
    else .stray nbits w
  | 17 => .inPort w
  | 24 => .inPort w
  | 37 => if w < 2 ^ 37 then .row (BitVec.ofNat 37 w) else .stray nbits w
  | 40 => if w < 2 ^ 37 then .row (BitVec.ofNat 37 w) else .stray nbits w
  | 100 => .outPort w
  | 104 => .outPort w
  | 128 => if w < 2 ^ 128 then .preamble (BitVec.ofNat 128 w) else .stray nbits w
  | 480 => if w < 2 ^ 480 then .ecc (BitVec.ofNat 480 w) else .stray nbits w
  | _ => .stray nbits w

/-- The instruction the decoder reads from an opcode-table word, at the widths the table shows
(`SAMPLE_WIDTH` 16 and `COUNTER_WIDTH` 32, those of `Config.atReset`). -/
def decodeTableWord (nbits w : Nat) : Option Instr :=
  match decode Config.atReset (tablePacket nbits w) with
  | .ok i => some i
  | .error _ => none

end Sys2Proof
end

