-- ==== Sys2Proof/Machine/Fetch.lean ====
section
/-! DEFINITION. What the block takes next from what the host has presented (R3, R290): nothing, a
pulse of the reset line, or a token. -/

namespace Sys2Proof.Machine

/-- What the next step takes, and the queue it leaves. -/
inductive Fetched where
  | idle
  | reset (rest : List HostInput)
  | instr (i : Instr) (rest : List HostInput)
  | bad (r : Reject)
deriving DecidableEq, Repr

/-- The head of the queue, decoded at the configured widths (R90, R95). -/
def fetch (s : State) : Fetched :=
  match s.pending with
  | [] => .idle
  | .reset :: rest => .reset rest
  | .token p :: rest =>
    match decode s.cfg p with
    | .ok i => .instr i rest
    | .error r => .bad r

end Sys2Proof.Machine
end

