-- ==== Sys2Proof/Machine/Step.lean ====
section
/-! DEFINITION. One step of the block: the next input the host has presented is taken to completion
(R3); with none presented the block idles (R270, R292). -/

namespace Sys2Proof.Machine

/-- `Step(cfg, st, tok)` of R3, the token taken from the head of the queue. -/
def step (s : State) : Host.Outcome State Fault Refusal :=
  match fetch s with
  | .idle => .next s
  | .reset rest => .next (applyReset { s with pending := rest })
  | .instr i rest => exec i { s with pending := rest }
  | .bad r => .refused (.undecodable r)

/-- `s` with an opcode-table word presented as the next token (log entries 1 and 9). -/
def State.withFetchWord (s : State) (nbits w : Nat) : State :=
  { s with pending := .token (tablePacket nbits w) :: s.pending }

end Sys2Proof.Machine
end

