-- ==== Sys2Proof/Safety.lean ====
section
/-! DEFINITION. The terms the claims are stated in: the invariants of R45, the two hypotheses on the
syndrome tables (R226) and the one on the preamble (R205), and what a run driven at `IN` is. -/

namespace Sys2Proof.Machine

/-! ## Invariants -/

/-- The clauses of R45 that concern the framer alone. They hold whichever channel drives the block. -/
structure FramerInv (f : Framer) : Prop where
  window_le : f.window.length ≤ 128
  rowbits_le : f.rowbits.length ≤ 36
  rows_le : f.rows.length ≤ 14
  metric_some : f.mode = .synced ∨ f.mode = .abort → f.zeroMetric ≠ none
  metric_none : f.mode = .hunt → f.zeroMetric = none
  assembly_synced : f.rowbits ≠ [] ∨ f.rows ≠ [] → f.mode = .synced

/-- The clauses of R45 on the detector's buffers. With the window off `dcbuf` stays empty (R22). -/
structure DetectorInv (c : Config) (d : Detector) : Prop where
  ebuf_le : d.ebuf.length ≤ energyLen c
  dcbuf_le : dcOn c = true → d.dcbuf.length ≤ dcLen c
  dcbuf_off : dcOn c = false → d.dcbuf = []

/-- The invariants of R45, all of them. They hold in every state reached from reset by `IN` tokens. -/
structure BlockInv (s : State) : Prop where
  framer : FramerInv s.frm
  detector : DetectorInv s.cfg s.det
  expecting_open : s.rcv.expecting = true → s.cls.last ≠ none
  idle_iff : s.frm.mode = .idle ↔ s.cls.last = none
  record_synced : s.emt.recOpen = true → s.frm.mode = .synced ∧ 1 ≤ s.frm.chunkIndex
  done_closed : s.sts.done = true →
    s.frm.mode = .idle ∧ s.cls.last = none ∧ s.rcv.expecting = false ∧ s.emt.recOpen = false

/-- The output spaces are the host's folds over the events of the run (R248). -/
def SpacesAreFolds (s : State) : Prop :=
  s.io.records = recordsOf s.io.outs ∧ s.io.manifest = manifestOf s.io.outs

/-- The emitter's two elements say what the space `RECORDS` holds: `rec_no` records have been opened
(R38), the last is open exactly when `rec_open` says so (R37), and every other one is frozen (R66). -/
def EmitterInv (s : State) : Prop :=
  s.emt.recNo = s.io.records.length ∧ s.emt.recOpen = recordOpen s.io.records ∧
    ∀ r ∈ s.io.records.dropLast, r.frozen = true

/-- Every record holds a positive number of whole 64-byte chunks (R71, R248). -/
def WholeChunks (s : State) : Prop :=
  ∀ r ∈ s.io.records, 64 ∣ r.bytes.length ∧ 0 < r.bytes.length

/-- The index of the newest corrected sample, `n − 1` shifted back by the DC stage (R131). -/
def newestIndex (s : State) : Int :=
  (s.det.n : Int) - 1 - (if dcOn s.cfg then (dcShift s.cfg : Int) else 0)

/-- The last accepted transition does not lie after the newest corrected sample (R134, R138). -/
def LastNotAhead (s : State) : Prop := ∀ l, s.cls.last = some l → l ≤ (newestIndex s : Rat)

/-! ## Tokens -/

/-- The instruction is a token of the `IN` port, the only channel the host drives (R90, R269). -/
def fromHost : Instr → Bool
  | .inSample _ => true
  | .inEos => true
  | _ => false

/-- The event reports a fault (R260). -/
def isFaultReport : OutEvent → Bool
  | .errFraming _ _ _ => true
  | .errEcc _ _ _ => true
  | _ => false

/-- The segment number that a report of a fault carries (R261, R262). -/
def faultSegment : OutEvent → Option Nat
  | .errFraming seg _ _ => some seg
  | .errEcc seg _ _ => some seg
  | _ => none

/-- The instruction is itself the report of a fault, on `FE` or `OUT`: the framer sends it, and a host
that presents it raises no fault (R102, R245, R246). -/
def presentsReport : Instr → Bool
  | .feFaultFraming _ _ _ _ => true
  | .feFaultEcc _ _ _ _ => true
  | .outErrFraming _ _ _ => true
  | .outErrEcc _ _ _ => true
  | _ => false

/-- At most one fault is reported for each segment (R265): the segments are numbered below `seg_no`
(R35), a segment that still hunts or is synchronised has no report, and no segment has two. -/
structure OneFaultInv (s : State) : Prop where
  numbered : s.frm.mode = .hunt ∨ s.frm.mode = .synced → 0 < s.frm.segNo
  earlier : ∀ e ∈ s.io.outs, ∀ g, faultSegment e = some g → g < s.frm.segNo
  current : s.frm.mode = .hunt ∨ s.frm.mode = .synced →
    ∀ e ∈ s.io.outs, faultSegment e ≠ some (s.frm.segNo - 1)
  once : ∀ g, (s.io.outs.filter fun e => faultSegment e == some g).length ≤ 1

/-- The operation of one received bit (R186, R187). -/
def bitInstr (b : Bool) : Instr := if b then .syOne else .syZero

/-- The symbol of one received bit (R93). -/
def bitSymbol (b : Bool) : SySymbol := if b then .one else .zero

/-- Instructions run one after another, as far as they go on (R75). -/
def runInstrs : List Instr → State → Out
  | [], s => .next s
  | i :: is, s =>
    match exec i s with
    | .next t => runInstrs is t
    | .fault r => .fault r
    | .refused r => .refused r

/-! ## Hypotheses the spec names on its parameters -/

/-- The number of set bits (spec 00 section 4). -/
def popcount (x : Codeword) : Nat := (List.range 15).countP x.getLsbD

/-- Hamming distance of two codes. -/
def distance (x y : Codeword) : Nat := popcount (x ^^^ y)

/-- Hypothesis H1 of R226: minimum distance at least 2. -/
def MinDistanceTwo (rom : Rom) : Prop :=
  ∀ d d' : DataWord, d ≠ d' → 2 ≤ distance (encodeData rom d) (encodeData rom d')

/-- Hypothesis H2 of R226: minimum distance at least 3. -/
def MinDistanceThree (rom : Rom) : Prop :=
  ∀ d d' : DataWord, d ≠ d' → 3 ≤ distance (encodeData rom d) (encodeData rom d')

/-- The hypothesis of R205 on the preamble: 25 zeros, then a one. -/
def PreambleLeads (p : PreambleWord) : Prop :=
  (∀ k < 25, p.getMsbD k = false) ∧ p.getMsbD 25 = true

/-! ## Safe runs -/

/-- No fault has been reported since reset: both sticky flags are clear (R39, R299). -/
def faultFree (s : State) : Bool := !s.sts.errFraming && !s.sts.errEcc

/-- The state an outcome goes on from, if it goes on. -/
def nextState? (o : Out) : Option State :=
  match o with
  | .next s => some s
  | .fault _ => none
  | .refused _ => none

end Sys2Proof.Machine
end

