-- ==== Sys2Proof/Certificates/Slice0/Obligations.lean ====
section
/-! DEFINITION. The statements for the provers. Each docstring names the rules of spec/ it formalises;
OBLIGATIONS.json holds their titles, bases and quotes. -/

open Sys2Proof Sys2Proof.Machine

/-! ## Reset, steps, decoding -/

/-- R290, spec 10 section 12: what reset leaves, element by element. That the configuration inputs, which
have no reset value of their own (R42), stand at the defaults of R7 is the model's choice (log entry 4). -/
def Obligations.ResetLeavesTheTable : Prop :=
  State.reset.det.n = 0 ∧ State.reset.det.dcbuf = [] ∧ State.reset.det.ebuf = [] ∧
  State.reset.det.prev = none ∧ State.reset.cls.last = none ∧ State.reset.rcv.expecting = false ∧
  State.reset.frm.mode = .idle ∧ State.reset.frm.window = [] ∧ State.reset.frm.zeroCount = 0 ∧
  State.reset.frm.leading = true ∧ State.reset.frm.zeroMetric = none ∧ State.reset.frm.rowbits = [] ∧
  State.reset.frm.rows = [] ∧ State.reset.frm.chunkIndex = 0 ∧ State.reset.frm.symPos = 0 ∧
  State.reset.frm.rowStart = 0 ∧ State.reset.frm.segNo = 0 ∧ State.reset.emt.recOpen = false ∧
  State.reset.emt.recNo = 0 ∧ State.reset.sts.errFraming = false ∧ State.reset.sts.errEcc = false ∧
  State.reset.sts.correctedCount = 0 ∧ State.reset.sts.done = false ∧
  State.reset.cfg.bitRate = 3000 ∧ State.reset.cfg.energyThreshold = 500 ∧
  State.reset.cfg.tolerance = 3 / 4 ∧ State.reset.cfg.dcWindowBits = 3 / 2

/-- R290, R296: a pulse of the reset line puts every sub-block at its reset value, in every state, and
what has been put out before it stands. That the model keeps it as an earlier run, the streams of the new
run starting empty, and that the host's queue stands is the model's choice (log entries 6 and 20). -/
def Obligations.ResetPulseClearsTheBlock : Prop :=
  ∀ (s : State) (rest : List HostInput), s.pending = .reset :: rest →
    ∃ t, step s = .next t ∧ t.det = State.reset.det ∧ t.cls = State.reset.cls ∧
      t.rcv = State.reset.rcv ∧ t.frm = State.reset.frm ∧ t.emt = State.reset.emt ∧
      t.sts = State.reset.sts ∧ t.io = {} ∧ t.past = s.past ++ [s.io] ∧ t.cfg = s.cfg ∧
      t.rom = s.rom ∧ t.pending = rest

/-- R3, R270, R292: a step runs the operation that the token presented encodes, and idles with nothing
presented. That inputs are presented in a queue is the model's choice (log entry 1); that a token which
encodes no operation is refused, with the decoder's reason, is the model's too (log entry 12): R103c says
only that reserved codes are never produced. -/
def Obligations.StepRunsTheDecodedToken : Prop :=
  ∀ s : State,
    (∀ (p : Packet) (rest : List HostInput) (i : Instr), s.pending = .token p :: rest →
      decode s.cfg p = .ok i → step s = exec i { s with pending := rest }) ∧
    (s.pending = [] → step s = .next s) ∧
    (∀ (p : Packet) (rest : List HostInput) (r : Reject), s.pending = .token p :: rest →
      decode s.cfg p = .error r → step s = .refused (.undecodable r))

/-- R90 to R101: a word of each channel's port and of each bit format, written out from the formats,
decodes to the operation it stands for. The order of the fields in the `CL`, `SY`, `OUT` and chunk words
is read from the opcode table (log entry 11). -/
def Obligations.FormatWordsDecode : Prop :=
  decode Config.atReset (.inPort 0x0FC18) = .ok (.inSample (-1000)) ∧
  decode Config.atReset (.inPort 0x10000) = .ok .inEos ∧
  decode Config.atReset (.tr 0b0#1 20 500) = .ok (.trTrans 20 500) ∧
  decode Config.atReset (.cl 0b00011#5 0) = .ok .clIvlLong ∧
  decode Config.atReset (.sy 0b0110#4 0) = .ok .syAnomLong ∧
  decode Config.atReset (.ecc ((0x3D8F19C3#32 ++ 0x27453B38#32) ++ 0#416)) =
    .ok (.eccDecode #v[0x3D8F19C3#32, 0x27453B38#32, 0, 0, 0, 0, 0, 0, 0, 0, 0, 0, 0, 0, 0]) ∧
  decode Config.atReset (.fe 0b010#3 { a := 0, b := 3, c := 254, z := some 15 }) =
    .ok (.feFaultFraming 0 3 254 (some 15)) ∧
  decode Config.atReset (.outPort 0x50000000000000003000000FE) = .ok (.outErrFraming 0 3 254) ∧
  decode Config.atReset (.outPort 0x1FFFFFFE70000000000000000) = .ok (.outZeroRun (-25)) ∧
  decode Config.atReset (.row 0x1D3D8F19C3#37) = .ok (.row 0b11101#5 0x3D8F19C3#32) ∧
  decode Config.atReset (.codeword 0b001010000000101#15) = .ok (.codeword 0b00101#5 5#10) ∧
  decode Config.atReset (.outword 0x0108#16) = .ok (.outword 264#10) ∧
  decode Config.atReset (.preamble 0x0000006A00000000000000000000000F#128) =
    .ok (.preamble 0x0000006A00000000000000000000000F#128)

/-- R90 to R101: every well-formed instruction of every channel and format is what its encoding
decodes to, at every pair of widths. -/
def Obligations.DecodeOfEncode : Prop :=
  ∀ (c : Config) (i : Instr), 0 < c.sampleWidth → 0 < c.counterWidth → i.wellFormed c = true →
    decode c (encode c i) = .ok i

/-- R92, R95, R103c: the reserved interval classes and `OUT` kinds stand for no instruction. That the
decoder rejects them, and that these are the words that hold them, is the model's (log entries 12 and
11). -/
def Obligations.ReservedCodesAreRejected : Prop :=
  (∀ (c : Config) (time : Rat) (w : BitVec 5), 5 ≤ w.toNat → w.toNat ≤ 7 →
    decode c (.cl w time) = .error .reservedClass) ∧
  (∀ (c : Config) (w : Nat), 8 * 2 ^ (3 * c.counterWidth) ≤ w → w < 16 * 2 ^ (3 * c.counterWidth) →
    decode c (.outPort w) = .error .reservedOutKind)

/-- R296 with U5, R247, R12 with U7: once `IN.EOS` or `OUT.END` has been processed every token is
refused; before that, every token is refused under a configuration outside R12. -/
def Obligations.TokensAreTurnedAwayByName : Prop :=
  ∀ (i : Instr) (s : State),
    (s.sts.done = true ∨ s.io.outs.getLast? = some .endRun → exec i s = .refused .tokenAfterEos) ∧
    (s.sts.done = false → s.io.outs.getLast? ≠ some .endRun →
      s.cfg.sampleRate < 1 ∨ s.cfg.bitRate < 1 ∨ s.cfg.energyThreshold < 0 ∨ s.cfg.tolerance < 0 ∨
        1 ≤ s.cfg.tolerance →
      exec i s = .refused .invalidConfig)

/-! ## Detector -/

/-- R10: the derived constants, in ordinary rational arithmetic, and the order of the band edges. (With
`τ = 0` the edges of `SHORT` coincide, and those of `LONG`.) -/
def Obligations.DerivedConstants : Prop :=
  ∀ c : Config, configValid c = true →
    spb c = (c.sampleRate : Rat) / c.bitRate ∧ 0 < spb c ∧
    (energyLen c : Int) = ⌈spb c * 10⌉ ∧ 1 ≤ energyLen c ∧
    (0 < c.dcWindowBits → (dcLen c : Int) = ⌈spb c * c.dcWindowBits⌉ ∧ 1 ≤ dcLen c ∧
      dcMid c + dcShift c + 1 = dcLen c ∧ (dcMid c : Int) = ⌊(dcLen c : Rat) / 2⌋) ∧
    edgeNarrowShort c = (2 - c.tolerance) * spb c / 4 ∧ edgeShortMid c = (2 + c.tolerance) * spb c / 4 ∧
    edgeMidLong c = (4 - c.tolerance) * spb c / 4 ∧ edgeLongWide c = (4 + c.tolerance) * spb c / 4 ∧
    0 < edgeNarrowShort c ∧ edgeNarrowShort c ≤ edgeShortMid c ∧ edgeShortMid c < edgeMidLong c ∧
    edgeMidLong c ≤ edgeLongWide c

/-- R134: the interpolated position, whose divisor is not zero, lies between the two samples. -/
def Obligations.InterpolationLiesBetweenSamples : Prop :=
  ∀ (i : Int) (p y : Rat), signChange p y = true →
    y - p ≠ 0 ∧ interpolate i p y = ((i : Rat) - 1) + |p| / |y - p| ∧
    (i : Rat) - 1 ≤ interpolate i p y ∧ interpolate i p y ≤ i

/-- R130, R132 to R136 with the DC window off: the sample joins the energy buffer and becomes `prev`;
nothing else happens, or the transition it makes runs. `hi` and `lo` are the greatest and the least
element of the new buffer. -/
def Obligations.SampleWithoutDcWindow : Prop :=
  ∀ (s : State) (x : Int) (buf : List Rat) (hi lo : Rat) (w : Nat),
    accepting s = true → ¬ 0 < s.cfg.dcWindowBits →
    (w : Int) = ⌈(s.cfg.sampleRate : Rat) / s.cfg.bitRate * 10⌉ →
    buf = (if w < s.det.ebuf.length + 1 then (s.det.ebuf ++ [(x : Rat)]).tail else s.det.ebuf ++ [(x : Rat)]) →
    hi ∈ buf → (∀ e ∈ buf, e ≤ hi) → lo ∈ buf → (∀ e ∈ buf, lo ≤ e) →
    let t := { s with det := { s.det with n := s.det.n + 1, ebuf := buf, prev := some (x : Rat) } }
    (s.det.prev = none → exec (.inSample x) s = .next t) ∧
    (∀ p, s.det.prev = some p →
      ((p < 0 ↔ (x : Rat) < 0) ∨ buf.length ≠ w → exec (.inSample x) s = .next t) ∧
      (¬ (p < 0 ↔ (x : Rat) < 0) → buf.length = w →
        exec (.inSample x) s =
          exec (.trTrans ((s.det.n : Rat) - 1 + |p| / |(x : Rat) - p|) (hi - lo)) t))

/-- R130 to R136 with the DC window on: until `D` samples are held there is no corrected sample; then
the element `MID` less the mean, at the index shifted back by `SHIFT`, takes the sample's place. -/
def Obligations.SampleWithDcWindow : Prop :=
  ∀ (s : State) (x : Int) (raw : List Int) (d : Nat),
    accepting s = true → 0 < s.cfg.dcWindowBits →
    (d : Int) = ⌈(s.cfg.sampleRate : Rat) / s.cfg.bitRate * s.cfg.dcWindowBits⌉ →
    raw = (if d < s.det.dcbuf.length + 1 then (s.det.dcbuf ++ [x]).tail else s.det.dcbuf ++ [x]) →
    (raw.length < d →
      exec (.inSample x) s = .next { s with det := { s.det with n := s.det.n + 1, dcbuf := raw } }) ∧
    (d ≤ raw.length →
      ∀ (m : Int) (y : Rat) (buf : List Rat) (hi lo : Rat) (w : Nat),
        raw[d / 2]? = some m → y = (m : Rat) - (raw.sum : Rat) / d →
        (w : Int) = ⌈(s.cfg.sampleRate : Rat) / s.cfg.bitRate * 10⌉ →
        buf = (if w < s.det.ebuf.length + 1 then (s.det.ebuf ++ [y]).tail else s.det.ebuf ++ [y]) →
        hi ∈ buf → (∀ e ∈ buf, e ≤ hi) → lo ∈ buf → (∀ e ∈ buf, lo ≤ e) →
        let t := { s with det := ⟨s.det.n + 1, raw, buf, some y⟩ }
        (s.det.prev = none → exec (.inSample x) s = .next t) ∧
        (∀ p, s.det.prev = some p →
          ((p < 0 ↔ y < 0) ∨ buf.length ≠ w → exec (.inSample x) s = .next t) ∧
          (¬ (p < 0 ↔ y < 0) → buf.length = w →
            exec (.inSample x) s =
              exec (.trTrans ((s.det.n : Rat) - ((d : Rat) - (d / 2 : Nat) - 1) - 1 + |p| / |y - p|)
                (hi - lo)) t)))

/-- R130, R136, R202: in every state that satisfies the invariants of R45 and takes a token, every
sample is taken to a next state; the counter advances by one, the constants and inputs stand. -/
def Obligations.EverySampleCompletes : Prop :=
  ∀ (s : State) (x : Int), BlockInv s → accepting s = true →
    ∃ t, exec (.inSample x) s = .next t ∧ t.det.n = s.det.n + 1 ∧ t.sts.done = false ∧
      t.cfg = s.cfg ∧ t.rom = s.rom ∧ t.pending = s.pending

/-- R137, R154, R172, R197, R247, R299: `IN.EOS` completes in every state that takes a token; it closes
the open segment and record, reports a pending zero-run, emits `OUT.END` last and sets `done`; the
detector keeps its state and no byte of a record changes. -/
def Obligations.EndOfInputFlushesThePipeline : Prop :=
  ∀ s : State, accepting s = true →
    ∃ t, exec .inEos s = .next t ∧ t.sts = { s.sts with done := true } ∧ t.det = s.det ∧
      t.cls.last = none ∧ t.rcv.expecting = false ∧ t.frm.mode = .idle ∧
      t.frm.segNo = s.frm.segNo ∧ t.frm.chunkIndex = s.frm.chunkIndex ∧
      t.frm.zeroMetric = s.frm.zeroMetric ∧ t.frm.zeroCount = s.frm.zeroCount ∧
      t.io.syTap = s.io.syTap ++ [.eos] ∧
      (s.frm.mode = .idle ∨ s.frm.mode = .abort →
        t.io.outs = s.io.outs ++ [.endRun] ∧ t.emt = s.emt) ∧
      (s.frm.mode = .hunt ∨ s.frm.mode = .synced →
        t.emt = { s.emt with recOpen := false } ∧
        (s.emt.recOpen = true → t.io.outs = s.io.outs ++ [.recClose, .endRun]) ∧
        (s.emt.recOpen = false → ∀ z, zeroReport s.frm = some z →
          t.io.outs = s.io.outs ++ [.zeroRun z, .endRun]) ∧
        (s.emt.recOpen = false → zeroReport s.frm = none → t.io.outs = s.io.outs ++ [.endRun])) ∧
      (∀ k a, readByte t k a = readByte s k a) ∧ t.cfg = s.cfg ∧ t.rom = s.rom ∧ t.pending = s.pending ∧
      t.eccReply = s.eccReply

/-! ## Classifier -/

/-- R151: the five bands, each as its condition, under every valid configuration. -/
def Obligations.ClassBands : Prop :=
  ∀ (c : Config) (delta : Rat), configValid c = true →
    (classify c delta = .wide ↔ (4 + c.tolerance) * spb c / 4 < delta) ∧
    (classify c delta = .long ↔
      (4 - c.tolerance) * spb c / 4 ≤ delta ∧ delta ≤ (4 + c.tolerance) * spb c / 4) ∧
    (classify c delta = .mid ↔
      (2 + c.tolerance) * spb c / 4 < delta ∧ delta < (4 - c.tolerance) * spb c / 4) ∧
    (classify c delta = .short ↔
      (2 - c.tolerance) * spb c / 4 ≤ delta ∧ delta ≤ (2 + c.tolerance) * spb c / 4) ∧
    (classify c delta = .narrow ↔ delta < (2 - c.tolerance) * spb c / 4)

/-- R150, R153, R155, R156: what a transition event becomes on the `CL` channel, in every state that
takes a token. -/
def Obligations.TransitionEvents : Prop :=
  ∀ (s : State) (ifrac energy : Rat), accepting s = true →
    (s.cfg.energyThreshold ≤ energy →
      let t := { s with cls := { last := some ifrac } }
      (s.cls.last = none → exec (.trTrans ifrac energy) s = exec (.clSegOpen (ifrac / s.cfg.sampleRate)) t) ∧
      (∀ l, s.cls.last = some l →
        (classify s.cfg (ifrac - l) = .narrow → exec (.trTrans ifrac energy) s = exec .clIvlNarrow t) ∧
        (classify s.cfg (ifrac - l) = .short → exec (.trTrans ifrac energy) s = exec .clIvlShort t) ∧
        (classify s.cfg (ifrac - l) = .mid → exec (.trTrans ifrac energy) s = exec .clIvlMid t) ∧
        (classify s.cfg (ifrac - l) = .long → exec (.trTrans ifrac energy) s = exec .clIvlLong t) ∧
        (classify s.cfg (ifrac - l) = .wide → exec (.trTrans ifrac energy) s = exec .clIvlWide t))) ∧
    (energy < s.cfg.energyThreshold →
      (s.cls.last = none → exec (.trTrans ifrac energy) s = .next s) ∧
      (s.cls.last ≠ none → exec (.trTrans ifrac energy) s = exec .clDropout { s with cls := { last := none } }))

/-- R150, R155, R165, R185: the first loud event with no segment open completes: it anchors a segment,
shows its start on the tap, and leaves everything else as it was. -/
def Obligations.AnchorOpensASegment : Prop :=
  ∀ (s : State) (ifrac energy : Rat), accepting s = true → s.cfg.energyThreshold ≤ energy →
    s.cls.last = none → s.frm.mode = .idle →
    exec (.trTrans ifrac energy) s = .next
      { s with
        cls := { last := some ifrac }
        rcv := { expecting := false }
        frm := { mode := .hunt, window := [], zeroCount := 0, leading := true, zeroMetric := none,
                 rowbits := [], rows := [], chunkIndex := 0, symPos := 0, rowStart := 0,
                 segNo := s.frm.segNo + 1 }
        io := { s.io with syTap := s.io.syTap ++ [.segstart (ifrac / s.cfg.sampleRate)] } }

/-! ## Recoverer -/

/-- R165 to R173: the recoverer's table, each cell as the symbol's operation on the new flag. The cell of
`CL.SEG_OPEN` with the flag set, which R173 calls not reachable, is R165's own text applied there (log
entry 23). -/
def Obligations.RecovererTable : Prop :=
  ∀ s : State, accepting s = true →
    let off := { s with rcv := { expecting := false } }
    let on := { s with rcv := { expecting := true } }
    (s.rcv.expecting = false →
      exec .clIvlLong s = exec .syZero off ∧ exec .clIvlShort s = .next on) ∧
    (s.rcv.expecting = true →
      exec .clIvlLong s = exec .syAnomLong off ∧ exec .clIvlShort s = exec .syOne off) ∧
    (∀ time, exec (.clSegOpen time) s = exec (.sySegstart time) off) ∧
    exec .clIvlWide s = exec .syAnomWide off ∧ exec .clIvlMid s = exec .syAnomMid off ∧
    exec .clIvlNarrow s = exec .syAnomNarrow off ∧ exec .clDropout s = exec .syGap off ∧
    exec .clEos s = exec .syEos off

/-- R166 to R171, R174: with a segment open every interval and the dropout complete; each shows at most
one symbol, leaves the flag as R173 says, and leaves the detector and the classifier alone. -/
def Obligations.IntervalsComplete : Prop :=
  ∀ s : State, accepting s = true → s.frm.mode ≠ .idle →
    (s.frm.mode = .synced → s.frm.zeroMetric ≠ none) →
    (∀ i ∈ [Instr.clIvlLong, .clIvlShort, .clIvlWide, .clIvlMid, .clIvlNarrow, .clDropout],
      ∃ t, exec i s = .next t ∧ t.det = s.det ∧ t.cls = s.cls ∧
        t.rcv.expecting = (decide (i = .clIvlShort) && !s.rcv.expecting) ∧
        (i = .clIvlShort → s.rcv.expecting = false → t.io = s.io) ∧
        (∃ ys, t.io.syTap = s.io.syTap ++ ys ∧ ys.length ≤ 1) ∧
        t.cfg = s.cfg ∧ t.rom = s.rom ∧ t.pending = s.pending ∧ t.sts.done = s.sts.done)

/-- R154, R165, R172, R185: opening a segment completes in mode `IDLE`; the end of the intervals and the
end of the transitions, which closes the classifier's segment, complete always. -/
def Obligations.SegmentOpenAndEndsComplete : Prop :=
  ∀ s : State, accepting s = true →
    (s.frm.mode = .idle → ∀ time, exec (.clSegOpen time) s = .next
      { s with
        rcv := { expecting := false }
        frm := { mode := .hunt, segNo := s.frm.segNo + 1 }
        io := { s.io with syTap := s.io.syTap ++ [.segstart time] } }) ∧
    (∃ t, exec .clEos s = .next t ∧ t.rcv.expecting = false ∧ t.frm.mode = .idle ∧ t.det = s.det ∧
      t.cls = s.cls ∧ t.sts = s.sts ∧ t.io.syTap = s.io.syTap ++ [.eos] ∧
      t.io.outs.getLast? = some .endRun ∧ ∀ k a, readByte t k a = readByte s k a) ∧
    exec .trEos s = exec .clEos { s with cls := { last := none } } ∧
    ∃ t, exec .trEos s = .next t ∧ t.cls.last = none ∧ t.rcv.expecting = false ∧ t.frm.mode = .idle ∧
      t.det = s.det ∧ t.sts = s.sts ∧ t.io.syTap = s.io.syTap ++ [.eos] ∧
      t.io.outs.getLast? = some .endRun ∧ ∀ k a, readByte t k a = readByte s k a

/-! ## Framer -/

/-- R185: the start of a segment re-initialises the framer, in mode `IDLE`, and touches nothing else. -/
def Obligations.SegmentStartInitialisesFramer : Prop :=
  ∀ (s : State) (time : Rat), accepting s = true → s.frm.mode = .idle →
    exec (.sySegstart time) s = .next
      { s with
        frm := { mode := .hunt, window := [], zeroCount := 0, leading := true, zeroMetric := none,
                 rowbits := [], rows := [], chunkIndex := 0, symPos := 0, rowStart := 0,
                 segNo := s.frm.segNo + 1 }
        io := { s.io with syTap := s.io.syTap ++ [.segstart time] } }

/-- R186 to R188: a bit in mode `HUNT`: the leading count, the rolling window, and the recognition of
the preamble exactly when the last 128 bits equal it. -/
def Obligations.HuntedBit : Prop :=
  ∀ (s : State) (b : Bool), accepting s = true → s.frm.mode = .hunt →
    let count := if s.frm.leading = true ∧ b = false then s.frm.zeroCount + 1 else s.frm.zeroCount
    let window := if 128 < s.frm.window.length + 1 then (s.frm.window ++ [b]).tail else s.frm.window ++ [b]
    let counted := { s.frm with
      symPos := s.frm.symPos + 1, zeroCount := count, leading := s.frm.leading && !b, window := window }
    let shown := { s with io := { s.io with syTap := s.io.syTap ++ [bitSymbol b] } }
    let recognised := window.length = 128 ∧ ∀ k < 128, window[k]? = some (s.rom.preamble.getMsbD k)
    (recognised → exec (bitInstr b) s = .next { shown with
      frm := { counted with
        mode := .synced, zeroMetric := some ((count : Int) - 25), rowbits := [], rows := [], window := [] } }) ∧
    (¬ recognised → exec (bitInstr b) s = .next { shown with frm := counted })

/-- R186, R187, R189: a bit in mode `SYNCED` that does not complete a row joins it. -/
def Obligations.RowBitIsCollected : Prop :=
  ∀ (s : State) (b : Bool), accepting s = true → s.frm.mode = .synced → s.frm.rowbits.length < 36 →
    exec (bitInstr b) s = .next
      { s with
        frm := { s.frm with
          symPos := s.frm.symPos + 1
          rowStart := if s.frm.rowbits = [] then s.frm.symPos else s.frm.rowStart
          rowbits := s.frm.rowbits ++ [b] }
        io := { s.io with syTap := s.io.syTap ++ [bitSymbol b] } }

/-- R97, R190: the 37th bit of a row whose first five bits are 1, 1, 1, 0, 1, not the fifteenth row:
its other 32 bits, the first the most significant, join the chunk. -/
def Obligations.GoodRowJoinsTheChunk : Prop :=
  ∀ (s : State) (b : Bool), accepting s = true → s.frm.mode = .synced → s.frm.rowbits.length = 36 →
    s.frm.rows.length < 14 → (s.frm.rowbits ++ [b]).take 5 = [true, true, true, false, true] →
    ∃ payload : Payload,
      (∀ k < 32, some (payload.getLsbD (31 - k)) = (s.frm.rowbits ++ [b])[5 + k]?) ∧
      exec (bitInstr b) s = .next
        { s with
          frm := { s.frm with
            symPos := s.frm.symPos + 1, rowbits := [], rows := s.frm.rows ++ [payload] }
          io := { s.io with syTap := s.io.syTap ++ [bitSymbol b] } }

/-- R190, R261, R266, R245: the 37th bit of a row whose first five bits are anything else raises the
framing fault: what it records, what it reports, what it leaves alone. -/
def Obligations.BadRowRaisesFramingFault : Prop :=
  ∀ (s : State) (b : Bool) (m : Int), accepting s = true → s.frm.mode = .synced →
    s.frm.rowbits.length = 36 → s.frm.zeroMetric = some m →
    (s.frm.rowbits ++ [b]).take 5 ≠ [true, true, true, false, true] →
    ∃ t, exec (bitInstr b) s = .next t ∧
      t.frm = { s.frm with
        symPos := s.frm.symPos + 1, mode := .abort, rowbits := [], rows := [], window := [] } ∧
      t.sts = { s.sts with errFraming := true } ∧ t.emt = { s.emt with recOpen := false } ∧
      t.io.outs = s.io.outs ++
        [.errFraming (s.frm.segNo - 1) (15 * s.frm.chunkIndex + s.frm.rows.length) s.frm.rowStart,
          if s.emt.recOpen = true then .recClose else .zeroRun m] ∧
      t.io.syTap = s.io.syTap ++ [bitSymbol b] ∧
      t.io.records.length = s.io.records.length ∧ (∀ k a, readByte t k a = readByte s k a) ∧
      t.det = s.det ∧ t.cls = s.cls ∧ t.rcv = s.rcv ∧ t.cfg = s.cfg ∧ t.rom = s.rom ∧
      t.pending = s.pending ∧ t.eccReply = s.eccReply

/-- R191: the 37th bit of a good fifteenth row, when the chunk decodes: the chunk is handed to the
emitter with the index and the metric of the segment, and the index advances. -/
def Obligations.GoodChunkIsEmitted : Prop :=
  ∀ (s : State) (b : Bool) (p : Chunk) (payload : Payload) (words : Words) (corr : Marks) (m : Int),
    accepting s = true → s.frm.mode = .synced → s.frm.rowbits.length = 36 → s.frm.rows.length = 14 →
    (s.frm.rowbits ++ [b]).take 5 = [true, true, true, false, true] →
    (∀ k < 32, some (payload.getLsbD (31 - k)) = (s.frm.rowbits ++ [b])[5 + k]?) →
    p.toList = s.frm.rows ++ [payload] → s.frm.zeroMetric = some m →
    eccResult s.rom p = .ok words corr →
    let handed := { s with
      frm := { s.frm with symPos := s.frm.symPos + 1, rowbits := [], rows := [] }
      io := { s.io with syTap := s.io.syTap ++ [bitSymbol b] }
      eccReply := some (.result (.ok words corr)) }
    ∃ u, exec (.feChunkOk s.frm.chunkIndex words corr m) handed = .next u ∧
      exec (bitInstr b) s =
        .next { u with frm := { handed.frm with chunkIndex := s.frm.chunkIndex + 1 } }

/-- R191, R262, R266, R246: the 37th bit of a good fifteenth row, when a column is unrecoverable, raises
the ECC fault: nothing of the chunk is written, and the least bad column is reported. -/
def Obligations.BadChunkRaisesEccFault : Prop :=
  ∀ (s : State) (b : Bool) (p : Chunk) (payload : Payload) (m : Int) (col : Fin 32),
    accepting s = true → s.frm.mode = .synced → s.frm.rowbits.length = 36 → s.frm.rows.length = 14 →
    (s.frm.rowbits ++ [b]).take 5 = [true, true, true, false, true] →
    (∀ k < 32, some (payload.getLsbD (31 - k)) = (s.frm.rowbits ++ [b])[5 + k]?) →
    p.toList = s.frm.rows ++ [payload] → s.frm.zeroMetric = some m →
    eccEntry s.rom (codewordOf p col) = .unrecoverable →
    (∀ j < col, eccEntry s.rom (codewordOf p j) ≠ .unrecoverable) →
    ∃ t, exec (bitInstr b) s = .next t ∧
      t.frm = { s.frm with
        symPos := s.frm.symPos + 1, mode := .abort, rowbits := [], rows := [], window := [] } ∧
      t.sts = { s.sts with errEcc := true } ∧ t.emt = { s.emt with recOpen := false } ∧
      t.io.outs = s.io.outs ++
        [.errEcc (s.frm.segNo - 1) s.frm.chunkIndex col,
          if s.emt.recOpen = true then .recClose else .zeroRun m] ∧
      t.io.records.length = s.io.records.length ∧ (∀ k a, readByte t k a = readByte s k a) ∧
      t.det = s.det ∧ t.cls = s.cls ∧ t.rcv = s.rcv ∧ t.cfg = s.cfg ∧ t.rom = s.rom ∧
      t.pending = s.pending

/-- R192 to R195, R203: an anomaly empties the window, and in `HUNT` ends the leading run, in `SYNCED`
discards the partial row only; it is counted, and nothing else changes. -/
def Obligations.AnomalyDiscardsThePartialRow : Prop :=
  ∀ (s : State), accepting s = true →
    ∀ q ∈ [(Instr.syAnomNarrow, AnomalyKind.narrow), (.syAnomMid, .mid), (.syAnomLong, .long),
        (.syAnomWide, .wide)],
      let shown := { s with io := { s.io with syTap := s.io.syTap ++ [SySymbol.anomaly q.2] } }
      (s.frm.mode = .hunt → exec q.1 s = .next { shown with
        frm := { s.frm with symPos := s.frm.symPos + 1, window := [], leading := false } }) ∧
      (s.frm.mode = .synced → exec q.1 s = .next { shown with
        frm := { s.frm with symPos := s.frm.symPos + 1, rowbits := [], window := [] } })

/-- R196, R198, R244: a gap ends the segment: the partial chunk is discarded, the record closed or the
zero report made, and the framer idles. -/
def Obligations.GapEndsTheSegment : Prop :=
  ∀ s : State, accepting s = true → s.frm.mode = .hunt ∨ s.frm.mode = .synced →
    ∃ t, exec .syGap s = .next t ∧
      t.frm = { s.frm with mode := .idle, rowbits := [], rows := [], window := [] } ∧
      t.emt = { s.emt with recOpen := false } ∧ t.io.syTap = s.io.syTap ++ [.gap] ∧
      (s.emt.recOpen = true → t.io.outs = s.io.outs ++ [.recClose]) ∧
      (s.emt.recOpen = false → ∀ m, s.frm.zeroMetric = some m → t.io.outs = s.io.outs ++ [.zeroRun m]) ∧
      (s.emt.recOpen = false → s.frm.zeroMetric = none → 0 < s.frm.zeroCount →
        t.io.outs = s.io.outs ++ [.zeroRun s.frm.zeroCount]) ∧
      (s.emt.recOpen = false → s.frm.zeroMetric = none → s.frm.zeroCount = 0 → t.io.outs = s.io.outs) ∧
      (∀ k a, readByte t k a = readByte s k a) ∧ t.det = s.det ∧ t.cls = s.cls ∧ t.rcv = s.rcv ∧
      t.sts = s.sts ∧ t.cfg = s.cfg ∧ t.rom = s.rom ∧ t.pending = s.pending ∧ t.eccReply = s.eccReply

/-- R197, R198: `SY.EOS` ends an open segment as a gap does, without one, and in every mode passes
`FE.EOS` on. -/
def Obligations.SymbolEndPassesOn : Prop :=
  ∀ s : State, accepting s = true →
    let shown := { s with io := { s.io with syTap := s.io.syTap ++ [.eos] } }
    (s.frm.mode = .idle → exec .syEos s = exec .feEos shown) ∧
    (s.frm.mode = .abort → exec .syEos s = exec .feEos { shown with frm := { s.frm with mode := .idle } }) ∧
    (s.frm.mode = .hunt ∨ s.frm.mode = .synced →
      ∃ u, exec (.feSegEnd (zeroReport s.frm))
          { shown with frm := { s.frm with rowbits := [], rows := [], window := [] } } = .next u ∧
        exec .syEos s = exec .feEos { u with frm := { u.frm with mode := .idle } }) ∧
    ∃ t, exec .syEos s = .next t ∧ t.frm.mode = .idle ∧ t.io.outs.getLast? = some .endRun

/-- R199, R196: in mode `ABORT` the bits and the anomalies are shown and ignored, not counted, and a gap
returns the framer to `IDLE` and does nothing else. -/
def Obligations.AbortIgnoresSymbols : Prop :=
  ∀ s : State, accepting s = true → s.frm.mode = .abort →
    (∀ q ∈ [(Instr.syZero, SySymbol.zero), (.syOne, .one), (.syAnomNarrow, .anomaly .narrow),
        (.syAnomMid, .anomaly .mid), (.syAnomLong, .anomaly .long), (.syAnomWide, .anomaly .wide)],
      exec q.1 s = .next { s with io := { s.io with syTap := s.io.syTap ++ [q.2] } }) ∧
    exec .syGap s = .next { s with
      frm := { s.frm with mode := .idle }
      io := { s.io with syTap := s.io.syTap ++ [.gap] } }

/-- R202 with U6: the symbol sequences that the upstream stages cannot produce are refused by name. -/
def Obligations.ImpossibleSymbolsAreRefused : Prop :=
  ∀ s : State, accepting s = true →
    (s.frm.mode = .idle →
      ∀ i ∈ [Instr.syZero, .syOne, .syAnomNarrow, .syAnomMid, .syAnomLong, .syAnomWide, .syGap],
        exec i s = .refused .symbolOutsideSegment) ∧
    (s.frm.mode ≠ .idle → ∀ time, exec (.sySegstart time) s = .refused .segstartInsideSegment)

/-! ## ECC decoder -/

/-- R216: the ten data bits of a valid codeword are its value, so `Enc` is injective; the five above
them are the syndrome of R215. -/
def Obligations.EncodingKeepsTheData : Prop :=
  ∀ (rom : Rom) (d : DataWord),
    (encodeData rom d).extractLsb' 0 10 = d ∧
    (∃ hi lo : Syndrome, rom.highSyndrome[(d.extractLsb' 5 5).toNat]? = some hi ∧
      rom.lowSyndrome[(d.extractLsb' 0 5).toNat]? = some lo ∧
      (encodeData rom d).extractLsb' 10 5 = hi ^^^ lo) ∧
    ∀ d', encodeData rom d = encodeData rom d' → d = d'

/-- R217, R218: the table the block reads is the table its three passes build, and its entries are
those of the closed form, for every pair of syndrome tables. -/
def Obligations.EccTableIsAsBuilt : Prop :=
  ∀ (rom : Rom) (x : Codeword),
    eccEntry rom x = buildTable rom x ∧
    (∀ d, distance (encodeData rom d) x = 1 → (∀ d', distance (encodeData rom d') x = 1 → d' ≤ d) →
      buildTable rom x = .corrected (encodeData rom d)) ∧
    ((∀ d, distance (encodeData rom d) x ≠ 1) → (∃ d, x = encodeData rom d) → buildTable rom x = .valid) ∧
    ((∀ d, distance (encodeData rom d) x ≠ 1) → (∀ d, x ≠ encodeData rom d) →
      buildTable rom x = .unrecoverable)

/-- R224 (b), (c), (d): what holds of the table for every pair of syndrome tables. -/
def Obligations.EccTableProperties : Prop :=
  ∀ rom : Rom,
    (∀ (d : DataWord) (b : Nat), b < 15 → ∃ d', distance (encodeData rom d') (encodeData rom d ^^^ oneBit b) = 1 ∧
      eccEntry rom (encodeData rom d ^^^ oneBit b) = .corrected (encodeData rom d')) ∧
    (∀ x c, eccEntry rom x = .corrected c → ∃ d, c = encodeData rom d ∧ distance c x = 1) ∧
    (∀ x, eccEntry rom x = .unrecoverable ↔ ∀ d, 2 ≤ distance (encodeData rom d) x)

/-- R219, R221, R222, R98: a call of the decoder completes and returns either the least unrecoverable
column or the 32 words and marks; only the reply changes. -/
def Obligations.DecoderReplies : Prop :=
  ∀ (s : State) (p : Chunk), accepting s = true →
    (∀ (j : Fin 32) (r : Fin 15), (codewordOf p j).getLsbD (14 - r) = p[r].getLsbD (31 - j)) ∧
    ∃ res, exec (.eccDecode p) s = .next { s with eccReply := some (.result res) } ∧
      (∀ col, (res = .fail col ↔ eccEntry s.rom (codewordOf p col) = .unrecoverable ∧
        ∀ j < col, eccEntry s.rom (codewordOf p j) ≠ .unrecoverable)) ∧
      (∀ words corr, res = .ok words corr → ∀ j : Fin 32,
        (eccEntry s.rom (codewordOf p j) = .valid ∧ words[j] = (codewordOf p j).extractLsb' 0 10 ∧
          corr[j] = false) ∨
        (∃ c, eccEntry s.rom (codewordOf p j) = .corrected c ∧ words[j] = c.extractLsb' 0 10 ∧
          corr[j] = true))

/-- R225: under hypothesis H1 a chunk of valid codewords decodes to their data words, no column
corrected. -/
def Obligations.RoundTripWithoutErrors : Prop :=
  ∀ (rom : Rom) (p : Chunk) (w : Words), MinDistanceTwo rom →
    (∀ j : Fin 32, codewordOf p j = encodeData rom w[j]) →
    eccResult rom p = .ok w (Vector.replicate 32 false)

/-- R226: under hypothesis H2 one flipped bit in one column is corrected, and only that column is
marked. -/
def Obligations.SingleBitErrorIsCorrected : Prop :=
  ∀ (rom : Rom) (p : Chunk) (w : Words) (col : Fin 32) (b : Nat), MinDistanceThree rom → b < 15 →
    (∀ j : Fin 32, j ≠ col → codewordOf p j = encodeData rom w[j]) →
    codewordOf p col = encodeData rom w[col] ^^^ oneBit b →
    ∃ corr : Marks, eccResult rom p = .ok w corr ∧ ∀ j : Fin 32, corr[j] = decide (j = col)

/-! ## Emitter -/

/-- R240, R241, R243, R242: a decoded chunk completes in every state that takes a token; its events come
in the order of R240, the record is opened when none is, the corrections are counted. -/
def Obligations.ChunkEventsInOrder : Prop :=
  ∀ (s : State) (chunk : Nat) (words : Words) (corr : Marks) (metric : Int), accepting s = true →
    ∃ (t : State) (reports : List OutEvent) (bytes : List OutEvent),
      exec (.feChunkOk chunk words corr metric) s = .next t ∧
      t.io.outs = s.io.outs ++
        (if s.emt.recOpen = true then [] else [.recOpen s.emt.recNo, .zeroRun metric]) ++ reports ++ bytes ∧
      (∃ cols : List (Fin 32), cols.Pairwise (· < ·) ∧ (∀ j, j ∈ cols ↔ corr[j] = true) ∧
        reports = cols.map (OutEvent.corrected chunk)) ∧
      bytes.length = 64 ∧
      (∀ j : Fin 32, bytes[2 * j.val]? = some (.byte (BitVec.ofNat 8 (words[j].toNat / 256))) ∧
        bytes[2 * j.val + 1]? = some (.byte (BitVec.ofNat 8 (words[j].toNat % 256)))) ∧
      t.emt.recOpen = true ∧
      t.emt.recNo = (if s.emt.recOpen = true then s.emt.recNo else s.emt.recNo + 1) ∧
      t.sts = { s.sts with correctedCount := s.sts.correctedCount + reports.length } ∧
      t.frm = s.frm ∧ t.det = s.det ∧ t.cls = s.cls ∧ t.rcv = s.rcv ∧ t.cfg = s.cfg ∧ t.rom = s.rom ∧
      t.pending = s.pending ∧ t.eccReply = s.eccReply ∧ t.io.syTap = s.io.syTap

/-- R66, R242: the 64 bytes of a chunk stand at the next 64 addresses of the open record, high byte of
each word first; every other byte of every record is as it was. -/
def Obligations.ChunkBytesStandInTheRecord : Prop :=
  ∀ (s t : State) (chunk : Nat) (words : Words) (corr : Marks) (metric : Int) (k len : Nat),
    EmitterInv s →
    (if s.emt.recOpen = true then k + 1 = s.io.records.length ∧ ∃ r, s.io.records[k]? = some r ∧ r.bytes.length = len
      else k = s.io.records.length ∧ len = 0) →
    exec (.feChunkOk chunk words corr metric) s = .next t →
    (∀ j : Fin 32,
      readByte t k (len + 2 * j.val) = some (BitVec.ofNat 8 (words[j].toNat / 256)) ∧
      readByte t k (len + 2 * j.val + 1) = some (BitVec.ofNat 8 (words[j].toNat % 256))) ∧
    (∀ k' a, ¬ (k' = k ∧ len ≤ a ∧ a < len + 64) → readByte t k' a = readByte s k' a)

/-- R244: the end of a segment closes the open record, or reports `z`, or does nothing. -/
def Obligations.SegmentEndReports : Prop :=
  ∀ (s : State) (z : Option Int), accepting s = true →
    ∃ t, exec (.feSegEnd z) s = .next t ∧ t.emt = { s.emt with recOpen := false } ∧
      (s.emt.recOpen = true → t.io.outs = s.io.outs ++ [.recClose] ∧ t.io.manifest = s.io.manifest) ∧
      (s.emt.recOpen = false → ∀ n, z = some n →
        t.io.outs = s.io.outs ++ [.zeroRun n] ∧ t.io.manifest = s.io.manifest ++ [.zero n]) ∧
      (s.emt.recOpen = false → z = none → t = s) ∧
      (∀ k a, readByte t k a = readByte s k a) ∧ t.io.syTap = s.io.syTap ∧
      t.frm = s.frm ∧ t.sts = s.sts ∧ t.det = s.det ∧ t.cls = s.cls ∧ t.rcv = s.rcv ∧ t.cfg = s.cfg ∧
      t.rom = s.rom ∧ t.pending = s.pending ∧ t.eccReply = s.eccReply

/-- R245, R246: the report of the fault joins the `OUT` stream, then exactly what `FE.SEG_END(z)` does. -/
def Obligations.FaultReportsThenSegmentEnd : Prop :=
  ∀ (s : State) (z : Option Int), accepting s = true →
    (∀ seg row off : Nat,
      exec (.feFaultFraming seg row off z) s = exec (.feSegEnd z) { s with io := { s.io with
        outs := s.io.outs ++ [.errFraming seg row off] } } ∧
      ∃ t, exec (.feFaultFraming seg row off z) s = .next t ∧ t.emt.recOpen = false ∧ t.sts = s.sts) ∧
    (∀ (seg chunk : Nat) (col : Fin 32),
      exec (.feFaultEcc seg chunk col z) s = exec (.feSegEnd z) { s with io := { s.io with
        outs := s.io.outs ++ [.errEcc seg chunk col] } } ∧
      ∃ t, exec (.feFaultEcc seg chunk col z) s = .next t ∧ t.emt.recOpen = false ∧ t.sts = s.sts)

/-- R247: `FE.EOS` emits `OUT.END` and changes nothing else; after it nothing runs until reset. -/
def Obligations.EndOfRunIsLast : Prop :=
  ∀ s : State, accepting s = true →
    ∃ t, exec .feEos s = .next t ∧ t = { s with io := { s.io with outs := s.io.outs ++ [.endRun] } } ∧
      ∀ i, exec i t = .refused .tokenAfterEos

/-! ## The OUT channel and the data formats -/

/-- R66, R95, R105, R248 (log entry 14): presented on their own, the `OUT` events that write no byte
join the stream, and `ZERO_RUN` its manifest line; a record is created empty, as the next element when it
has the next number, else as a free element past the last (log entry 27); a byte goes to the end of the
open record and nowhere else, closing freezes it. Without an open record these two are refused by name, and
so is an output word (log entry 13), whose bytes would go there. -/
def Obligations.OutEventsWriteTheStreamAndTheSpaces : Prop :=
  ∀ s : State, accepting s = true →
    (∀ n, exec (.outZeroRun n) s = .next { s with io := { s.io with
      outs := s.io.outs ++ [.zeroRun n], manifest := s.io.manifest ++ [.zero n] } }) ∧
    (∀ chunk col, exec (.outCorrected chunk col) s = .next { s with io := { s.io with
      outs := s.io.outs ++ [.corrected chunk col] } }) ∧
    (∀ seg row off, exec (.outErrFraming seg row off) s = .next { s with io := { s.io with
      outs := s.io.outs ++ [.errFraming seg row off] } }) ∧
    (∀ seg chunk col, exec (.outErrEcc seg chunk col) s = .next { s with io := { s.io with
      outs := s.io.outs ++ [.errEcc seg chunk col] } }) ∧
    exec .outEnd s = .next { s with io := { s.io with outs := s.io.outs ++ [.endRun] } } ∧
    (∀ k, k = s.io.records.length → exec (.outRecOpen k) s = .next { s with io := { s.io with
      outs := s.io.outs ++ [.recOpen k], records := s.io.records ++ [⟨[], false⟩],
      manifest := s.io.manifest ++ [.file k] } }) ∧
    (∀ k, k ≠ s.io.records.length → ∃ gap, exec (.outRecOpen k) s = .next { s with io := { s.io with
      outs := s.io.outs ++ [.recOpen k]
      records := s.io.records ++ List.replicate gap ⟨[], true⟩ ++ [⟨[], false⟩]
      manifest := s.io.manifest ++ [.file k] } }) ∧
    (∀ (older : List Record) (bytes : List Byte), s.io.records = older ++ [⟨bytes, false⟩] →
      (∀ b, exec (.outByte b) s = .next { s with io := { s.io with
        outs := s.io.outs ++ [.byte b], records := older ++ [⟨bytes ++ [b], false⟩] } }) ∧
      exec .outRecClose s = .next { s with io := { s.io with
        outs := s.io.outs ++ [.recClose], records := older ++ [⟨bytes, true⟩] } }) ∧
    ((s.io.records = [] ∨ ∃ older bytes, s.io.records = older ++ [⟨bytes, true⟩]) →
      (∀ b, exec (.outByte b) s = .refused .noOpenRecord) ∧ exec .outRecClose s = .refused .noOpenRecord ∧
      ∀ d, exec (.outword d) s = .refused .noOpenRecord)

/-- R67, R100, R242: an output word is written as two bytes, bits 9..8 first, at the next two addresses
of the open record; every other byte is as it was. -/
def Obligations.OutputWordIsTwoBytes : Prop :=
  ∀ (s : State) (d : DataWord) (older : List Record) (bytes : List Byte), accepting s = true →
    s.io.records = older ++ [⟨bytes, false⟩] →
    ∃ t, exec (.outword d) s = .next t ∧
      readByte t older.length bytes.length = some ((d.extractLsb' 8 2).setWidth 8) ∧
      readByte t older.length (bytes.length + 1) = some (d.extractLsb' 0 8) ∧
      (∀ k a, ¬ (k = older.length ∧ (a = bytes.length ∨ a = bytes.length + 1)) →
        readByte t k a = readByte s k a) ∧
      t.io.syTap = s.io.syTap ∧ t.io.manifest = s.io.manifest ∧ t.det = s.det ∧ t.cls = s.cls ∧
      t.rcv = s.rcv ∧ t.frm = s.frm ∧ t.emt = s.emt ∧ t.sts = s.sts

/-- R99, R220: a codeword is looked up; only the reply changes (log entry 13). -/
def Obligations.CodewordIsLookedUp : Prop :=
  ∀ (s : State) (syn : Syndrome) (d : DataWord) (x : Codeword), accepting s = true →
    x.extractLsb' 10 5 = syn → x.extractLsb' 0 10 = d →
    exec (.codeword syn d) s = .next { s with eccReply := some (.entry (eccEntry s.rom x)) }

/-- R68, R96, R97, R101 (log entry 13): in every state that takes a token, a row and a preamble are their
bits received one after another, the highest first, each as the operation of that bit. -/
def Obligations.RowAndPreambleAreTheirBits : Prop :=
  ∀ s : State, accepting s = true →
    (∀ (pre : BitVec 5) (payload : Payload), exec (.row pre payload) s =
      runInstrs (((List.range 5).map fun k => bitInstr (pre.getLsbD (4 - k))) ++
        (List.range 32).map fun k => bitInstr (payload.getLsbD (31 - k))) s) ∧
    (∀ bits : PreambleWord, exec (.preamble bits) s =
      runInstrs ((List.range 128).map fun k => bitInstr (bits.getLsbD (127 - k))) s)

/-- R96, R97, R189, R190, R201: a row presented whole to a synchronised framer between rows: with the
framing prefix its payload joins the chunk, with any other it raises the framing fault at the symbol
position of its first bit (log entry 13). -/
def Obligations.RowIsReceivedWhole : Prop :=
  ∀ (s : State) (pre : BitVec 5) (payload : Payload), accepting s = true → s.frm.mode = .synced →
    s.frm.rowbits = [] → s.frm.rows.length < 14 →
    (pre = 0b11101#5 → ∃ t, exec (.row pre payload) s = .next t ∧
      t.frm = { s.frm with
        symPos := s.frm.symPos + 37, rowStart := s.frm.symPos, rows := s.frm.rows ++ [payload] } ∧
      t.io.outs = s.io.outs ∧ (∀ k a, readByte t k a = readByte s k a) ∧ t.det = s.det ∧
      t.cls = s.cls ∧ t.rcv = s.rcv ∧ t.emt = s.emt ∧ t.sts = s.sts) ∧
    (∀ m, pre ≠ 0b11101#5 → s.frm.zeroMetric = some m → ∃ t, exec (.row pre payload) s = .next t ∧
      t.frm = { s.frm with
        symPos := s.frm.symPos + 37, rowStart := s.frm.symPos, mode := .abort, rows := [], window := [] } ∧
      t.io.outs = s.io.outs ++
        [.errFraming (s.frm.segNo - 1) (15 * s.frm.chunkIndex + s.frm.rows.length) s.frm.symPos,
          if s.emt.recOpen = true then .recClose else .zeroRun m] ∧
      (∀ k a, readByte t k a = readByte s k a) ∧ t.det = s.det ∧ t.cls = s.cls ∧ t.rcv = s.rcv ∧
      t.sts = { s.sts with errFraming := true })

/-- R188, R200, R205 (log entry 13): 128 bits received whole while the framer hunts. With an empty window
they synchronise it, at the last of them, exactly when they are the preamble, and else stand in the
window; the leading zeros among them are counted as long as the leading run lasts. After a leader of `L`
zeros, of which the window holds the last 128, a preamble as in R205 synchronises it with metric `L`. -/
def Obligations.PreambleSynchronises : Prop :=
  ∀ (s : State) (bits : PreambleWord), accepting s = true → s.frm.mode = .hunt →
    let received := (List.range 128).map bits.getMsbD
    let zeros := (received.takeWhile fun b => !b).length
    let shown := { s with io := { s.io with syTap := s.io.syTap ++ received.map bitSymbol } }
    let count := if s.frm.leading = true then s.frm.zeroCount + zeros else s.frm.zeroCount
    let counted := { s.frm with
      symPos := s.frm.symPos + 128, zeroCount := count, leading := s.frm.leading && decide (zeros = 128) }
    let found := { counted with
      mode := .synced, zeroMetric := some ((count : Int) - 25), rowbits := [], rows := [], window := [] }
    (s.frm.window = [] → bits ≠ s.rom.preamble →
      exec (.preamble bits) s = .next { shown with frm := { counted with window := received } }) ∧
    (s.frm.window = [] → bits = s.rom.preamble →
      exec (.preamble bits) s = .next { shown with frm := found }) ∧
    (∀ leader : Nat, s.frm.leading = true → s.frm.zeroCount = leader →
      s.frm.window = List.replicate (min leader 128) false → bits = s.rom.preamble → PreambleLeads bits →
      exec (.preamble bits) s = .next { shown with frm := found } ∧ found.zeroMetric = some (leader : Int))

/-! ## The whole machine -/

/-- R45 at reset: every invariant holds there. -/
def Obligations.ResetSatisfiesTheInvariants : Prop :=
  BlockInv State.reset ∧ EmitterInv State.reset ∧ SpacesAreFolds State.reset ∧
  WholeChunks State.reset ∧ LastNotAhead State.reset ∧ OneFaultInv State.reset

/-- R45: every step of a block driven at `IN` keeps the invariants, from every state that satisfies
them. -/
def Obligations.StepKeepsTheInvariants : Prop :=
  ∀ s t : State, BlockInv s →
    (∀ p rest, s.pending = .token p :: rest → ∀ i, decode s.cfg p = .ok i → fromHost i = true) →
    step s = .next t → BlockInv t

/-- R45, the framer's clauses: every step keeps them, whichever channel the token is on. -/
def Obligations.StepKeepsTheFramerInvariants : Prop :=
  ∀ s t : State, FramerInv s.frm → step s = .next t → FramerInv t.frm

/-- R66, R248: whatever runs, `RECORDS` and `MANIFEST` stay the host's folds over the events. -/
def Obligations.StepKeepsTheSpacesFolds : Prop :=
  ∀ s t : State, SpacesAreFolds s → step s = .next t → SpacesAreFolds t

/-- R37, R38, R66: `rec_no` counts the records, `rec_open` says whether the last is open, and all others
are frozen, whatever runs but an `OUT.REC_OPEN` or `OUT.REC_CLOSE` presented from outside. -/
def Obligations.EmitterAgreesWithRecords : Prop :=
  ∀ (i : Instr) (s t : State), (∀ k, i ≠ .outRecOpen k) → i ≠ .outRecClose →
    EmitterInv s → exec i s = .next t → EmitterInv t

/-- R71, R72, R248: records grow by whole 64-byte chunks, whatever runs but `OUT` bytes and empty
records presented from outside, where the emitter's count is that of the records (EmitterAgreesWithRecords). -/
def Obligations.RecordsHoldWholeChunks : Prop :=
  ∀ (i : Instr) (s t : State), (∀ k, i ≠ .outRecOpen k) → (∀ b, i ≠ .outByte b) → (∀ d, i ≠ .outword d) →
    EmitterInv s → WholeChunks s → exec i s = .next t → WholeChunks t

/-- R60, R66, R75, R296: the streams and the output spaces are append-only: no instruction changes or
removes what stands in them, and no step, a reset pulse among them, a byte of any run. -/
def Obligations.OutputOnlyGrows : Prop :=
  (∀ (i : Instr) (s t : State), exec i s = .next t → t.past = s.past ∧
    s.io.outs <+: t.io.outs ∧ s.io.syTap <+: t.io.syTap ∧ s.io.manifest <+: t.io.manifest ∧
    s.io.records.length ≤ t.io.records.length ∧
    ∀ k a b, readByte s k a = some b → readByte t k a = some b) ∧
  ∀ s t : State, step s = .next t → s.past <+: t.past ∧
    ∀ run k a b, readByteOfRun s run k a = some b → readByteOfRun t run k a = some b

/-- R265: an instruction reports at most one fault, and a sample yields at most one symbol. -/
def Obligations.AtMostOneFaultPerToken : Prop :=
  (∀ (i : Instr) (s t : State), exec i s = .next t →
    ∃ es, t.io.outs = s.io.outs ++ es ∧ (es.filter isFaultReport).length ≤ 1) ∧
  (∀ (x : Int) (s t : State), exec (.inSample x) s = .next t →
    ∃ ys, t.io.syTap = s.io.syTap ++ ys ∧ ys.length ≤ 1)

/-- R39, R267, R21, R35, R38, R78, R293: no instruction clears a sticky flag, lowers a counter kept since
reset, or writes a constant, a configuration input or the host's queue. -/
def Obligations.FlagsCountersAndConstantsStand : Prop :=
  ∀ (i : Instr) (s t : State), exec i s = .next t →
    (s.sts.errFraming = true → t.sts.errFraming = true) ∧ (s.sts.errEcc = true → t.sts.errEcc = true) ∧
    s.sts.correctedCount ≤ t.sts.correctedCount ∧ s.frm.segNo ≤ t.frm.segNo ∧
    s.emt.recNo ≤ t.emt.recNo ∧ s.det.n ≤ t.det.n ∧
    t.rom = s.rom ∧ t.cfg = s.cfg ∧ t.pending = s.pending

/-- R295: the burst of a sample is at most 98 events, that of the end of input at most 2. -/
def Obligations.BurstsAreBounded : Prop :=
  (∀ (x : Int) (s t : State), exec (.inSample x) s = .next t →
    ∃ es, t.io.outs = s.io.outs ++ es ∧ es.length ≤ 98) ∧
  (∀ s t : State, exec .inEos s = .next t →
    ∃ es, t.io.outs = s.io.outs ++ es ∧ 1 ≤ es.length ∧ es.length ≤ 2)

/-- R138, R156: driven at `IN`, the last accepted event never lies after the newest corrected sample, so
the spacing of the next event is never negative. -/
def Obligations.SpacingsAreNeverNegative : Prop :=
  (∀ (i : Instr) (s t : State), fromHost i = true → LastNotAhead s → exec i s = .next t → LastNotAhead t) ∧
  (∀ (s : State) (l p y : Rat), LastNotAhead s → s.cls.last = some l → signChange p y = true →
    0 ≤ interpolate (newestIndex s + 1) p y - l)

/-- R265: at most one fault is reported for each segment: after a fault the framer is in `ABORT`, and no
second is raised before the next segment starts. Every step keeps this, whichever token it takes but the
report of a fault presented from outside. -/
def Obligations.StepKeepsOneFaultPerSegment : Prop :=
  ∀ s t : State, OneFaultInv s →
    (∀ p rest, s.pending = .token p :: rest → ∀ i, decode s.cfg p = .ok i → presentsReport i = false) →
    step s = .next t → OneFaultInv t
end

