-- ==== Sys2Proof/Laws/State.lean ====
section
/-! SUPPORT. For each named update of the state, what each of its components holds afterwards: one
lemma per component, true by `rfl`. -/

namespace Sys2Proof.Machine

/-! ## `emit` (R75) -/
@[simp] theorem emit_cfg (e : OutEvent) (s : State) : (emit e s).cfg = s.cfg := rfl
@[simp] theorem emit_rom (e : OutEvent) (s : State) : (emit e s).rom = s.rom := rfl
@[simp] theorem emit_pending (e : OutEvent) (s : State) : (emit e s).pending = s.pending := rfl
@[simp] theorem emit_det (e : OutEvent) (s : State) : (emit e s).det = s.det := rfl
@[simp] theorem emit_cls (e : OutEvent) (s : State) : (emit e s).cls = s.cls := rfl
@[simp] theorem emit_rcv (e : OutEvent) (s : State) : (emit e s).rcv = s.rcv := rfl
@[simp] theorem emit_frm (e : OutEvent) (s : State) : (emit e s).frm = s.frm := rfl
@[simp] theorem emit_emt (e : OutEvent) (s : State) : (emit e s).emt = s.emt := rfl
@[simp] theorem emit_sts (e : OutEvent) (s : State) : (emit e s).sts = s.sts := rfl
@[simp] theorem emit_io_outs (e : OutEvent) (s : State) : (emit e s).io.outs = s.io.outs ++ [e] := rfl
@[simp] theorem emit_io_records (e : OutEvent) (s : State) : (emit e s).io.records = recordsAfter s.io.records e := rfl
@[simp] theorem emit_io_manifest (e : OutEvent) (s : State) : (emit e s).io.manifest = s.io.manifest ++ linesOf e := rfl
@[simp] theorem emit_io_syTap (e : OutEvent) (s : State) : (emit e s).io.syTap = s.io.syTap := rfl
@[simp] theorem emit_past (e : OutEvent) (s : State) : (emit e s).past = s.past := rfl
@[simp] theorem emit_eccReply (e : OutEvent) (s : State) : (emit e s).eccReply = s.eccReply := rfl

/-! ## `tap` (R75, R93) -/
@[simp] theorem tap_cfg (y : SySymbol) (s : State) : (tap y s).cfg = s.cfg := rfl
@[simp] theorem tap_rom (y : SySymbol) (s : State) : (tap y s).rom = s.rom := rfl
@[simp] theorem tap_pending (y : SySymbol) (s : State) : (tap y s).pending = s.pending := rfl
@[simp] theorem tap_det (y : SySymbol) (s : State) : (tap y s).det = s.det := rfl
@[simp] theorem tap_cls (y : SySymbol) (s : State) : (tap y s).cls = s.cls := rfl
@[simp] theorem tap_rcv (y : SySymbol) (s : State) : (tap y s).rcv = s.rcv := rfl
@[simp] theorem tap_frm (y : SySymbol) (s : State) : (tap y s).frm = s.frm := rfl
@[simp] theorem tap_emt (y : SySymbol) (s : State) : (tap y s).emt = s.emt := rfl
@[simp] theorem tap_sts (y : SySymbol) (s : State) : (tap y s).sts = s.sts := rfl
@[simp] theorem tap_io_outs (y : SySymbol) (s : State) : (tap y s).io.outs = s.io.outs := rfl
@[simp] theorem tap_io_records (y : SySymbol) (s : State) : (tap y s).io.records = s.io.records := rfl
@[simp] theorem tap_io_manifest (y : SySymbol) (s : State) : (tap y s).io.manifest = s.io.manifest := rfl
@[simp] theorem tap_io_syTap (y : SySymbol) (s : State) : (tap y s).io.syTap = s.io.syTap ++ [y] := rfl
@[simp] theorem tap_past (y : SySymbol) (s : State) : (tap y s).past = s.past := rfl
@[simp] theorem tap_eccReply (y : SySymbol) (s : State) : (tap y s).eccReply = s.eccReply := rfl

/-! ## `endOfRun` (R247) -/
@[simp] theorem endOfRun_cfg (s : State) : (endOfRun s).cfg = s.cfg := rfl
@[simp] theorem endOfRun_rom (s : State) : (endOfRun s).rom = s.rom := rfl
@[simp] theorem endOfRun_pending (s : State) : (endOfRun s).pending = s.pending := rfl
@[simp] theorem endOfRun_det (s : State) : (endOfRun s).det = s.det := rfl
@[simp] theorem endOfRun_cls (s : State) : (endOfRun s).cls = s.cls := rfl
@[simp] theorem endOfRun_rcv (s : State) : (endOfRun s).rcv = s.rcv := rfl
@[simp] theorem endOfRun_frm (s : State) : (endOfRun s).frm = s.frm := rfl
@[simp] theorem endOfRun_emt (s : State) : (endOfRun s).emt = s.emt := rfl
@[simp] theorem endOfRun_sts (s : State) : (endOfRun s).sts = s.sts := rfl
@[simp] theorem endOfRun_io_outs (s : State) : (endOfRun s).io.outs = s.io.outs ++ [.endRun] := rfl
@[simp] theorem endOfRun_io_records (s : State) : (endOfRun s).io.records = s.io.records := rfl
@[simp] theorem endOfRun_io_manifest (s : State) : (endOfRun s).io.manifest = s.io.manifest := by
  simp [endOfRun, linesOf]
@[simp] theorem endOfRun_io_syTap (s : State) : (endOfRun s).io.syTap = s.io.syTap := rfl
@[simp] theorem endOfRun_past (s : State) : (endOfRun s).past = s.past := rfl
@[simp] theorem endOfRun_eccReply (s : State) : (endOfRun s).eccReply = s.eccReply := rfl

/-! ## `reply` (R219) -/
@[simp] theorem reply_cfg (r : EccReply) (s : State) : (reply r s).cfg = s.cfg := rfl
@[simp] theorem reply_rom (r : EccReply) (s : State) : (reply r s).rom = s.rom := rfl
@[simp] theorem reply_pending (r : EccReply) (s : State) : (reply r s).pending = s.pending := rfl
@[simp] theorem reply_det (r : EccReply) (s : State) : (reply r s).det = s.det := rfl
@[simp] theorem reply_cls (r : EccReply) (s : State) : (reply r s).cls = s.cls := rfl
@[simp] theorem reply_rcv (r : EccReply) (s : State) : (reply r s).rcv = s.rcv := rfl
@[simp] theorem reply_frm (r : EccReply) (s : State) : (reply r s).frm = s.frm := rfl
@[simp] theorem reply_emt (r : EccReply) (s : State) : (reply r s).emt = s.emt := rfl
@[simp] theorem reply_sts (r : EccReply) (s : State) : (reply r s).sts = s.sts := rfl
@[simp] theorem reply_io (r : EccReply) (s : State) : (reply r s).io = s.io := rfl
@[simp] theorem reply_past (r : EccReply) (s : State) : (reply r s).past = s.past := rfl
@[simp] theorem reply_eccReply (r : EccReply) (s : State) : (reply r s).eccReply = some r := rfl

/-! ## `setExpecting` (R26) -/
@[simp] theorem setExpecting_cfg (b : Bool) (s : State) : (setExpecting b s).cfg = s.cfg := rfl
@[simp] theorem setExpecting_rom (b : Bool) (s : State) : (setExpecting b s).rom = s.rom := rfl
@[simp] theorem setExpecting_pending (b : Bool) (s : State) : (setExpecting b s).pending = s.pending := rfl
@[simp] theorem setExpecting_det (b : Bool) (s : State) : (setExpecting b s).det = s.det := rfl
@[simp] theorem setExpecting_cls (b : Bool) (s : State) : (setExpecting b s).cls = s.cls := rfl
@[simp] theorem setExpecting_rcv_expecting (b : Bool) (s : State) : (setExpecting b s).rcv.expecting = b := rfl
@[simp] theorem setExpecting_frm (b : Bool) (s : State) : (setExpecting b s).frm = s.frm := rfl
@[simp] theorem setExpecting_emt (b : Bool) (s : State) : (setExpecting b s).emt = s.emt := rfl
@[simp] theorem setExpecting_sts (b : Bool) (s : State) : (setExpecting b s).sts = s.sts := rfl
@[simp] theorem setExpecting_io (b : Bool) (s : State) : (setExpecting b s).io = s.io := rfl
@[simp] theorem setExpecting_past (b : Bool) (s : State) : (setExpecting b s).past = s.past := rfl
@[simp] theorem setExpecting_eccReply (b : Bool) (s : State) : (setExpecting b s).eccReply = s.eccReply := rfl

/-! ## `setDone` (R40) -/
@[simp] theorem setDone_cfg (s : State) : (setDone s).cfg = s.cfg := rfl
@[simp] theorem setDone_rom (s : State) : (setDone s).rom = s.rom := rfl
@[simp] theorem setDone_pending (s : State) : (setDone s).pending = s.pending := rfl
@[simp] theorem setDone_det (s : State) : (setDone s).det = s.det := rfl
@[simp] theorem setDone_cls (s : State) : (setDone s).cls = s.cls := rfl
@[simp] theorem setDone_rcv (s : State) : (setDone s).rcv = s.rcv := rfl
@[simp] theorem setDone_frm (s : State) : (setDone s).frm = s.frm := rfl
@[simp] theorem setDone_emt (s : State) : (setDone s).emt = s.emt := rfl
@[simp] theorem setDone_sts_done (s : State) : (setDone s).sts.done = true := rfl
@[simp] theorem setDone_sts_errFraming (s : State) : (setDone s).sts.errFraming = s.sts.errFraming := rfl
@[simp] theorem setDone_sts_errEcc (s : State) : (setDone s).sts.errEcc = s.sts.errEcc := rfl
@[simp] theorem setDone_sts_correctedCount (s : State) : (setDone s).sts.correctedCount = s.sts.correctedCount := rfl
@[simp] theorem setDone_io (s : State) : (setDone s).io = s.io := rfl
@[simp] theorem setDone_past (s : State) : (setDone s).past = s.past := rfl
@[simp] theorem setDone_eccReply (s : State) : (setDone s).eccReply = s.eccReply := rfl

/-! ## `applyReset` (R290) -/
@[simp] theorem applyReset_cfg (s : State) : (applyReset s).cfg = s.cfg := rfl
@[simp] theorem applyReset_rom (s : State) : (applyReset s).rom = s.rom := rfl
@[simp] theorem applyReset_pending (s : State) : (applyReset s).pending = s.pending := rfl
@[simp] theorem applyReset_det (s : State) : (applyReset s).det = {} := rfl
@[simp] theorem applyReset_cls (s : State) : (applyReset s).cls = {} := rfl
@[simp] theorem applyReset_rcv (s : State) : (applyReset s).rcv = {} := rfl
@[simp] theorem applyReset_frm (s : State) : (applyReset s).frm = {} := rfl
@[simp] theorem applyReset_emt (s : State) : (applyReset s).emt = {} := rfl
@[simp] theorem applyReset_sts (s : State) : (applyReset s).sts = {} := rfl
@[simp] theorem applyReset_io (s : State) : (applyReset s).io = {} := rfl
@[simp] theorem applyReset_past (s : State) : (applyReset s).past = s.past ++ [s.io] := rfl
@[simp] theorem applyReset_eccReply (s : State) : (applyReset s).eccReply = none := rfl

/-! ## `dropAssembly` (R198, R266) -/
@[simp] theorem dropAssembly_mode (f : Framer) : (dropAssembly f).mode = f.mode := rfl
@[simp] theorem dropAssembly_window (f : Framer) : (dropAssembly f).window = [] := rfl
@[simp] theorem dropAssembly_zeroCount (f : Framer) : (dropAssembly f).zeroCount = f.zeroCount := rfl
@[simp] theorem dropAssembly_leading (f : Framer) : (dropAssembly f).leading = f.leading := rfl
@[simp] theorem dropAssembly_zeroMetric (f : Framer) : (dropAssembly f).zeroMetric = f.zeroMetric := rfl
@[simp] theorem dropAssembly_rowbits (f : Framer) : (dropAssembly f).rowbits = [] := rfl
@[simp] theorem dropAssembly_rows (f : Framer) : (dropAssembly f).rows = [] := rfl
@[simp] theorem dropAssembly_chunkIndex (f : Framer) : (dropAssembly f).chunkIndex = f.chunkIndex := rfl
@[simp] theorem dropAssembly_symPos (f : Framer) : (dropAssembly f).symPos = f.symPos := rfl
@[simp] theorem dropAssembly_rowStart (f : Framer) : (dropAssembly f).rowStart = f.rowStart := rfl
@[simp] theorem dropAssembly_segNo (f : Framer) : (dropAssembly f).segNo = f.segNo := rfl

/-! ## `segmentStart` (R185) -/
@[simp] theorem segmentStart_mode (f : Framer) : (segmentStart f).mode = .hunt := rfl
@[simp] theorem segmentStart_window (f : Framer) : (segmentStart f).window = [] := rfl
@[simp] theorem segmentStart_zeroCount (f : Framer) : (segmentStart f).zeroCount = 0 := rfl
@[simp] theorem segmentStart_leading (f : Framer) : (segmentStart f).leading = true := rfl
@[simp] theorem segmentStart_zeroMetric (f : Framer) : (segmentStart f).zeroMetric = none := rfl
@[simp] theorem segmentStart_rowbits (f : Framer) : (segmentStart f).rowbits = [] := rfl
@[simp] theorem segmentStart_rows (f : Framer) : (segmentStart f).rows = [] := rfl
@[simp] theorem segmentStart_chunkIndex (f : Framer) : (segmentStart f).chunkIndex = 0 := rfl
@[simp] theorem segmentStart_symPos (f : Framer) : (segmentStart f).symPos = 0 := rfl
@[simp] theorem segmentStart_rowStart (f : Framer) : (segmentStart f).rowStart = 0 := rfl
@[simp] theorem segmentStart_segNo (f : Framer) : (segmentStart f).segNo = f.segNo + 1 := rfl

/-! ## `setSticky` (R39, R266) -/
@[simp] theorem setSticky_correctedCount (i : FaultInfo) (st : Status) : (setSticky i st).correctedCount = st.correctedCount := by
  cases i <;> rfl
@[simp] theorem setSticky_done (i : FaultInfo) (st : Status) : (setSticky i st).done = st.done := by
  cases i <;> rfl

end Sys2Proof.Machine
end

