-- ==== Sys2Proof/Laws/Ecc.lean ====
section
/-! SUPPORT. The laws of the code, its distance, the building of the table, and the decoder's result. -/

namespace Sys2Proof.Machine

/-! ## Distance -/

theorem distance_comm (x y : Codeword) : distance x y = distance y x := by
  simp [distance, BitVec.xor_comm]

theorem popcount_oneBit {b : Nat} (hb : b < 15) : popcount (oneBit b) = 1 := by
  interval_cases b <;> decide

theorem getLsbD_oneBit {b i : Nat} (hi : i < 15) : (oneBit b).getLsbD i = decide (i = b) := by
  unfold oneBit
  rw [BitVec.getLsbD_shiftLeft]
  by_cases h : i < b
  · simp [h]; omega
  · have : (1#15).getLsbD (i - b) = decide (i - b = 0) := by
      rw [BitVec.getLsbD_ofNat]
      cases hib : i - b with
      | zero => simp
      | succ n => simp [Nat.testBit_succ]
    simp [hi, h, this]
    omega

/-- A word with one set bit is a single bit (R217). -/
theorem popcount_eq_one_iff (x : Codeword) : popcount x = 1 ↔ ∃ b < 15, x = oneBit b := by
  constructor
  · intro h
    unfold popcount at h
    rw [List.countP_eq_length_filter, List.length_eq_one_iff] at h
    obtain ⟨b, hb⟩ := h
    have hmem : ∀ i, i < 15 ∧ x.getLsbD i = true ↔ i = b := by
      intro i
      have := congrArg (i ∈ ·) hb
      simpa using this
    have hb15 := ((hmem b).2 rfl).1
    refine ⟨b, hb15, ?_⟩
    apply BitVec.eq_of_getLsbD_eq
    intro i hi
    rw [getLsbD_oneBit hi, Bool.eq_iff_iff, decide_eq_true_iff, ← hmem i]
    simp [hi]
  · rintro ⟨b, hb, rfl⟩
    exact popcount_oneBit hb

/-- Two codes are at distance 1 exactly when one is the other with a bit flipped. -/
theorem distance_eq_one_iff (x y : Codeword) : distance x y = 1 ↔ ∃ b < 15, x = y ^^^ oneBit b := by
  unfold distance
  rw [popcount_eq_one_iff]
  constructor
  · rintro ⟨b, hb, h⟩
    exact ⟨b, hb, by rw [← h, BitVec.xor_comm x y, ← BitVec.xor_assoc]; simp⟩
  · rintro ⟨b, hb, rfl⟩
    exact ⟨b, hb, by rw [BitVec.xor_comm y, BitVec.xor_assoc]; simp⟩

theorem distance_eq_zero_iff (x y : Codeword) : distance x y = 0 ↔ x = y := by
  unfold distance popcount
  rw [List.countP_eq_zero]
  constructor
  · intro h
    rw [← BitVec.xor_eq_zero_iff]
    apply BitVec.eq_of_getLsbD_eq
    intro i hi
    have := h i (List.mem_range.2 hi)
    simpa using this
  · rintro rfl; simp

/-! ## The code -/

/-- The ten data bits of a code are its data (R216). -/
theorem dataOf_encodeData (rom : Rom) (d : DataWord) : dataOf (encodeData rom d) = d := by
  apply BitVec.eq_of_getLsbD_eq
  intro i hi
  simp only [dataOf, encodeData, BitVec.getLsbD_setWidth, BitVec.getLsbD_or, BitVec.getLsbD_shiftLeft]
  simp [hi, show i < 15 by omega]

/-- The five bits above them are the syndrome (R215, R216). -/
theorem syndromeOf_encodeData (rom : Rom) (d : DataWord) :
    (encodeData rom d).extractLsb' 10 5 = syndrome rom d := by
  apply BitVec.eq_of_getLsbD_eq
  intro i hi
  simp only [encodeData, BitVec.getLsbD_extractLsb', BitVec.getLsbD_or, BitVec.getLsbD_setWidth,
    BitVec.getLsbD_shiftLeft]
  simp [hi, show 10 + i < 15 by omega, show i < 15 by omega]

theorem encodeData_injective (rom : Rom) {d d' : DataWord} (h : encodeData rom d = encodeData rom d') :
    d = d' := by
  rw [← dataOf_encodeData rom d, h, dataOf_encodeData]

theorem isCodeword_iff (rom : Rom) (x : Codeword) :
    isCodeword rom x = true ↔ ∃ d, x = encodeData rom d := by
  unfold isCodeword
  rw [beq_iff_eq]
  constructor
  · intro h; exact ⟨_, h.symm⟩
  · rintro ⟨d, rfl⟩; rw [dataOf_encodeData]

/-- The neighbours of a code are the data values at distance exactly 1 (R218). -/
theorem mem_neighbours_iff (rom : Rom) (x : Codeword) (d : DataWord) :
    d ∈ neighbours rom x ↔ distance (encodeData rom d) x = 1 := by
  simp only [neighbours, List.mem_map, List.mem_filter, List.mem_range, isCodeword_iff,
    distance_eq_one_iff]
  constructor
  · rintro ⟨b, ⟨hb, d', hd'⟩, rfl⟩
    refine ⟨b, hb, ?_⟩
    rw [hd', dataOf_encodeData]
  · rintro ⟨b, hb, h⟩
    exact ⟨b, ⟨hb, d, h.symm⟩, by rw [← h, dataOf_encodeData]⟩

/-- What the greatest of a list is. -/
theorem greatest_eq_some_iff (ds : List DataWord) (d : DataWord) :
    greatest ds = some d ↔ d ∈ ds ∧ ∀ e ∈ ds, e ≤ d := by
  have hfold : ∀ (es : List DataWord) (a : DataWord),
      let m := es.foldl (fun m e => if m < e then e else m) a
      (m = a ∨ m ∈ es) ∧ a ≤ m ∧ ∀ e ∈ es, e ≤ m := by
    intro es
    induction es with
    | nil => simp
    | cons e es ih =>
      intro a
      obtain ⟨h1, h2, h3⟩ := ih (if a < e then e else a)
      simp only [List.foldl_cons]
      refine ⟨?_, ?_, ?_⟩
      · rcases h1 with h1 | h1
        · rw [h1]; split <;> simp
        · exact .inr (List.mem_cons_of_mem _ h1)
      · refine BitVec.le_trans ?_ h2; split <;> bv_omega
      · intro y hy
        rcases List.mem_cons.1 hy with rfl | hy
        · refine BitVec.le_trans ?_ h2; split <;> bv_omega
        · exact h3 y hy
  cases ds with
  | nil => simp [greatest]
  | cons a as =>
    obtain ⟨h1, h2, h3⟩ := hfold as a
    simp only [greatest, Option.some.injEq, List.mem_cons]
    constructor
    · rintro rfl
      refine ⟨h1, ?_⟩
      rintro e (rfl | he)
      · exact h2
      · exact h3 e he
    · rintro ⟨hd, hge⟩
      apply BitVec.le_antisymm
      · exact hge _ h1
      · rcases hd with rfl | hd
        · exact h2
        · exact h3 d hd

theorem greatest_eq_none_iff (ds : List DataWord) : greatest ds = none ↔ ds = [] := by
  cases ds <;> simp [greatest]

/-- The three kinds of entry (R218). -/
theorem eccEntry_corrected (rom : Rom) {x : Codeword} {d : DataWord}
    (hd : distance (encodeData rom d) x = 1)
    (hge : ∀ e, distance (encodeData rom e) x = 1 → e ≤ d) :
    eccEntry rom x = .corrected (encodeData rom d) := by
  have : greatest (neighbours rom x) = some d :=
    (greatest_eq_some_iff _ _).2 ⟨(mem_neighbours_iff _ _ _).2 hd, fun e he =>
      hge e ((mem_neighbours_iff _ _ _).1 he)⟩
  simp [eccEntry, this]

theorem eccEntry_alone (rom : Rom) {x : Codeword} (h : ∀ d, distance (encodeData rom d) x ≠ 1) :
    eccEntry rom x = if isCodeword rom x then .valid else .unrecoverable := by
  have : greatest (neighbours rom x) = none := by
    rw [greatest_eq_none_iff, List.eq_nil_iff_forall_not_mem]
    intro d hd
    exact h d ((mem_neighbours_iff _ _ _).1 hd)
  simp [eccEntry, this]

/-- A corrected entry is the greatest data value at distance 1 (R218). -/
theorem eccEntry_eq_corrected (rom : Rom) {x c : Codeword} (h : eccEntry rom x = .corrected c) :
    ∃ d, c = encodeData rom d ∧ distance (encodeData rom d) x = 1 ∧
      ∀ e, distance (encodeData rom e) x = 1 → e ≤ d := by
  unfold eccEntry at h
  split at h
  · rename_i d hd
    obtain ⟨h1, h2⟩ := (greatest_eq_some_iff _ _).1 hd
    exact ⟨d, (EccEntry.corrected.inj h).symm, (mem_neighbours_iff _ _ _).1 h1, fun e he =>
      h2 e ((mem_neighbours_iff _ _ _).2 he)⟩
  · split at h <;> cases h

/-! ## Linear tables -/

/-- The entry of an XOR of indexes is the XOR of the entries. -/
def LinearTable (t : SynTable) : Prop := ∀ i j : Fin 32, t[i.val ^^^ j.val]? = some (t[i] ^^^ t[j])

theorem syndrome_xor {rom : Rom} (hh : LinearTable rom.highSyndrome) (hl : LinearTable rom.lowSyndrome)
    (d e : DataWord) : syndrome rom (d ^^^ e) = syndrome rom d ^^^ syndrome rom e := by
  have key : ∀ (t : SynTable), LinearTable t → ∀ a b k : Nat, (ha : a < 32) → (hb : b < 32) →
      (hk : k < 32) → k = a ^^^ b → t[k] = t[a] ^^^ t[b] := by
    intro t ht a b k ha hb hk hkab
    have := ht ⟨a, ha⟩ ⟨b, hb⟩
    simp only [← hkab, Vector.getElem?_eq_getElem hk] at this
    exact Option.some.inj this
  unfold syndrome
  rw [key _ hh (d.toNat / 32 % 32) (e.toNat / 32 % 32) _ (by omega) (by omega) (by omega),
    key _ hl (d.toNat % 32) (e.toNat % 32) _ (by omega) (by omega) (by omega)]
  · generalize rom.highSyndrome[d.toNat / 32 % 32] = a
    generalize rom.highSyndrome[e.toNat / 32 % 32] = b
    generalize rom.lowSyndrome[d.toNat % 32] = c
    generalize rom.lowSyndrome[e.toNat % 32] = f
    rw [BitVec.xor_assoc, BitVec.xor_assoc]
    congr 1
    rw [← BitVec.xor_assoc, BitVec.xor_comm b c, BitVec.xor_assoc]
  · rw [BitVec.toNat_xor]
    exact Nat.xor_mod_two_pow (n := 5)
  · rw [BitVec.toNat_xor, ← Nat.xor_mod_two_pow (n := 5)]
    congr 1
    exact Nat.xor_div_two_pow (n := 5)

/-- With linear tables the distance of two codes is the weight of the code of the XOR. -/
theorem distance_of_linear {rom : Rom} (hh : LinearTable rom.highSyndrome)
    (hl : LinearTable rom.lowSyndrome) (d e : DataWord) :
    distance (encodeData rom d) (encodeData rom e) = popcount (encodeData rom (d ^^^ e)) := by
  unfold distance encodeData
  rw [syndrome_xor hh hl]
  congr 1
  apply BitVec.eq_of_getLsbD_eq
  intro i hi
  simp only [BitVec.getLsbD_xor, BitVec.getLsbD_or, BitVec.getLsbD_setWidth, BitVec.getLsbD_shiftLeft]
  by_cases h : i < 10
  · simp [h, hi]
  · simp [h, hi, BitVec.getLsbD_of_ge d i (by omega), BitVec.getLsbD_of_ge e i (by omega),
      show i - 10 < 15 by omega]

/-- With linear tables the least weight of a code other than 0 is the least distance (H1, H2 of R226). -/
theorem minDistance_of_weight {rom : Rom} (hh : LinearTable rom.highSyndrome)
    (hl : LinearTable rom.lowSyndrome) {k : Nat}
    (hw : ∀ d : DataWord, d ≠ 0 → k ≤ popcount (encodeData rom d)) {d e : DataWord} (h : d ≠ e) :
    k ≤ distance (encodeData rom d) (encodeData rom e) := by
  rw [distance_of_linear hh hl]
  exact hw _ fun h0 => h (BitVec.xor_eq_zero_iff.1 h0)

/-! ## Building the table -/

@[simp] theorem setEntry_same (t : Codeword → EccEntry) (x : Codeword) (e : EccEntry) :
    setEntry t x e x = e := by simp [setEntry]

theorem setEntry_other (t : Codeword → EccEntry) {x y : Codeword} (e : EccEntry) (h : y ≠ x) :
    setEntry t x e y = t y := by simp [setEntry, h]

/-- Every data value is among the 1024. -/
theorem mem_allData (d : DataWord) : d ∈ allData := by
  simp only [allData, List.mem_map, List.mem_range]
  exact ⟨d.toNat, d.isLt, by simp⟩

/-- One data value writes exactly the entries at distance 1 from its code (R217). -/
theorem markNeighbours_apply (rom : Rom) (t : Codeword → EccEntry) (d : DataWord) (x : Codeword) :
    markNeighbours rom t d x =
      if distance (encodeData rom d) x = 1 then .corrected (encodeData rom d) else t x := by
  have hfold : ∀ (bs : List Nat) (t : Codeword → EccEntry),
      bs.foldl (fun t b => setEntry t (encodeData rom d ^^^ oneBit b) (.corrected (encodeData rom d))) t x =
        if ∃ b ∈ bs, x = encodeData rom d ^^^ oneBit b then .corrected (encodeData rom d) else t x := by
    intro bs
    induction bs with
    | nil => simp
    | cons b bs ih =>
      intro t
      rw [List.foldl_cons, ih]
      by_cases h1 : ∃ b ∈ bs, x = encodeData rom d ^^^ oneBit b
      · rw [if_pos h1, if_pos]
        obtain ⟨b', hb', h⟩ := h1
        exact ⟨b', List.mem_cons_of_mem _ hb', h⟩
      · rw [if_neg h1]
        by_cases h2 : x = encodeData rom d ^^^ oneBit b
        · rw [if_pos ⟨b, by simp, h2⟩, h2, setEntry_same]
        · rw [setEntry_other _ _ h2, if_neg]
          rintro ⟨b', hb', h⟩
          rcases List.mem_cons.1 hb' with rfl | hb'
          · exact h2 h
          · exact h1 ⟨b', hb', h⟩
  unfold markNeighbours
  rw [hfold, distance_comm]
  simp only [List.mem_range, distance_eq_one_iff]

/-- The first pass marks the codes (R217). -/
theorem foldl_markValid (rom : Rom) (ds : List DataWord) (t : Codeword → EccEntry) (x : Codeword) :
    ds.foldl (markValid rom) t x = if ∃ d ∈ ds, x = encodeData rom d then .valid else t x := by
  induction ds generalizing t with
  | nil => simp
  | cons d ds ih =>
    rw [List.foldl_cons, ih]
    by_cases h1 : ∃ d ∈ ds, x = encodeData rom d
    · rw [if_pos h1, if_pos]
      obtain ⟨d', hd', h⟩ := h1
      exact ⟨d', List.mem_cons_of_mem _ hd', h⟩
    · rw [if_neg h1]
      by_cases h2 : x = encodeData rom d
      · rw [if_pos ⟨d, by simp, h2⟩, markValid, h2, setEntry_same]
      · rw [markValid, setEntry_other _ _ h2, if_neg]
        rintro ⟨d', hd', h⟩
        rcases List.mem_cons.1 hd' with rfl | hd'
        · exact h2 h
        · exact h1 ⟨d', hd', h⟩

/-! ## The decoder's result -/

@[simp] theorem byColumn_get {α : Type} (f : Fin 32 → α) (j : Fin 32) : (byColumn f)[j] = f j := by
  simp [byColumn]

/-- A result is the least bad column, or the words and marks of a chunk with none (R219, R221). -/
theorem eccResult_fail_iff (rom : Rom) (p : Chunk) (col : Fin 32) :
    eccResult rom p = .fail col ↔
      columnEntry rom p col = .unrecoverable ∧ ∀ j < col, columnEntry rom p j ≠ .unrecoverable := by
  have h : badColumn rom p = some col ↔
      columnEntry rom p col = .unrecoverable ∧ ∀ j < col, columnEntry rom p j ≠ .unrecoverable := by
    unfold badColumn
    rw [List.find?_eq_some_iff_getElem]
    simp only [beq_iff_eq, List.getElem_finRange, Bool.not_eq_true', beq_eq_false_iff_ne]
    constructor
    · rintro ⟨h1, i, hi, h2, h3⟩
      refine ⟨h1, ?_⟩
      intro j hj
      have := h3 j.val (by rw [← h2] at hj; exact hj)
      simpa using this
    · rintro ⟨h1, h2⟩
      exact ⟨h1, col.val, by simp, by simp, fun k hk => h2 _ (by simpa [Fin.lt_def] using hk)⟩
  rw [← h]
  unfold eccResult
  split <;> simp_all

theorem eccResult_ok_iff (rom : Rom) (p : Chunk) (words : Words) (corr : Marks) :
    eccResult rom p = .ok words corr ↔
      (∀ j, columnEntry rom p j ≠ .unrecoverable) ∧ words = decodedWords rom p ∧
        corr = decodedMarks rom p := by
  have h : badColumn rom p = none ↔ ∀ j, columnEntry rom p j ≠ .unrecoverable := by
    unfold badColumn
    simp [List.find?_eq_none]
  rw [← h]
  unfold eccResult
  split
  · rename_i j hj; simp [hj]
  · rename_i hj; simp [hj, eq_comm]

end Sys2Proof.Machine
end

