-- ==== Sys2Proof/Laws/Ops.lean ====
section
/-! SUPPORT. What each shared operation can do, said once: the taking of a token, the emission of a
list of events, the two output spaces, the end of a segment and the entry of a fault. -/

namespace Sys2Proof.Machine

/-! ## The taking of a token -/

theorem accepting_iff (s : State) : accepting s = true ↔
    s.sts.done = false ∧ s.io.outs.getLast? ≠ some .endRun ∧ configValid s.cfg = true := by
  simp [accepting, ended, and_assoc]

theorem configValid_iff (c : Config) : configValid c = true ↔
    1 ≤ c.sampleRate ∧ 1 ≤ c.bitRate ∧ 0 ≤ c.energyThreshold ∧ 0 ≤ c.tolerance ∧ c.tolerance < 1 := by
  simp [configValid, and_assoc]

/-- An accepting block runs the rule of the token. -/
theorem present_accepting {s : State} (h : accepting s = true) (k : State → Out) : present s k = k s := by
  obtain ⟨hd, he, hc⟩ := (accepting_iff s).1 h
  simp [present, ended, hd, he, hc]

/-- A token that goes on was taken by an accepting block, and its rule went on. -/
theorem present_next {s t : State} {k : State → Out} :
    present s k = .next t ↔ accepting s = true ∧ k s = .next t := by
  constructor
  · intro h
    unfold present at h
    split at h
    · cases h
    · split at h
      · rename_i h1 h2
        refine ⟨?_, h⟩
        simp only [Bool.or_eq_true, not_or, Bool.not_eq_true] at h1
        simp [accepting, h1.1, h1.2, h2]
      · cases h
  · rintro ⟨ha, hk⟩
    rw [present_accepting ha, hk]

theorem onNext_next {o : Out} {f : State → State} {t : State} :
    onNext o f = .next t ↔ ∃ u, o = .next u ∧ f u = t := by
  cases o <;> simp [onNext]

/-- Whether the block takes a token depends on `done`, the stream and the configuration alone. -/
theorem accepting_congr {s t : State} (hd : t.sts.done = s.sts.done) (ho : t.io.outs = s.io.outs)
    (hc : t.cfg = s.cfg) : accepting t = accepting s := by
  simp [accepting, ended, hd, ho, hc]

/-! ## Emission -/

@[simp] theorem emitAll_nil (s : State) : emitAll [] s = s := rfl

@[simp] theorem emitAll_cons (e : OutEvent) (es : List OutEvent) (s : State) :
    emitAll (e :: es) s = emitAll es (emit e s) := rfl

/-- All that a list of events does: it joins the stream, and the spaces take what it writes. -/
theorem emitAll_eq (es : List OutEvent) (s : State) :
    emitAll es s =
      { s with io := { s.io with
          outs := s.io.outs ++ es
          records := es.foldl recordsAfter s.io.records
          manifest := s.io.manifest ++ es.flatMap linesOf } } := by
  induction es generalizing s with
  | nil => simp
  | cons e es ih => simp [ih, emit]

theorem emitAll_append (es fs : List OutEvent) (s : State) :
    emitAll (es ++ fs) s = emitAll fs (emitAll es s) := by
  simp [emitAll, List.foldl_append]

section
variable (es : List OutEvent) (s : State)
@[simp] theorem emitAll_cfg : (emitAll es s).cfg = s.cfg := by simp [emitAll_eq]
@[simp] theorem emitAll_rom : (emitAll es s).rom = s.rom := by simp [emitAll_eq]
@[simp] theorem emitAll_pending : (emitAll es s).pending = s.pending := by simp [emitAll_eq]
@[simp] theorem emitAll_det : (emitAll es s).det = s.det := by simp [emitAll_eq]
@[simp] theorem emitAll_cls : (emitAll es s).cls = s.cls := by simp [emitAll_eq]
@[simp] theorem emitAll_rcv : (emitAll es s).rcv = s.rcv := by simp [emitAll_eq]
@[simp] theorem emitAll_frm : (emitAll es s).frm = s.frm := by simp [emitAll_eq]
@[simp] theorem emitAll_emt : (emitAll es s).emt = s.emt := by simp [emitAll_eq]
@[simp] theorem emitAll_sts : (emitAll es s).sts = s.sts := by simp [emitAll_eq]
@[simp] theorem emitAll_past : (emitAll es s).past = s.past := by simp [emitAll_eq]
@[simp] theorem emitAll_eccReply : (emitAll es s).eccReply = s.eccReply := by simp [emitAll_eq]
@[simp] theorem emitAll_outs : (emitAll es s).io.outs = s.io.outs ++ es := by simp [emitAll_eq]
@[simp] theorem emitAll_syTap : (emitAll es s).io.syTap = s.io.syTap := by simp [emitAll_eq]
@[simp] theorem emitAll_records :
    (emitAll es s).io.records = es.foldl recordsAfter s.io.records := by simp [emitAll_eq]
@[simp] theorem emitAll_manifest :
    (emitAll es s).io.manifest = s.io.manifest ++ es.flatMap linesOf := by simp [emitAll_eq]
end

/-! ## The space of records -/

@[simp] theorem recordGap_self (n : Nat) : recordGap n n = 0 := if_pos rfl

/-- A record opened under the next number is the next element (R248). -/
@[simp] theorem recordsAfter_recOpen_next (rs : List Record) :
    recordsAfter rs (.recOpen rs.length) = rs ++ [({ } : Record)] := by simp [recordsAfter]

/-- A byte of an earlier run stands through everything but a change of `past`. -/
theorem readByteOfRun_past {s t : State} (h : t.past = s.past) {r : Nat} (hr : r < s.past.length)
    (k a : Nat) : readByteOfRun t r k a = readByteOfRun s r k a := by
  simp [readByteOfRun, runsOf, h, List.getElem?_append_left, hr]

/-- The present run is the last one. -/
theorem readByteOfRun_present (s : State) (k a : Nat) :
    readByteOfRun s s.past.length k a = readByte s k a := by
  simp [readByteOfRun, runsOf, readByte]

/-- A reset pulse keeps every byte of every run (R296). -/
theorem readByteOfRun_reset {s : State} {r : Nat} (hr : r ≤ s.past.length) (k a : Nat) :
    readByteOfRun (applyReset s) r k a = readByteOfRun s r k a := by
  simp only [readByteOfRun, runsOf, applyReset]
  rw [List.getElem?_append_left (by simp; omega)]

@[simp] theorem onLast_concat (f : Record → Record) (rs : List Record) (r : Record) :
    onLast f (rs ++ [r]) = rs ++ [f r] := by
  induction rs with
  | nil => rfl
  | cons a as ih => cases as <;> simp_all [onLast]

@[simp] theorem onLast_length (f : Record → Record) (rs : List Record) :
    (onLast f rs).length = rs.length := by
  rcases rs.eq_nil_or_concat with rfl | ⟨as, a, rfl⟩
  · rfl
  · simp

@[simp] theorem onLast_dropLast (f : Record → Record) (rs : List Record) :
    (onLast f rs).dropLast = rs.dropLast := by
  rcases rs.eq_nil_or_concat with rfl | ⟨as, a, rfl⟩
  · rfl
  · simp

/-- A record other than the last is untouched. -/
theorem onLast_getElem? (f : Record → Record) (rs : List Record) (k : Nat) :
    (onLast f rs)[k]? = if k + 1 = rs.length then rs[k]?.map f else rs[k]? := by
  rcases rs.eq_nil_or_concat with rfl | ⟨as, a, rfl⟩
  · simp [onLast]
  · rw [List.concat_eq_append, onLast_concat]
    by_cases h : k + 1 = (as ++ [a]).length
    · simp only [List.length_append, List.length_singleton, Nat.add_right_cancel_iff] at h
      subst h
      simp
    · rw [if_neg h]
      simp only [List.length_append, List.length_singleton, Nat.add_right_cancel_iff] at h
      rcases Nat.lt_or_gt_of_ne h with h | h
      · simp [List.getElem?_append_left h]
      · simp [List.getElem?_eq_none, Nat.succ_le_of_lt h]

@[simp] theorem recordOpen_nil : recordOpen [] = false := rfl

@[simp] theorem recordOpen_concat (rs : List Record) (r : Record) :
    recordOpen (rs ++ [r]) = !r.frozen := by simp [recordOpen]

/-- A record is open exactly when the last one is there and not frozen. -/
theorem recordOpen_iff (rs : List Record) :
    recordOpen rs = true ↔ ∃ older bytes, rs = older ++ [⟨bytes, false⟩] := by
  rcases rs.eq_nil_or_concat with rfl | ⟨as, ⟨bs, fz⟩, rfl⟩
  · simp
  · simp

/-- With no record open and all but the last frozen, all are frozen. -/
theorem all_frozen {rs : List Record} (h : ∀ r ∈ rs.dropLast, r.frozen = true)
    (ho : recordOpen rs = false) : ∀ r ∈ rs, r.frozen = true := by
  rcases rs.eq_nil_or_concat with rfl | ⟨as, a, rfl⟩
  · simp
  · simp only [List.concat_eq_append, List.dropLast_concat, recordOpen_concat, Bool.not_eq_false'] at h ho
    simp only [List.concat_eq_append, List.mem_append, List.mem_singleton]
    rintro r (hr | rfl)
    · exact h r hr
    · exact ho

/-- No event shortens a record, changes a byte of one, or removes one (R66). -/
theorem recordsAfter_getElem? (rs : List Record) (e : OutEvent) (k : Nat) (r : Record)
    (h : rs[k]? = some r) : ∃ r', (recordsAfter rs e)[k]? = some r' ∧ r.bytes <+: r'.bytes := by
  have hk : k < rs.length := (List.getElem?_eq_some_iff.1 h).1
  cases e <;>
    simp only [recordsAfter, onLast_getElem?, List.append_assoc, List.getElem?_append_left hk, h,
      Option.map_some] <;>
    first
      | exact ⟨r, rfl, List.prefix_refl _⟩
      | (split
         · exact ⟨_, rfl, by simp⟩
         · exact ⟨r, rfl, List.prefix_refl _⟩)

/-- The host's folds over a longer stream (R248). -/
theorem recordsOf_append (es fs : List OutEvent) :
    recordsOf (es ++ fs) = fs.foldl recordsAfter (recordsOf es) := by simp [recordsOf, List.foldl_append]

theorem manifestOf_append (es fs : List OutEvent) :
    manifestOf (es ++ fs) = manifestOf es ++ fs.flatMap linesOf := by simp [manifestOf]

/-- Whatever is emitted, the spaces stay the folds over the stream. -/
theorem emitAll_spaces {s : State} (h : SpacesAreFolds s) (es : List OutEvent) :
    SpacesAreFolds (emitAll es s) := by
  constructor
  · simp [recordsOf_append, h.1]
  · simp [manifestOf_append, h.2]

/-- A byte that stands is read again after any event (R66). -/
theorem readByte_emit {s : State} {k a : Nat} {b : Byte} (e : OutEvent)
    (h : readByte s k a = some b) : readByte (emit e s) k a = some b := by
  obtain ⟨r, hr, hb⟩ := Option.bind_eq_some_iff.1 h
  obtain ⟨r', hr', hp⟩ := recordsAfter_getElem? _ e k r hr
  have ha : a < r.bytes.length := (List.getElem?_eq_some_iff.1 hb).1
  simp only [readByte, emit_io_records, hr', Option.bind_some]
  rw [List.prefix_iff_getElem?.1 hp a ha, ← hb, List.getElem?_eq_getElem ha]

theorem readByte_emitAll {k a : Nat} {b : Byte} (es : List OutEvent) {s : State}
    (h : readByte s k a = some b) : readByte (emitAll es s) k a = some b := by
  induction es generalizing s with
  | nil => exact h
  | cons e es ih => exact ih (readByte_emit e h)

/-- The bytes of a state depend on the space of records alone. -/
theorem readByte_congr {s t : State} (h : t.io.records = s.io.records) (k a : Nat) :
    readByte t k a = readByte s k a := by simp [readByte, h]

/-- Freezing a record changes no byte. -/
theorem readByte_recClose (s : State) (k a : Nat) : readByte (emit .recClose s) k a = readByte s k a := by
  simp only [readByte, emit_io_records, recordsAfter, onLast_getElem?]
  split <;> cases s.io.records[k]? <;> rfl

/-! ## The end of a segment and the faults -/

/-- The events of `FE.SEG_END(z)` (R244). -/
def endEvents (isOpen : Bool) (z : Option Int) : List OutEvent :=
  if isOpen then [.recClose] else (z.map OutEvent.zeroRun).toList

/-- All that the end of a segment does. -/
theorem segmentEnd_eq (z : Option Int) (s : State) :
    segmentEnd z s =
      { emitAll (endEvents s.emt.recOpen z) s with emt := { s.emt with recOpen := false } } := by
  unfold segmentEnd endEvents
  split
  · rfl
  · rename_i h
    have h' : s.emt = { s.emt with recOpen := false } := by
      cases he : s.emt; simp_all
    cases z <;> simp [← h', emit]

section
variable (z : Option Int) (s : State)
@[simp] theorem segmentEnd_cfg : (segmentEnd z s).cfg = s.cfg := by simp [segmentEnd_eq]
@[simp] theorem segmentEnd_rom : (segmentEnd z s).rom = s.rom := by simp [segmentEnd_eq]
@[simp] theorem segmentEnd_pending : (segmentEnd z s).pending = s.pending := by simp [segmentEnd_eq]
@[simp] theorem segmentEnd_det : (segmentEnd z s).det = s.det := by simp [segmentEnd_eq]
@[simp] theorem segmentEnd_cls : (segmentEnd z s).cls = s.cls := by simp [segmentEnd_eq]
@[simp] theorem segmentEnd_rcv : (segmentEnd z s).rcv = s.rcv := by simp [segmentEnd_eq]
@[simp] theorem segmentEnd_frm : (segmentEnd z s).frm = s.frm := by simp [segmentEnd_eq]
@[simp] theorem segmentEnd_emt : (segmentEnd z s).emt = { s.emt with recOpen := false } := by
  simp [segmentEnd_eq]
@[simp] theorem segmentEnd_sts : (segmentEnd z s).sts = s.sts := by simp [segmentEnd_eq]
@[simp] theorem segmentEnd_past : (segmentEnd z s).past = s.past := by simp [segmentEnd_eq]
@[simp] theorem segmentEnd_eccReply : (segmentEnd z s).eccReply = s.eccReply := by simp [segmentEnd_eq]
@[simp] theorem segmentEnd_outs :
    (segmentEnd z s).io.outs = s.io.outs ++ endEvents s.emt.recOpen z := by simp [segmentEnd_eq]
@[simp] theorem segmentEnd_syTap : (segmentEnd z s).io.syTap = s.io.syTap := by simp [segmentEnd_eq]
@[simp] theorem segmentEnd_records_length :
    (segmentEnd z s).io.records.length = s.io.records.length := by
  simp only [segmentEnd_eq, endEvents]
  split <;> cases z <;> simp [recordsAfter]
end

/-- Freezing the last record, or nothing: the two things the end of a segment does to the records. -/
theorem endEvents_records (b : Bool) (z : Option Int) (rs : List Record) :
    (endEvents b z).foldl recordsAfter rs = rs ∨
    (endEvents b z).foldl recordsAfter rs = recordsAfter rs .recClose := by
  cases b <;> cases z <;> simp [endEvents, recordsAfter]

/-- A state with the same records, or with the last one frozen, reads the same bytes. -/
theorem readByte_frozen {s t : State}
    (h : t.io.records = s.io.records ∨ t.io.records = recordsAfter s.io.records .recClose) (k a : Nat) :
    readByte t k a = readByte s k a := by
  rcases h with h | h
  · exact readByte_congr h k a
  · rw [← readByte_recClose s k a]; exact readByte_congr h k a

/-- The end of a segment writes no byte. -/
theorem readByte_segmentEnd (z : Option Int) (s : State) (k a : Nat) :
    readByte (segmentEnd z s) k a = readByte s k a := by
  unfold segmentEnd
  split
  · exact readByte_recClose s k a
  · cases z <;> exact readByte_congr rfl k a

/-- All that the entry of a fault does (R266). -/
theorem raiseFault_eq (i : FaultInfo) (s : State) :
    raiseFault i s =
      { emitAll (faultEvent i :: endEvents s.emt.recOpen (zeroReport s.frm)) s with
        emt := { s.emt with recOpen := false }
        sts := setSticky i s.sts
        frm := { dropAssembly s.frm with mode := .abort } } := by
  simp [raiseFault, reportFault, segmentEnd_eq, emitAll_eq, emit]

/-- The entry of a fault writes no byte. -/
theorem readByte_raiseFault (i : FaultInfo) (s : State) (k a : Nat) :
    readByte (raiseFault i s) k a = readByte s k a := by
  unfold raiseFault reportFault
  rw [readByte_segmentEnd]
  cases i <;> exact readByte_congr rfl k a

theorem raiseFault_records_length (i : FaultInfo) (s : State) :
    (raiseFault i s).io.records.length = s.io.records.length := by
  unfold raiseFault reportFault
  rw [segmentEnd_records_length]
  cases i <;> rfl

/-- With a metric the zero report is the metric (R198). -/
theorem zeroReport_metric {f : Framer} {m : Int} (h : f.zeroMetric = some m) : zeroReport f = some m := by
  simp [zeroReport, h]

end Sys2Proof.Machine
end

