-- ==== Sys2Proof/Laws/Emitter.lean ====
section
/-! SUPPORT. What the record_byte_emitter can do, said once: the events of a chunk, and the burst of
events of one token with the emitter and the status it leaves. -/

namespace Sys2Proof.Machine

/-- The events that precede the corrections of a chunk (R241). -/
def headEvents (e : Emitter) (metric : Int) : List OutEvent :=
  if e.recOpen then [] else openingEvents e.recNo metric

/-- The emitter once a record is open (R241). -/
def openedEmitter (e : Emitter) : Emitter :=
  if e.recOpen then e else { recOpen := true, recNo := e.recNo + 1 }

/-- The events of `FE.CHUNK_OK`, in the order of R240. -/
def chunkEvents (e : Emitter) (chunk : Nat) (words : Words) (corr : Marks) (metric : Int) :
    List OutEvent :=
  headEvents e metric ++ correctionEvents chunk corr ++ byteEvents words

@[simp] theorem openedEmitter_recOpen (e : Emitter) : (openedEmitter e).recOpen = true := by
  unfold openedEmitter; split <;> simp_all

theorem openRecord_eq (metric : Int) (s : State) :
    openRecord metric s = { emitAll (headEvents s.emt metric) s with emt := openedEmitter s.emt } := by
  unfold openRecord headEvents openedEmitter
  split <;> simp

/-- All that a decoded chunk does (R240). -/
theorem chunkOk_eq (chunk : Nat) (words : Words) (corr : Marks) (metric : Int) (s : State) :
    chunkOk chunk words corr metric s =
      { emitAll (chunkEvents s.emt chunk words corr metric) s with
        emt := openedEmitter s.emt
        sts := { s.sts with
          correctedCount := s.sts.correctedCount + (correctionEvents chunk corr).length } } := by
  simp [chunkOk, reportCorrections, openRecord_eq, chunkEvents, emitAll_eq, List.foldl_append]

/-! ## Counting the events -/

@[simp] theorem byteEvents_length (words : Words) : (byteEvents words).length = 64 := by
  have h : ∀ l : List DataWord, (l.flatMap wordEvents).length = 2 * l.length := by
    intro l
    induction l with
    | nil => rfl
    | cons d ds ih => simp [wordEvents, ih]; omega
  simp [byteEvents, h]

theorem correctionEvents_length_le (chunk : Nat) (corr : Marks) :
    (correctionEvents chunk corr).length ≤ 32 := by
  unfold correctionEvents
  rw [List.length_map]
  exact (List.length_filter_le _ _).trans (by simp)

theorem headEvents_length_le (e : Emitter) (metric : Int) : (headEvents e metric).length ≤ 2 := by
  unfold headEvents openingEvents; split <;> simp

theorem endEvents_length_le (b : Bool) (z : Option Int) : (endEvents b z).length ≤ 1 := by
  unfold endEvents; cases b <;> cases z <;> simp

/-- Byte `2j` of a chunk is the high byte of word `j`, byte `2j + 1` its low byte (R67, R242). -/
theorem byteEvents_getElem? (words : Words) (j : Fin 32) :
    (byteEvents words)[2 * j.val]? = some (.byte (highByte words[j])) ∧
    (byteEvents words)[2 * j.val + 1]? = some (.byte (lowByte words[j])) := by
  have h : ∀ (l : List DataWord) (n : Nat) (d : DataWord), l[n]? = some d →
      (l.flatMap wordEvents)[2 * n]? = some (.byte (highByte d)) ∧
      (l.flatMap wordEvents)[2 * n + 1]? = some (.byte (lowByte d)) := by
    intro l
    induction l with
    | nil => simp
    | cons a as ih =>
      intro n d hd
      cases n with
      | zero => simp_all [wordEvents]
      | succ n =>
        have := ih n d (by simpa using hd)
        simpa [wordEvents, Nat.mul_succ] using this
  exact h words.toList j.val words[j] (by simp)

/-- The bytes of the word as numbers (R100). -/
theorem highByte_eq (d : DataWord) : highByte d = BitVec.ofNat 8 (d.toNat / 256) := by
  apply BitVec.eq_of_toNat_eq
  simp [highByte, outWordOf, Nat.shiftRight_eq_div_pow]
  omega

theorem lowByte_eq (d : DataWord) : lowByte d = BitVec.ofNat 8 (d.toNat % 256) := by
  apply BitVec.eq_of_toNat_eq
  simp [lowByte, outWordOf]

/-- No event of a chunk reports a fault. -/
theorem chunkEvents_no_fault (e : Emitter) (chunk : Nat) (words : Words) (corr : Marks) (metric : Int) :
    (chunkEvents e chunk words corr metric).filter isFaultReport = [] := by
  rw [List.filter_eq_nil_iff]
  intro x hx
  simp only [chunkEvents, List.mem_append] at hx
  rcases hx with (hx | hx) | hx
  · unfold headEvents openingEvents at hx
    split at hx
    · cases hx
    · rcases List.mem_cons.1 hx with rfl | hx
      · simp [isFaultReport]
      · rcases List.mem_singleton.1 hx with rfl; simp [isFaultReport]
  · obtain ⟨j, -, rfl⟩ := List.mem_map.1 hx
    simp [isFaultReport]
  · obtain ⟨d, -, hd⟩ := List.mem_flatMap.1 hx
    simp only [wordEvents, List.mem_cons, List.not_mem_nil, or_false] at hd
    rcases hd with rfl | rfl <;> simp [isFaultReport]

theorem endEvents_no_fault (b : Bool) (z : Option Int) : (endEvents b z).filter isFaultReport = [] := by
  cases b <;> cases z <;> simp [endEvents, isFaultReport]

/-! ## Bytes into the open record -/

/-- The bytes a list of byte events carries. -/
def bytesOf (words : Words) : List Byte := words.toList.flatMap fun d => [highByte d, lowByte d]

theorem byteEvents_eq_map (words : Words) : byteEvents words = (bytesOf words).map OutEvent.byte := by
  have h : ∀ l : List DataWord,
      l.flatMap wordEvents = (l.flatMap fun d => [highByte d, lowByte d]).map OutEvent.byte := by
    intro l
    induction l with
    | nil => rfl
    | cons d ds ih => simp [wordEvents, ih]
  exact h _

@[simp] theorem bytesOf_length (words : Words) : (bytesOf words).length = 64 := by
  have := byteEvents_length words
  rwa [byteEvents_eq_map, List.length_map] at this

theorem bytesOf_getElem? (words : Words) (j : Fin 32) :
    (bytesOf words)[2 * j.val]? = some (highByte words[j]) ∧
    (bytesOf words)[2 * j.val + 1]? = some (lowByte words[j]) := by
  have h := byteEvents_getElem? words j
  simpa [byteEvents_eq_map] using h

/-- Byte events go to the end of the last record, in their order (R66). -/
theorem foldl_byte_concat (bs : List Byte) (older : List Record) (r : Record) :
    (bs.map OutEvent.byte).foldl recordsAfter (older ++ [r]) =
      older ++ [{ r with bytes := r.bytes ++ bs }] := by
  induction bs generalizing r with
  | nil => simp
  | cons b bs ih => simp [recordsAfter, ih]

/-- Correction reports write no record. -/
theorem foldl_corrections (chunk : Nat) (corr : Marks) (rs : List Record) :
    (correctionEvents chunk corr).foldl recordsAfter rs = rs := by
  unfold correctionEvents
  induction (List.finRange 32).filter fun j => corr[j] with
  | nil => rfl
  | cons j js ih => simpa [recordsAfter] using ih

/-- The records after a decoded chunk, when the emitter's elements and the space agree: 64 bytes more
in the record that is open, or in a new one. -/
theorem chunk_records (chunk : Nat) (words : Words) (corr : Marks) (metric : Int) (s : State)
    (h : EmitterInv s) : ∃ older r,
      s.io.records = (if s.emt.recOpen = true then older ++ [r] else older) ∧
      (s.emt.recOpen = false → r = {}) ∧ r.frozen = false ∧
      (chunkOk chunk words corr metric s).io.records = older ++ [{ r with bytes := r.bytes ++ bytesOf words }] := by
  obtain ⟨hn, ho, -⟩ := h
  rw [chunkOk_eq]
  simp only [emitAll_records, chunkEvents, List.foldl_append, foldl_corrections, byteEvents_eq_map]
  cases hopen : s.emt.recOpen
  · exact ⟨s.io.records, {}, by simp, by simp, rfl, by
      simp [headEvents, hopen, openingEvents, hn, recordsAfter, foldl_byte_concat]⟩
  · rw [hopen] at ho
    obtain ⟨older, bytes, hr⟩ := (recordOpen_iff _).1 ho.symm
    exact ⟨older, ⟨bytes, false⟩, by simp [hr], by simp, rfl, by
      simp [headEvents, hopen, hr, foldl_byte_concat]⟩

/-! ## The burst of one token -/

/-- Everything a token of the `SY` or `FE` channel can make the emitter do: the events, the emitter it
leaves, and the status it leaves. -/
inductive Burst (e : Emitter) (st : Status) : List OutEvent → Emitter → Status → Prop where
  /-- nothing -/
  | silent : Burst e st [] e st
  /-- the end of a segment (R244) -/
  | segEnd (z : Option Int) : Burst e st (endEvents e.recOpen z) { e with recOpen := false } st
  /-- the entry of a fault (R266) -/
  | fault (i : FaultInfo) (z : Option Int) :
      Burst e st (faultEvent i :: endEvents e.recOpen z) { e with recOpen := false } (setSticky i st)
  /-- a decoded chunk (R240) -/
  | chunk (k : Nat) (words : Words) (corr : Marks) (m : Int) :
      Burst e st (chunkEvents e k words corr m) (openedEmitter e)
        { st with correctedCount := st.correctedCount + (correctionEvents k corr).length }
  /-- the end of the run outside a segment (R247) -/
  | endRun : Burst e st [.endRun] e st
  /-- the end of the run inside a segment (R197) -/
  | segEndRun (z : Option Int) :
      Burst e st (endEvents e.recOpen z ++ [.endRun]) { e with recOpen := false } st

/-- R295: at most 98 events. -/
theorem Burst.length_le {e e' : Emitter} {st st' : Status} {es : List OutEvent}
    (h : Burst e st es e' st') : es.length ≤ 98 := by
  cases h with
  | silent => simp
  | segEnd z => have := endEvents_length_le e.recOpen z; omega
  | fault i z => have := endEvents_length_le e.recOpen z; simp; omega
  | chunk k words corr m =>
    have := correctionEvents_length_le k corr
    have := headEvents_length_le e m
    simp [chunkEvents]; omega
  | endRun => simp
  | segEndRun z => have := endEvents_length_le e.recOpen z; simp; omega

/-- R265: at most one report of a fault. -/
theorem Burst.one_fault {e e' : Emitter} {st st' : Status} {es : List OutEvent}
    (h : Burst e st es e' st') : (es.filter isFaultReport).length ≤ 1 := by
  cases h with
  | silent => simp
  | segEnd z => simp [endEvents_no_fault]
  | fault i z =>
    have := endEvents_no_fault e.recOpen z
    simp only [List.filter_cons]
    split <;> simp [this]
  | chunk k words corr m => simp [chunkEvents_no_fault]
  | endRun => simp [isFaultReport]
  | segEndRun z => simp [List.filter_append, endEvents_no_fault, isFaultReport]

/-- What a burst leaves of the status: no sticky flag falls, the count does not fall, `done` stands. -/
theorem Burst.status {e e' : Emitter} {st st' : Status} {es : List OutEvent}
    (h : Burst e st es e' st') :
    (st.errFraming = true → st'.errFraming = true) ∧ (st.errEcc = true → st'.errEcc = true) ∧
      st.correctedCount ≤ st'.correctedCount ∧ st'.done = st.done ∧ e.recNo ≤ e'.recNo := by
  cases h with
  | silent => simp
  | segEnd z => simp
  | fault i z => cases i <;> simp [setSticky]
  | chunk k words corr m => simp [openedEmitter]; split <;> simp
  | endRun => simp
  | segEndRun z => simp

end Sys2Proof.Machine
end

