-- ==== Sys2Proof/Laws/Framer.lean ====
section
/-! SUPPORT. What the synchronization_framer can do, said once: the five outcomes of a row bit, and
the effect of one symbol on the whole state. -/

namespace Sys2Proof.Machine

/-! ## Row bits -/

/-- The framer once a row bit is stored (R189). -/
def collected (b : Bool) (pos : Nat) (f : Framer) : Framer :=
  { f with
    rowStart := if f.rowbits = [] then pos else f.rowStart
    rowbits := f.rowbits ++ [b] }

/-- The row a bit completes (R97, R190). -/
def completedRow (b : Bool) (f : Framer) : RowWord := assembleRow (f.rowbits ++ [b])

theorem rowBit_collect {b : Bool} {pos : Nat} {s : State} (h : s.frm.rowbits.length ≠ 36) :
    rowBit b pos s = .next { s with frm := collected b pos s.frm } := by
  unfold rowBit
  simp [collected, h]

/-- A completed row with another prefix raises the framing fault (R190). -/
theorem rowBit_badPrefix {b : Bool} {pos : Nat} {s : State} (h : s.frm.rowbits.length = 36)
    (hp : rowPrefix (completedRow b s.frm) ≠ framingPrefix) :
    rowBit b pos s = .next
      (raiseFault
        (.framing (s.frm.segNo - 1) (15 * s.frm.chunkIndex + s.frm.rows.length)
          (collected b pos s.frm).rowStart)
        { s with frm := { collected b pos s.frm with rowbits := [] } }) := by
  unfold rowBit rowDone
  simp only [List.length_append, h, List.length_singleton, if_true]
  rw [if_neg (by simpa [completedRow] using hp)]
  rfl

/-- A completed row with the framing prefix that is not the fifteenth joins the chunk (R190). -/
theorem rowBit_join {b : Bool} {pos : Nat} {s : State} (h : s.frm.rowbits.length = 36)
    (hp : rowPrefix (completedRow b s.frm) = framingPrefix) (hr : s.frm.rows.length ≠ 14) :
    rowBit b pos s = .next
      { s with frm := { collected b pos s.frm with
          rowbits := []
          rows := s.frm.rows ++ [rowPayload (completedRow b s.frm)] } } := by
  unfold rowBit rowDone
  simp only [List.length_append, h, List.length_singleton, if_true]
  rw [if_pos (by simpa [completedRow] using hp)]
  simp [hr, collected, completedRow]

/-- The fifteenth row of a chunk goes with the others to the decoder (R190, R191). -/
theorem rowBit_chunk {b : Bool} {pos : Nat} {s : State} (p : Chunk) (h : s.frm.rowbits.length = 36)
    (hp : rowPrefix (completedRow b s.frm) = framingPrefix)
    (hr : p.toList = s.frm.rows ++ [rowPayload (completedRow b s.frm)]) :
    rowBit b pos s = chunkDone p
      { s with frm := { collected b pos s.frm with rowbits := [], rows := p.toList } } := by
  have hl : s.frm.rows.length = 14 := by
    have := congrArg List.length hr
    simp at this
    omega
  have hp' : p = ⟨⟨s.frm.rows ++ [rowPayload (completedRow b s.frm)]⟩, by simp [hl]⟩ := by
    apply Vector.toList_inj.1
    rw [hr]
    rfl
  unfold rowBit rowDone
  simp only [List.length_append, h, List.length_singleton, if_true]
  rw [if_pos (by simpa [completedRow] using hp)]
  subst hp'
  simp [hl, collected, completedRow]

/-- The two outcomes of a chunk that is handed on (R191). -/
theorem chunkDone_next {p : Chunk} {s t : State} (h : chunkDone p s = .next t) :
    (∃ col, eccResult s.rom p = .fail col ∧
      t = raiseFault (.ecc (s.frm.segNo - 1) s.frm.chunkIndex col)
        (reply (.result (.fail col)) { s with frm := { s.frm with rows := [] } })) ∨
    (∃ words corr m, eccResult s.rom p = .ok words corr ∧ s.frm.zeroMetric = some m ∧
      t = { chunkOk s.frm.chunkIndex words corr m
              (reply (.result (.ok words corr)) { s with frm := { s.frm with rows := [] } }) with
            frm := { s.frm with rows := [], chunkIndex := s.frm.chunkIndex + 1 } }) := by
  unfold chunkDone at h
  simp only at h
  split at h
  · rename_i col hc
    exact .inl ⟨col, hc, (Host.Outcome.next.inj h).symm⟩
  · rename_i words corr hc
    split at h
    · cases h
    · rename_i m hm
      refine .inr ⟨words, corr, m, hc, hm, ?_⟩
      rw [← Host.Outcome.next.inj h]
      simp [chunkOk_eq, reply]

/-- The only refusal of a chunk is that of a missing metric, which no run meets (R45). -/
theorem chunkDone_completes {p : Chunk} {s : State} (h : s.frm.zeroMetric ≠ none) :
    ∃ t, chunkDone p s = .next t := by
  obtain ⟨m, hm⟩ := Option.ne_none_iff_exists'.1 h
  unfold chunkDone
  simp only
  split
  · exact ⟨_, rfl⟩
  · rw [hm]; exact ⟨_, rfl⟩

/-- The outcomes of a row bit (R189 to R191). -/
theorem rowBit_next {b : Bool} {pos : Nat} {s t : State} (h : rowBit b pos s = .next t) :
    (s.frm.rowbits.length ≠ 36 ∧ t = { s with frm := collected b pos s.frm }) ∨
    (s.frm.rowbits.length = 36 ∧ rowPrefix (completedRow b s.frm) ≠ framingPrefix ∧
      t = raiseFault
        (.framing (s.frm.segNo - 1) (15 * s.frm.chunkIndex + s.frm.rows.length)
          (collected b pos s.frm).rowStart)
        { s with frm := { collected b pos s.frm with rowbits := [] } }) ∨
    (s.frm.rowbits.length = 36 ∧ rowPrefix (completedRow b s.frm) = framingPrefix ∧
      s.frm.rows.length ≠ 14 ∧
      t = { s with frm := { collected b pos s.frm with
              rowbits := []
              rows := s.frm.rows ++ [rowPayload (completedRow b s.frm)] } }) ∨
    (∃ p : Chunk, s.frm.rowbits.length = 36 ∧ rowPrefix (completedRow b s.frm) = framingPrefix ∧
      p.toList = s.frm.rows ++ [rowPayload (completedRow b s.frm)] ∧
      chunkDone p { s with frm := { collected b pos s.frm with rowbits := [], rows := p.toList } } =
        .next t) := by
  by_cases hl : s.frm.rowbits.length = 36
  · by_cases hp : rowPrefix (completedRow b s.frm) = framingPrefix
    · by_cases hr : s.frm.rows.length = 14
      · have hlen : (s.frm.rows ++ [rowPayload (completedRow b s.frm)]).length = 15 := by simp [hr]
        refine .inr (.inr (.inr ⟨⟨⟨s.frm.rows ++ [rowPayload (completedRow b s.frm)]⟩, hlen⟩, hl, hp,
          rfl, ?_⟩))
        rw [← rowBit_chunk _ hl hp rfl]
        exact h
      · rw [rowBit_join hl hp hr] at h
        exact .inr (.inr (.inl ⟨hl, hp, hr, (Host.Outcome.next.inj h).symm⟩))
    · rw [rowBit_badPrefix hl hp] at h
      exact .inr (.inl ⟨hl, hp, (Host.Outcome.next.inj h).symm⟩)
  · rw [rowBit_collect hl] at h
    exact .inl ⟨hl, (Host.Outcome.next.inj h).symm⟩

/-- A row bit completes in every state with a metric. -/
theorem rowBit_completes {b : Bool} {pos : Nat} {s : State} (h : s.frm.zeroMetric ≠ none) :
    ∃ t, rowBit b pos s = .next t := by
  by_cases hl : s.frm.rowbits.length = 36
  · by_cases hp : rowPrefix (completedRow b s.frm) = framingPrefix
    · by_cases hr : s.frm.rows.length = 14
      · have hlen : (s.frm.rows ++ [rowPayload (completedRow b s.frm)]).length = 15 := by simp [hr]
        rw [rowBit_chunk ⟨⟨_⟩, hlen⟩ hl hp rfl]
        exact chunkDone_completes (by simpa [collected] using h)
      · exact ⟨_, rowBit_join hl hp hr⟩
    · exact ⟨_, rowBit_badPrefix hl hp⟩
  · exact ⟨_, rowBit_collect hl⟩

/-! ## The effect of a symbol -/

/-- What one token of the pipeline can do beyond the detector, the classifier and the recoverer: at
most one symbol on the tap, a burst of the emitter, a new framer state, a new reply. -/
def Effect (s t : State) : Prop :=
  ∃ (ys : List SySymbol) (es : List OutEvent) (f : Framer) (e : Emitter) (st : Status)
    (r : Option EccReply),
    ys.length ≤ 1 ∧ Burst s.emt s.sts es e st ∧ s.frm.segNo ≤ f.segNo ∧
    t = { s with
          frm := f, emt := e, sts := st, eccReply := r
          io := { outs := s.io.outs ++ es, syTap := s.io.syTap ++ ys,
                  records := es.foldl recordsAfter s.io.records,
                  manifest := s.io.manifest ++ es.flatMap linesOf } }

theorem Effect.refl (s : State) : Effect s s :=
  ⟨[], [], s.frm, s.emt, s.sts, s.eccReply, by simp, .silent, le_refl _, by simp⟩

/-- A decoded chunk, and the end of a segment, are bursts of the emitter. -/
theorem chunkOk_effect (chunk : Nat) (words : Words) (corr : Marks) (metric : Int) (s : State) :
    Effect s (chunkOk chunk words corr metric s) :=
  ⟨[], _, s.frm, _, _, s.eccReply, by simp, .chunk chunk words corr metric, le_refl _, by
    simp [chunkOk_eq, emitAll_eq]⟩

theorem segmentEnd_effect (z : Option Int) (s : State) : Effect s (segmentEnd z s) :=
  ⟨[], _, s.frm, _, s.sts, s.eccReply, by simp, .segEnd z, le_refl _, by
    simp [segmentEnd_eq, emitAll_eq]⟩

/-- A symbol on the tap and a new framer state. -/
theorem effect_frame {s : State} {y : SySymbol} {f : Framer} (h : s.frm.segNo ≤ f.segNo) :
    Effect s { tap y s with frm := f } :=
  ⟨[y], [], f, s.emt, s.sts, s.eccReply, by simp, .silent, h, by simp [tap]⟩

/-- A symbol on the tap, then the entry of a fault. -/
theorem effect_fault {s : State} {y : SySymbol} {f : Framer} {i : FaultInfo} {r : Option EccReply}
    (h : s.frm.segNo ≤ f.segNo) :
    Effect s (raiseFault i { tap y s with frm := f, eccReply := r }) :=
  ⟨[y], _, { dropAssembly f with mode := .abort }, _, _, r, by simp,
    .fault i (zeroReport f), h, by simp [raiseFault_eq, emitAll_eq, tap]⟩

/-- A symbol on the tap, then the end of the segment. -/
theorem effect_segTerminate {s : State} {y : SySymbol} : Effect s (segTerminate (tap y s)) :=
  ⟨[y], _, { dropAssembly s.frm with mode := .idle }, _, _, s.eccReply, by simp,
    .segEnd (zeroReport s.frm), le_refl _, by simp [segTerminate, segmentEnd_eq, emitAll_eq, tap]⟩

theorem rowBit_effect {b : Bool} {pos : Nat} {y : SySymbol} {s t : State} {f : Framer}
    (hseg : s.frm.segNo ≤ f.segNo) (h : rowBit b pos { tap y s with frm := f } = .next t) :
    Effect s t := by
  rcases rowBit_next h with ⟨-, rfl⟩ | ⟨-, -, rfl⟩ | ⟨-, -, -, rfl⟩ | ⟨p, -, -, -, hc⟩
  · exact effect_frame (f := collected b pos f) hseg
  · exact effect_fault (f := { collected b pos f with rowbits := [] }) (r := s.eccReply) hseg
  · exact effect_frame (f := { collected b pos f with
      rowbits := [], rows := f.rows ++ [rowPayload (completedRow b f)] }) hseg
  · rcases chunkDone_next hc with ⟨col, -, rfl⟩ | ⟨words, corr, m, -, -, rfl⟩
    · exact effect_fault (f := { collected b pos f with rowbits := [], rows := [] })
        (r := some (.result (.fail col))) hseg
    · exact ⟨[y], _,
        { collected b pos f with rowbits := [], rows := [], chunkIndex := f.chunkIndex + 1 }, _, _,
        some (.result (.ok words corr)), by simp, .chunk f.chunkIndex words corr m, hseg, by
          simp [chunkOk_eq, emitAll_eq, tap, reply, collected]⟩

theorem symbolBit_effect {b : Bool} {y : SySymbol} {s t : State}
    (h : symbolBit b (tap y s) = .next t) : Effect s t := by
  unfold symbolBit at h
  simp only [tap_frm] at h
  split at h
  · cases h
  · rw [← Host.Outcome.next.inj h]
    refine effect_frame (f := huntBit s.rom.preamble b { s.frm with symPos := s.frm.symPos + 1 }) ?_
    unfold huntBit
    simp only
    split <;> exact le_refl _
  · exact rowBit_effect (f := { s.frm with symPos := s.frm.symPos + 1 }) (le_refl _) h
  · rw [← Host.Outcome.next.inj h]
    exact effect_frame (f := s.frm) (le_refl _)

theorem symbolAnomaly_effect {y : SySymbol} {s t : State}
    (h : symbolAnomaly (tap y s) = .next t) : Effect s t := by
  have hseg : ∀ f : Framer, (anomaly f).segNo = f.segNo := by
    intro f; unfold anomaly; split <;> rfl
  unfold symbolAnomaly at h
  simp only [tap_frm] at h
  split at h
  · cases h
  · rw [← Host.Outcome.next.inj h]
    exact effect_frame (f := anomaly { s.frm with symPos := s.frm.symPos + 1 }) (by simp [hseg])
  · rw [← Host.Outcome.next.inj h]
    exact effect_frame (f := anomaly { s.frm with symPos := s.frm.symPos + 1 }) (by simp [hseg])
  · rw [← Host.Outcome.next.inj h]
    exact effect_frame (f := s.frm) (le_refl _)

theorem sendGap_effect {s t : State} (h : sendGap s = .next t) : Effect s t := by
  unfold sendGap at h
  simp only [tap_frm] at h
  split at h
  · cases h
  · rw [← Host.Outcome.next.inj h]; exact effect_segTerminate
  · rw [← Host.Outcome.next.inj h]; exact effect_segTerminate
  · rw [← Host.Outcome.next.inj h]
    exact effect_frame (f := { s.frm with mode := .idle }) (le_refl _)

theorem sendSegstart_effect {time : Rat} {s t : State} (h : sendSegstart time s = .next t) :
    Effect s t := by
  unfold sendSegstart at h
  simp only [tap_frm] at h
  split at h
  · rw [← Host.Outcome.next.inj h]
    exact effect_frame (f := segmentStart s.frm) (by simp)
  all_goals cases h

/-- The events that precede `OUT.END` when the symbols end (R197). -/
def lastEvents (s : State) : List OutEvent :=
  if s.frm.mode = .hunt ∨ s.frm.mode = .synced then endEvents s.emt.recOpen (zeroReport s.frm) else []

/-- The framer and the emitter when the symbols end (R197, R198). -/
def idledFramer (f : Framer) : Framer :=
  { (if f.mode = .hunt ∨ f.mode = .synced then dropAssembly f else f) with mode := .idle }

/-- All that the end of the symbols does, in every mode: it always completes (R197). -/
theorem sendEos_eq (s : State) :
    sendEos s = .next
      { s with
        frm := idledFramer s.frm
        emt := if s.frm.mode = .hunt ∨ s.frm.mode = .synced then { s.emt with recOpen := false } else s.emt
        io := { outs := s.io.outs ++ (lastEvents s ++ [.endRun]), syTap := s.io.syTap ++ [.eos],
                records := (lastEvents s).foldl recordsAfter s.io.records,
                manifest := s.io.manifest ++ (lastEvents s).flatMap linesOf } } := by
  unfold sendEos lastEvents idledFramer
  cases hm : s.frm.mode
  · have : s.frm = { s.frm with mode := .idle } := by cases hf : s.frm; simp_all
    simpa [hm, endOfRun, emit, tap, recordsAfter, linesOf] using this
  · simp [hm, endOfRun, emit, tap, segTerminate, segmentEnd_eq, emitAll_eq, recordsAfter, linesOf]
  · simp [hm, endOfRun, emit, tap, segTerminate, segmentEnd_eq, emitAll_eq, recordsAfter, linesOf]
  · simp [hm, endOfRun, emit, tap, recordsAfter, linesOf]

theorem sendEos_effect {s t : State} (h : sendEos s = .next t) : Effect s t := by
  unfold sendEos at h
  simp only [tap_frm] at h
  split at h
  · rw [← Host.Outcome.next.inj h]
    exact ⟨[.eos], _, s.frm, s.emt, s.sts, s.eccReply, by simp, .endRun, le_refl _, by
      simp [endOfRun, emit, tap]⟩
  · rw [← Host.Outcome.next.inj h]
    exact ⟨[.eos], _, { dropAssembly s.frm with mode := .idle }, _, s.sts, s.eccReply, by simp,
      .segEndRun (zeroReport s.frm), le_refl _, by
      simp [endOfRun, emit, tap, segTerminate, segmentEnd_eq, emitAll_eq, List.foldl_append]⟩
  · rw [← Host.Outcome.next.inj h]
    exact ⟨[.eos], _, { dropAssembly s.frm with mode := .idle }, _, s.sts, s.eccReply, by simp,
      .segEndRun (zeroReport s.frm), le_refl _, by
      simp [endOfRun, emit, tap, segTerminate, segmentEnd_eq, emitAll_eq, List.foldl_append]⟩
  · rw [← Host.Outcome.next.inj h]
    exact ⟨[.eos], _, { s.frm with mode := .idle }, s.emt, s.sts, s.eccReply, by simp, .endRun,
      le_refl _, by simp [endOfRun, emit, tap]⟩

end Sys2Proof.Machine
end

