-- ==== Sys2Proof/Laws/Pipeline.lean ====
section
/-! SUPPORT. What the recoverer, the classifier and the detector can do, said once, in terms of the
effect of the one symbol they may send on. -/

namespace Sys2Proof.Machine

theorem neg_iff (v : Rat) : neg v = true ↔ v < 0 := by simp [neg]

/-- A transition between two samples is a change of the sign test (R133). -/
theorem signChange_iff (p y : Rat) : signChange p y = true ↔ ¬ (p < 0 ↔ y < 0) := by
  unfold signChange neg
  by_cases hp : p < 0 <;> by_cases hy : y < 0 <;> simp [hp, hy]

/-! ## Recoverer -/

theorem sendZero_effect {s t : State} (h : sendZero s = .next t) : Effect s t := symbolBit_effect h

theorem sendOne_effect {s t : State} (h : sendOne s = .next t) : Effect s t := symbolBit_effect h

/-- Every token of the `CL` channel writes the flag and sends on at most one symbol (R173, R174). -/
theorem beginSegment_effect {time : Rat} {s t : State} (h : beginSegment time s = .next t) :
    Effect (setExpecting false s) t := sendSegstart_effect h

theorem intervalLong_effect {s t : State} (h : intervalLong s = .next t) :
    Effect (setExpecting false s) t := by
  unfold intervalLong at h
  split at h
  · exact symbolAnomaly_effect h
  · rename_i he
    have : setExpecting false s = s := by
      cases hs : s; cases hr : s.rcv; simp_all [setExpecting]
    rw [this]
    exact sendZero_effect h

theorem intervalShort_effect {s t : State} (h : intervalShort s = .next t) :
    Effect (setExpecting (!s.rcv.expecting) s) t := by
  unfold intervalShort at h
  split at h
  · rename_i he
    rw [he]
    exact sendOne_effect h
  · rename_i he
    rw [← Host.Outcome.next.inj h, Bool.eq_false_iff.2 he]
    exact Effect.refl _

theorem intervalWide_effect {s t : State} (h : intervalWide s = .next t) :
    Effect (setExpecting false s) t := symbolAnomaly_effect h

theorem intervalMid_effect {s t : State} (h : intervalMid s = .next t) :
    Effect (setExpecting false s) t := symbolAnomaly_effect h

theorem intervalNarrow_effect {s t : State} (h : intervalNarrow s = .next t) :
    Effect (setExpecting false s) t := symbolAnomaly_effect h

theorem dropout_effect {s t : State} (h : dropout s = .next t) : Effect (setExpecting false s) t :=
  sendGap_effect h

theorem intervalsEnd_effect {s t : State} (h : intervalsEnd s = .next t) :
    Effect (setExpecting false s) t := sendEos_effect h

theorem sendInterval_effect {k : IntervalClass} {s t : State} (h : sendInterval k s = .next t) :
    ∃ b, Effect (setExpecting b s) t := by
  cases k
  · exact ⟨_, intervalNarrow_effect h⟩
  · exact ⟨_, intervalShort_effect h⟩
  · exact ⟨_, intervalMid_effect h⟩
  · exact ⟨_, intervalLong_effect h⟩
  · exact ⟨_, intervalWide_effect h⟩

/-! ## Classifier -/

/-- A transition writes `last` and the flag, and sends on at most one symbol (R150). -/
theorem transition_effect {ifrac energy : Rat} {s t : State} (h : transition ifrac energy s = .next t) :
    ∃ (c : Classifier) (b : Bool), Effect (setExpecting b { s with cls := c }) t := by
  unfold transition at h
  split at h
  · simp only at h
    split at h
    · exact ⟨_, _, beginSegment_effect h⟩
    · obtain ⟨b, hb⟩ := sendInterval_effect h
      exact ⟨_, b, hb⟩
  · split at h
    · rw [← Host.Outcome.next.inj h]
      exact ⟨s.cls, s.rcv.expecting, Effect.refl _⟩
    · exact ⟨_, _, dropout_effect h⟩

theorem transitionsEnd_effect {s t : State} (h : transitionsEnd s = .next t) :
    Effect (setExpecting false { s with cls := { last := none } }) t := intervalsEnd_effect h

/-! ## Detector -/

/-- A corrected sample joins the energy buffer, becomes `prev`, and may make one transition. -/
theorem correctedSample_next {i : Int} {y : Rat} {s t : State} (h : correctedSample i y s = .next t) :
    let u := { s with det := { s.det with
      ebuf := push s.det.ebuf (energyLen s.cfg) y, prev := some y } }
    t = u ∨ ∃ p, s.det.prev = some p ∧ signChange p y = true ∧ energyFull s.cfg u.det.ebuf = true ∧
      transition (interpolate i p y) (energyOf u.det.ebuf) u = .next t := by
  intro u
  unfold correctedSample at h
  simp only at h
  split at h
  · exact .inl (Host.Outcome.next.inj h).symm
  · rename_i p hp
    split at h
    · rename_i hc
      rw [Bool.and_eq_true] at hc
      exact .inr ⟨p, hp, hc.1, hc.2, h⟩
    · exact .inl (Host.Outcome.next.inj h).symm

theorem correctedSample_effect {i : Int} {y : Rat} {s t : State} (h : correctedSample i y s = .next t) :
    ∃ (d : Detector) (c : Classifier) (b : Bool), d.n = s.det.n ∧
      Effect (setExpecting b { s with det := d, cls := c }) t := by
  rcases correctedSample_next h with rfl | ⟨p, -, -, -, ht⟩
  · exact ⟨{ s.det with ebuf := push s.det.ebuf (energyLen s.cfg) y, prev := some y }, s.cls,
      s.rcv.expecting, rfl, Effect.refl _⟩
  · obtain ⟨c, b, hb⟩ := transition_effect ht
    exact ⟨{ s.det with ebuf := push s.det.ebuf (energyLen s.cfg) y, prev := some y }, c, b, rfl, hb⟩

/-- A sample advances the counter, writes the detector, and sends on at most one symbol (R130). -/
theorem acceptSample_effect {x : Int} {s t : State} (h : acceptSample x s = .next t) :
    ∃ (d : Detector) (c : Classifier) (b : Bool), d.n = s.det.n + 1 ∧
      Effect (setExpecting b { s with det := d, cls := c }) t := by
  unfold acceptSample at h
  simp only at h
  split at h
  · split at h
    · rw [← Host.Outcome.next.inj h]
      exact ⟨{ s.det with n := s.det.n + 1, dcbuf := push s.det.dcbuf (dcLen s.cfg) x }, s.cls,
        s.rcv.expecting, rfl, Effect.refl _⟩
    · obtain ⟨d, c, b, hd, hb⟩ := correctedSample_effect h
      exact ⟨d, c, b, hd, hb⟩
  · obtain ⟨d, c, b, hd, hb⟩ := correctedSample_effect h
    exact ⟨d, c, b, hd, hb⟩

/-- All that the end of input does: it always completes (R137). -/
theorem acceptEos_eq (s : State) : ∃ t,
    sendEos (setExpecting false { s with cls := { last := none } }) = .next t ∧
    acceptEos s = .next (setDone t) := by
  obtain ⟨t, ht⟩ : ∃ t, sendEos (setExpecting false { s with cls := { last := none } }) = .next t :=
    ⟨_, sendEos_eq _⟩
  exact ⟨t, ht, by
    unfold acceptEos transitionsEnd intervalsEnd
    rw [ht]
    rfl⟩

/-! ## Bits one after another -/

theorem sendBit_effect {b : Bool} {s t : State} (h : sendBit b s = .next t) : Effect s t := by
  cases b
  · exact sendZero_effect h
  · exact sendOne_effect h

theorem sendBits_cons {b : Bool} {bs : List Bool} {s t : State} :
    sendBits (b :: bs) s = .next t ↔ ∃ u, sendBit b s = .next u ∧ sendBits bs u = .next t := by
  simp only [sendBits]
  split <;> simp_all

theorem sendBits_append {as bs : List Bool} {s t : State} :
    sendBits (as ++ bs) s = .next t ↔ ∃ u, sendBits as s = .next u ∧ sendBits bs u = .next t := by
  induction as generalizing s with
  | nil => simp [sendBits]
  | cons a as ih =>
    simp only [List.cons_append, sendBits_cons, ih]
    constructor
    · rintro ⟨u, hu, v, hv, ht⟩; exact ⟨v, ⟨u, hu, hv⟩, ht⟩
    · rintro ⟨v, ⟨u, hu, hv⟩, ht⟩; exact ⟨u, hu, v, hv, ht⟩

/-- Bits that go on are followed by the rest from where they left. -/
theorem sendBits_append_of_next {as bs : List Bool} {s u : State} (h : sendBits as s = .next u) :
    sendBits (as ++ bs) s = sendBits bs u := by
  induction as generalizing s with
  | nil => rw [← Host.Outcome.next.inj h]; rfl
  | cons a as ih =>
    obtain ⟨v, hv, h⟩ := sendBits_cons.1 h
    rw [List.cons_append, sendBits, hv]
    exact ih h

theorem sendBits_singleton (b : Bool) (s : State) : sendBits [b] s = sendBit b s := by
  rw [sendBits]
  cases sendBit b s <;> rfl

/-- What every bit keeps, a list of bits keeps. -/
theorem sendBits_induct {P : State → Prop} (h : ∀ b s t, sendBit b s = .next t → P s → P t)
    {bs : List Bool} {s t : State} (ht : sendBits bs s = .next t) (hs : P s) : P t := by
  induction bs generalizing s with
  | nil => rw [← Host.Outcome.next.inj ht]; exact hs
  | cons b bs ih =>
    obtain ⟨u, hu, ht⟩ := sendBits_cons.1 ht
    exact ih ht (h b s u hu hs)

/-- The state once a synchronised framer has collected bits that complete no row (R189). -/
def afterBits (bs : List Bool) (s : State) : State :=
  { s with
    frm := { s.frm with
      symPos := s.frm.symPos + bs.length
      rowStart := if s.frm.rowbits = [] ∧ bs ≠ [] then s.frm.symPos else s.frm.rowStart
      rowbits := s.frm.rowbits ++ bs }
    io := { s.io with syTap := s.io.syTap ++ bs.map bitSymbol } }

theorem sendBit_collect {b : Bool} {s : State} (hm : s.frm.mode = .synced)
    (hl : s.frm.rowbits.length ≠ 36) : sendBit b s = .next (afterBits [b] s) := by
  cases b <;>
    · simp only [sendBit, sendOne, sendZero, symbolBit, tap_frm, hm, if_true, Bool.false_eq_true,
        if_false]
      rw [rowBit_collect (by simpa using hl)]
      simp [collected, tap, bitSymbol, afterBits, hm]

/-- Bits that a synchronised framer collects without completing a row (R189). -/
theorem sendBits_collect (bs : List Bool) (s : State) (hm : s.frm.mode = .synced)
    (hl : s.frm.rowbits.length + bs.length ≤ 36) : sendBits bs s = .next (afterBits bs s) := by
  induction bs generalizing s with
  | nil => simp [sendBits, afterBits]
  | cons b bs ih =>
    rw [List.length_cons] at hl
    refine sendBits_cons.2 ⟨_, sendBit_collect hm (by omega), ?_⟩
    refine (ih (afterBits [b] s) hm (by simp [afterBits]; omega)).trans ?_
    simp [afterBits, Nat.add_assoc, Nat.add_comm 1]

end Sys2Proof.Machine
end

