-- ==== Sys2Proof/Laws/Exec.lean ====
section
/-! SUPPORT. What `exec` does with any instruction, said once: the block takes the token, and then the
token's rule runs. -/

namespace Sys2Proof.Machine

/-- The rule of an instruction, run once the block has taken the token. -/
def ruleOf : Instr → State → Out
  | .inSample x => acceptSample x
  | .inEos => acceptEos
  | .trTrans ifrac energy => transition ifrac energy
  | .trEos => transitionsEnd
  | .clIvlNarrow => intervalNarrow
  | .clIvlShort => intervalShort
  | .clIvlMid => intervalMid
  | .clIvlLong => intervalLong
  | .clIvlWide => intervalWide
  | .clSegOpen time => beginSegment time
  | .clDropout => dropout
  | .clEos => intervalsEnd
  | .syZero => sendZero
  | .syOne => sendOne
  | .syGap => sendGap
  | .sySegstart time => sendSegstart time
  | .syAnomNarrow => sendAnomNarrow
  | .syAnomMid => sendAnomMid
  | .syAnomLong => sendAnomLong
  | .syAnomWide => sendAnomWide
  | .syEos => sendEos
  | .eccDecode p => fun s => .next (reply (.result (eccResult s.rom p)) s)
  | .feChunkOk chunk words corr metric => fun s => .next (chunkOk chunk words corr metric s)
  | .feSegEnd z => fun s => .next (segmentEnd z s)
  | .feFaultFraming seg row off z => fun s => .next (reportFault (.framing seg row off) z s)
  | .feFaultEcc seg chunk col z => fun s => .next (reportFault (.ecc seg chunk col) z s)
  | .feEos => fun s => .next (endOfRun s)
  | .outRecOpen k => fun s => .next (emit (.recOpen k) s)
  | .outZeroRun n => fun s => .next (emit (.zeroRun n) s)
  | .outCorrected chunk col => fun s => .next (emit (.corrected chunk col) s)
  | .outByte b => intoOpenRecord (.byte b)
  | .outRecClose => intoOpenRecord .recClose
  | .outErrFraming seg row off => fun s => .next (emit (.errFraming seg row off) s)
  | .outErrEcc seg chunk col => fun s => .next (emit (.errEcc seg chunk col) s)
  | .outEnd => fun s => .next (emit .endRun s)
  | .row pre payload => sendBits (bitsOf (rowOf pre payload))
  | .codeword syn data => fun s => .next (reply (.entry (eccEntry s.rom (syn ++ data))) s)
  | .outword data => fun s => if recordOpen s.io.records then .next (emitAll (wordEvents data) s) else .refused .noOpenRecord
  | .preamble bits => sendBits (bitsOf bits)

theorem exec_eq_present (i : Instr) (s : State) : exec i s = present s (ruleOf i) := by
  cases i <;> rfl

/-- A block that takes the token runs its rule. -/
theorem exec_accepting {s : State} (h : accepting s = true) (i : Instr) : exec i s = ruleOf i s := by
  rw [exec_eq_present, present_accepting h]

/-- An instruction that goes on was taken, and its rule went on. -/
theorem exec_next {i : Instr} {s t : State} :
    exec i s = .next t ↔ accepting s = true ∧ ruleOf i s = .next t := by
  rw [exec_eq_present, present_next]

/-- A bit is shown on the tap, then the framer looks at it (R186, R187). -/
theorem exec_bit {s : State} (h : accepting s = true) (b : Bool) :
    exec (bitInstr b) s = symbolBit b (tap (bitSymbol b) s) := by
  rw [exec_accepting h]
  cases b <;> rfl

/-- A bit shown on the tap and counted (R34). -/
def shownBit (b : Bool) (s : State) : State :=
  { tap (bitSymbol b) s with frm := { s.frm with symPos := s.frm.symPos + 1 } }

/-- A bit of a synchronised framer is a row bit (R189). -/
theorem exec_bit_synced {s : State} (h : accepting s = true) (hm : s.frm.mode = .synced) (b : Bool) :
    exec (bitInstr b) s = rowBit b s.frm.symPos (shownBit b s) := by
  rw [exec_bit h]
  simp [symbolBit, shownBit, hm]

theorem sendBit_synced {s : State} (hm : s.frm.mode = .synced) (b : Bool) :
    sendBit b s = rowBit b s.frm.symPos (shownBit b s) := by
  cases b <;> simp [sendBit, sendOne, sendZero, symbolBit, shownBit, hm, bitSymbol]

/-- A bit of a hunting framer enters the window (R188). -/
theorem sendBit_hunt {s : State} (hm : s.frm.mode = .hunt) (b : Bool) :
    sendBit b s = .next { tap (bitSymbol b) s with
      frm := huntBit s.rom.preamble b { s.frm with symPos := s.frm.symPos + 1 } } := by
  cases b <;> simp [sendBit, sendOne, sendZero, symbolBit, hm, bitSymbol]

/-- What a step that goes on has done: nothing, a pulse of reset, or an instruction. -/
theorem step_next {s t : State} (h : step s = .next t) :
    (s.pending = [] ∧ t = s) ∨
    (∃ rest, s.pending = .reset :: rest ∧ t = applyReset { s with pending := rest }) ∨
    (∃ p rest i, s.pending = .token p :: rest ∧ decode s.cfg p = .ok i ∧
      exec i { s with pending := rest } = .next t) := by
  unfold step fetch at h
  split at h
  · rename_i hf
    split at hf
    · rename_i hp; exact .inl ⟨hp, (Host.Outcome.next.inj h).symm⟩
    · cases hf
    · split at hf <;> cases hf
  · rename_i rest hf
    split at hf
    · cases hf
    · rename_i rest' hp
      cases hf
      exact .inr (.inl ⟨_, hp, (Host.Outcome.next.inj h).symm⟩)
    · split at hf <;> cases hf
  · rename_i i rest hf
    split at hf
    · cases hf
    · cases hf
    · rename_i p rest' hp
      split at hf
      · rename_i j hj
        cases hf
        exact .inr (.inr ⟨p, _, _, hp, hj, h⟩)
      · cases hf
  · cases h

/-- A property that every reset pulse gives and every instruction keeps, every step keeps. -/
theorem step_induct {P : State → Prop} {s t : State} (h : step s = .next t) (hs : P s)
    (hreset : ∀ u, P u → P (applyReset u))
    (hpending : ∀ u rest, P u → P { u with pending := rest })
    (hexec : ∀ i u v, P u → exec i u = .next v → P v) : P t := by
  rcases step_next h with ⟨-, rfl⟩ | ⟨rest, -, rfl⟩ | ⟨p, rest, i, -, -, hi⟩
  · exact hs
  · exact hreset _ (hpending s rest hs)
  · exact hexec i _ _ (hpending s rest hs) hi

/-- A relation that every move of the block respects holds between the two ends of every instruction:
the effect of a symbol or a burst, an update of the detector, the classifier and the recoverer, an
event, a reply, and the setting of `done`. -/
theorem exec_induct {R : State → State → Prop} (refl : ∀ s, R s s)
    (trans : ∀ {s t u}, R s t → R t u → R s u) (effect : ∀ {s t}, Effect s t → R s t)
    (front : ∀ (s : State) (d : Detector) (c : Classifier) (b : Bool), s.det.n ≤ d.n →
      R s (setExpecting b { s with det := d, cls := c }))
    (event : ∀ e s, R s (emit e s)) (answer : ∀ r s, R s (reply r s)) (finish : ∀ s, R s (setDone s))
    {i : Instr} {s t : State} (h : exec i s = .next t) : R s t := by
  obtain ⟨-, h⟩ := exec_next.1 h
  have rcv : ∀ (s : State) (b : Bool), R s (setExpecting b s) :=
    fun s b => front s s.det s.cls b (le_refl _)
  have events : ∀ es s, R s (emitAll es s) := by
    intro es
    induction es with
    | nil => exact refl
    | cons e es ih => exact fun s => trans (event e s) (ih _)
  have bits : ∀ bs, sendBits bs s = .next t → R s t := fun bs hb =>
    sendBits_induct (P := R s) (fun _ _ _ hv hu => trans hu (effect (sendBit_effect hv))) hb (refl s)
  cases i
  case inSample =>
    obtain ⟨d, c, b, hd, he⟩ := acceptSample_effect h
    exact trans (front s d c b (by omega)) (effect he)
  case inEos =>
    obtain ⟨u, hu, rfl⟩ := onNext_next.1 h
    exact trans (trans (front s s.det _ _ (le_refl _)) (effect (transitionsEnd_effect hu))) (finish _)
  case trTrans =>
    obtain ⟨c, b, he⟩ := transition_effect h
    exact trans (front s s.det c b (le_refl _)) (effect he)
  case trEos => exact trans (front s s.det _ _ (le_refl _)) (effect (transitionsEnd_effect h))
  case clIvlNarrow => exact trans (rcv _ _) (effect (intervalNarrow_effect h))
  case clIvlShort => exact trans (rcv _ _) (effect (intervalShort_effect h))
  case clIvlMid => exact trans (rcv _ _) (effect (intervalMid_effect h))
  case clIvlLong => exact trans (rcv _ _) (effect (intervalLong_effect h))
  case clIvlWide => exact trans (rcv _ _) (effect (intervalWide_effect h))
  case clSegOpen => exact trans (rcv _ _) (effect (beginSegment_effect h))
  case clDropout => exact trans (rcv _ _) (effect (dropout_effect h))
  case clEos => exact trans (rcv _ _) (effect (intervalsEnd_effect h))
  case syZero => exact effect (sendZero_effect h)
  case syOne => exact effect (sendOne_effect h)
  case syGap => exact effect (sendGap_effect h)
  case sySegstart => exact effect (sendSegstart_effect h)
  case syAnomNarrow => exact effect (symbolAnomaly_effect h)
  case syAnomMid => exact effect (symbolAnomaly_effect h)
  case syAnomLong => exact effect (symbolAnomaly_effect h)
  case syAnomWide => exact effect (symbolAnomaly_effect h)
  case syEos => exact effect (sendEos_effect h)
  case row => exact bits _ h
  case preamble => exact bits _ h
  case feChunkOk => rw [← Host.Outcome.next.inj h]; exact effect (chunkOk_effect _ _ _ _ _)
  case feSegEnd => rw [← Host.Outcome.next.inj h]; exact effect (segmentEnd_effect _ _)
  case feFaultFraming =>
    rw [← Host.Outcome.next.inj h]; exact trans (event _ s) (effect (segmentEnd_effect _ _))
  case feFaultEcc =>
    rw [← Host.Outcome.next.inj h]; exact trans (event _ s) (effect (segmentEnd_effect _ _))
  case feEos => rw [← Host.Outcome.next.inj h]; exact event _ _
  case outByte =>
    simp only [ruleOf, intoOpenRecord] at h
    split at h
    · rw [← Host.Outcome.next.inj h]; exact event _ _
    · cases h
  case outRecClose =>
    simp only [ruleOf, intoOpenRecord] at h
    split at h
    · rw [← Host.Outcome.next.inj h]; exact event _ _
    · cases h
  case outword =>
    simp only [ruleOf] at h
    split at h
    · rw [← Host.Outcome.next.inj h]; exact events _ _
    · cases h
  case eccDecode => rw [← Host.Outcome.next.inj h]; exact answer _ _
  case codeword => rw [← Host.Outcome.next.inj h]; exact answer _ _
  all_goals (rw [← Host.Outcome.next.inj h]; exact event _ _)

end Sys2Proof.Machine
end

