-- ==== Sys2Proof/Laws/Operands.lean ====
section
/-! SUPPORT. The small laws of the values the operations compute with: buffers, derived constants,
extremes, interpolation, bits of words and rows. -/

namespace Sys2Proof.Machine

/-! ## The sliding buffer -/

theorem push_eq {α : Type} (s : List α) (cap : Nat) (e : α) :
    push s cap e = if cap < s.length + 1 then (s ++ [e]).tail else s ++ [e] := by
  simp [push]

theorem push_length {α : Type} (s : List α) (cap : Nat) (e : α) :
    (push s cap e).length = if cap < s.length + 1 then s.length else s.length + 1 := by
  rw [push_eq]
  split <;> simp

/-- A buffer within its capacity stays within it. -/
theorem push_length_le {α : Type} {s : List α} {cap : Nat} (e : α) (h : s.length ≤ cap) :
    (push s cap e).length ≤ cap := by
  rw [push_length]
  split <;> omega

/-! ## Derived constants (R10) -/

theorem spb_eq (c : Config) : spb c = (c.sampleRate : Rat) / c.bitRate := by
  simp [spb, Rat.mkRat_eq_div]

theorem spb_pos {c : Config} (hs : 1 ≤ c.sampleRate) (hb : 1 ≤ c.bitRate) : 0 < spb c := by
  rw [spb_eq]
  have h1 : (0 : Rat) < c.sampleRate := by exact_mod_cast hs
  have h2 : (0 : Rat) < c.bitRate := by exact_mod_cast hb
  positivity

theorem ceil_toNat {r : Rat} (h : 0 ≤ r) : ((Rat.ceil r).toNat : Int) = ⌈r⌉ := by
  have : Rat.ceil r = ⌈r⌉ := by
    rw [Rat.ceil_eq_neg_floor_neg]; rfl
  rw [this, Int.toNat_of_nonneg (Int.ceil_nonneg h)]

theorem energyLen_eq (c : Config) : (energyLen c : Int) = ⌈spb c * 10⌉ := by
  have h : mkRat (c.sampleRate * 10) c.bitRate = spb c * 10 := by
    rw [spb_eq, Rat.mkRat_eq_div]
    push_cast
    ring
  unfold energyLen
  rw [ceil_toNat, h]
  rw [h, spb_eq]
  positivity

theorem dcLen_eq {c : Config} (hd : 0 < c.dcWindowBits) :
    (dcLen c : Int) = ⌈spb c * c.dcWindowBits⌉ := by
  have h : mkRat (c.sampleRate * c.dcWindowBits.num) (c.bitRate * c.dcWindowBits.den) =
      spb c * c.dcWindowBits := by
    rw [spb_eq, Rat.mkRat_eq_div]
    conv_rhs => rw [← Rat.num_div_den c.dcWindowBits]
    push_cast
    rw [div_mul_div_comm]
  unfold dcLen
  rw [ceil_toNat, h]
  rw [h, spb_eq]
  positivity

/-! ## Extremes of a buffer (R132) -/

theorem foldl_max_spec (xs : List Rat) (x : Rat) :
    let m := xs.foldl (fun m y => if m < y then y else m) x
    (m = x ∨ m ∈ xs) ∧ x ≤ m ∧ ∀ y ∈ xs, y ≤ m := by
  induction xs generalizing x with
  | nil => simp
  | cons a as ih =>
    simp only [List.foldl_cons]
    obtain ⟨h1, h2, h3⟩ := ih (if x < a then a else x)
    refine ⟨?_, ?_, ?_⟩
    · rcases h1 with h1 | h1
      · rw [h1]; split <;> simp
      · exact .inr (List.mem_cons_of_mem _ h1)
    · refine le_trans ?_ h2; split <;> linarith
    · intro y hy
      rcases List.mem_cons.1 hy with rfl | hy
      · refine le_trans ?_ h2; split <;> linarith
      · exact h3 y hy

theorem foldl_min_spec (xs : List Rat) (x : Rat) :
    let m := xs.foldl (fun m y => if y < m then y else m) x
    (m = x ∨ m ∈ xs) ∧ m ≤ x ∧ ∀ y ∈ xs, m ≤ y := by
  induction xs generalizing x with
  | nil => simp
  | cons a as ih =>
    simp only [List.foldl_cons]
    obtain ⟨h1, h2, h3⟩ := ih (if a < x then a else x)
    refine ⟨?_, ?_, ?_⟩
    · rcases h1 with h1 | h1
      · rw [h1]; split <;> simp
      · exact .inr (List.mem_cons_of_mem _ h1)
    · refine le_trans h2 ?_; split <;> linarith
    · intro y hy
      rcases List.mem_cons.1 hy with rfl | hy
      · refine le_trans h2 ?_; split <;> linarith
      · exact h3 y hy

/-- The greatest element is the one that is in the buffer and above all of it. -/
theorem maxOf_eq {xs : List Rat} {m : Rat} (hm : m ∈ xs) (h : ∀ y ∈ xs, y ≤ m) : maxOf xs = m := by
  cases xs with
  | nil => cases hm
  | cons a as =>
    obtain ⟨h1, h2, h3⟩ := foldl_max_spec as a
    apply le_antisymm
    · apply h
      rcases h1 with h1 | h1
      · simp [maxOf, h1]
      · exact List.mem_cons_of_mem _ h1
    · rcases List.mem_cons.1 hm with rfl | hm
      · exact h2
      · exact h3 m hm

/-- The least element is the one that is in the buffer and below all of it. -/
theorem minOf_eq {xs : List Rat} {m : Rat} (hm : m ∈ xs) (h : ∀ y ∈ xs, m ≤ y) : minOf xs = m := by
  cases xs with
  | nil => cases hm
  | cons a as =>
    obtain ⟨h1, h2, h3⟩ := foldl_min_spec as a
    apply le_antisymm
    · rcases List.mem_cons.1 hm with rfl | hm
      · exact h2
      · exact h3 m hm
    · apply h
      rcases h1 with h1 | h1
      · simp [minOf, h1]
      · exact List.mem_cons_of_mem _ h1

/-! ## Interpolation (R134) -/

theorem absQ_eq (r : Rat) : interpolate.absQ r = |r| := by
  unfold interpolate.absQ
  split
  · rw [abs_of_neg (by assumption)]
  · rw [abs_of_nonneg (by linarith)]

theorem interpolate_eq (i : Int) (p y : Rat) : interpolate i p y = ((i : Rat) - 1) + |p| / |y - p| := by
  unfold interpolate
  rw [absQ_eq, absQ_eq]
  push_cast
  ring

/-! ## Bits -/

@[simp] theorem bitsOf_length {w : Nat} (v : BitVec w) : (bitsOf v).length = w := by simp [bitsOf]

theorem bitsOf_getElem? {w : Nat} (v : BitVec w) {k : Nat} (h : k < w) :
    (bitsOf v)[k]? = some (v.getMsbD k) := by simp [bitsOf, h]

theorem bitsToNat_append_singleton (bs : List Bool) (b : Bool) :
    bitsToNat (bs ++ [b]) = 2 * bitsToNat bs + b.toNat := by simp [bitsToNat]

/-- Bit `i` from the right of the assembled number is bit `i` from the end of the list (R97). -/
theorem testBit_bitsToNat (bs : List Bool) (i : Nat) :
    (bitsToNat bs).testBit i = (bs.reverse[i]?).getD false := by
  induction bs using List.reverseRecOn generalizing i with
  | nil => simp [bitsToNat]
  | append_singleton bs b ih =>
    rw [bitsToNat_append_singleton]
    cases i with
    | zero => cases b <;> simp
    | succ i =>
      rw [Nat.testBit_succ, show (2 * bitsToNat bs + b.toNat) / 2 = bitsToNat bs by
        cases b <;> simp; omega, ih]
      simp

/-- Bit `36 − k` of an assembled row is the bit received as number `k` (R97). -/
theorem getMsbD_assembleRow {bs : List Bool} (hl : bs.length = 37) {k : Nat} (hk : k < 37) :
    some ((assembleRow bs).getMsbD k) = bs[k]? := by
  have h36 : 36 - k < bs.reverse.length := by simp [hl]; omega
  rw [BitVec.getMsbD, assembleRow, BitVec.getLsbD_ofNat, testBit_bitsToNat]
  rw [List.getElem?_eq_getElem h36, List.getElem_reverse]
  have : bs.length - 1 - (36 - k) = k := by omega
  simp [hk, this, show 36 - k < 37 by omega, show k < bs.length by omega]

/-- The bits of a row, received in their order, make the row (R68, R97). -/
theorem assembleRow_bitsOf (w : RowWord) : assembleRow (bitsOf w) = w := by
  apply BitVec.eq_of_getMsbD_eq
  intro i hi
  have h := getMsbD_assembleRow (bs := bitsOf w) (by simp) hi
  rw [bitsOf_getElem? _ hi] at h
  exact Option.some.inj h

/-- The first five bits received are the prefix (R97). -/
theorem rowPrefix_assembleRow {bs : List Bool} (hl : bs.length = 37) :
    rowPrefix (assembleRow bs) = framingPrefix ↔ bs.take 5 = [true, true, true, false, true] := by
  have hg : ∀ k < 5, bs[k]? = some ((rowPrefix (assembleRow bs)).getMsbD k) := by
    intro k hk
    rw [← getMsbD_assembleRow hl (by omega)]
    simp only [rowPrefix, BitVec.getMsbD, BitVec.getLsbD_extractLsb']
    simp [hk, show k < 37 by omega, show 4 - k < 5 by omega]
    congr 1; omega
  have e : bs.take 5 = (List.range 5).map (rowPrefix (assembleRow bs)).getMsbD := by
    apply List.ext_getElem?
    intro k
    by_cases hk : k < 5
    · rw [List.getElem?_take, if_pos hk, hg k hk]
      simp [hk]
    · rw [List.getElem?_eq_none (by simp; omega), List.getElem?_eq_none (by simp; omega)]
  rw [e]
  have : ∀ p : BitVec 5,
      p = framingPrefix ↔ (List.range 5).map p.getMsbD = [true, true, true, false, true] := by decide
  exact this _

/-- The other 32 are the payload, the first the most significant (R97). -/
theorem rowPayload_assembleRow {bs : List Bool} (hl : bs.length = 37) {k : Nat} (hk : k < 32) :
    some ((rowPayload (assembleRow bs)).getLsbD (31 - k)) = bs[5 + k]? := by
  rw [← getMsbD_assembleRow hl (by omega)]
  simp only [rowPayload, BitVec.getMsbD, BitVec.getLsbD_extractLsb']
  simp [show 31 - k < 32 by omega, show 5 + k < 37 by omega]
  congr 1; omega

/-- Those 32 bits determine the payload. -/
theorem eq_rowPayload {bs : List Bool} (hl : bs.length = 37) {p : Payload}
    (h : ∀ k < 32, some (p.getLsbD (31 - k)) = bs[5 + k]?) : p = rowPayload (assembleRow bs) := by
  apply BitVec.eq_of_getLsbD_eq
  intro i hi
  have h1 := h (31 - i) (by omega)
  have h2 := rowPayload_assembleRow hl (k := 31 - i) (by omega)
  rw [← h1, show 31 - (31 - i) = i by omega] at h2
  exact (Option.some.inj h2).symm

/-! ## Fields of a word -/

theorem append_high {m n : Nat} (a : BitVec m) (b : BitVec n) : (a ++ b).extractLsb' n m = a := by
  apply BitVec.eq_of_getLsbD_eq
  intro i hi
  rw [BitVec.getLsbD_extractLsb', BitVec.getLsbD_append]
  simp [hi]

theorem append_low {m n : Nat} (a : BitVec m) (b : BitVec n) : (a ++ b).extractLsb' 0 n = b := by
  apply BitVec.eq_of_getLsbD_eq
  intro i hi
  rw [BitVec.getLsbD_extractLsb', BitVec.getLsbD_append]
  simp [hi]

@[simp] theorem rowPrefix_rowOf (pre : BitVec 5) (payload : Payload) : rowPrefix (rowOf pre payload) = pre :=
  append_high pre payload

@[simp] theorem rowPayload_rowOf (pre : BitVec 5) (payload : Payload) :
    rowPayload (rowOf pre payload) = payload := append_low pre payload

end Sys2Proof.Machine
end

