-- ==== Sys2Proof/Laws/PerInstr.lean ====
section
/-! SUPPORT. The laws made one instruction at a time. `FitsFormat`: the encoding of a well-formed
instruction stands within the bits of its format and uses no reserved code (R90 to R101). -/

namespace Sys2Proof.Laws

/-- The bits of a packet number no more than its format has, and none of its codes is reserved. -/
def packetFits (c : Config) : Packet → Prop
  | .inPort w => w < 2 ^ (c.sampleWidth + 1)
  | .tr _ _ energy => 0 ≤ energy
  | .cl w _ => w.toNat / 8 = 0 → w.toNat % 8 < 5
  | .sy w _ => 8 ≤ w.toNat → w.toNat = 8
  | .ecc _ => True
  | .fe kind o => kind.toNat < 5 ∧ (kind = 3#3 → o.c < 32)
  | .outPort w => w < 8 * 2 ^ (3 * c.counterWidth)
  | .row _ => True
  | .codeword _ => True
  | .outword w => w.toNat < 1024
  | .preamble _ => True
  | .stray _ _ => False

/-- Four fields of an `OUT` token stand within its bits (R95). -/
theorem packOut_fits {c : Config} {kind p0 p1 p2 : Nat} (hk : kind < 8)
    (h0 : p0 < 2 ^ c.counterWidth) (h1 : p1 < 2 ^ c.counterWidth) (h2 : p2 < 2 ^ c.counterWidth) :
    packetFits c (packOut c.counterWidth kind p0 p1 p2) := by
  have hp : 2 ^ (3 * c.counterWidth) = 2 ^ c.counterWidth * 2 ^ c.counterWidth * 2 ^ c.counterWidth := by
    rw [Nat.mul_comm 3, Nat.pow_mul]; ring
  simp only [packOut, packetFits, hp]
  generalize 2 ^ c.counterWidth = b at *
  have e0 : kind * b + p0 + 1 ≤ 8 * b := by nlinarith
  have e1 : (kind * b + p0) * b + p1 + 1 ≤ 8 * b * b := by nlinarith
  nlinarith

/-- A field of `w` bits holds every two's-complement value it is made for. -/
theorem unsignedField_lt (w : Nat) (x : Int) : unsignedField w x < 2 ^ w := by
  unfold unsignedField
  have hp : (0 : Int) < 2 ^ w := by positivity
  have h1 := Int.emod_nonneg x hp.ne'
  have h2 := Int.emod_lt_of_pos x hp
  have : ((2 ^ w : Nat) : Int) = 2 ^ w := by push_cast; rfl
  omega

/-- The encoding of the instruction stands within its format. -/
def FitsFormat.Statement (i : Instr) : Prop :=
  ∀ c : Config, i.wellFormed c = true → packetFits c (encode c i)

theorem FitsFormat.inSample (x : Int) : FitsFormat.Statement (.inSample x) := by
  intro c _
  have h := unsignedField_lt c.sampleWidth x
  simp only [encode, packetFits, Nat.pow_succ]
  omega

theorem FitsFormat.inEos : FitsFormat.Statement .inEos := by
  intro c _
  simp only [encode, packetFits, Nat.pow_succ]
  have : 0 < 2 ^ c.sampleWidth := Nat.two_pow_pos _
  omega

theorem FitsFormat.trTrans (ifrac energy : Rat) : FitsFormat.Statement (.trTrans ifrac energy) := by
  intro c h
  simpa [Instr.wellFormed, encode, packetFits] using h

theorem FitsFormat.trEos : FitsFormat.Statement .trEos := by
  intro c _
  simp [encode, packetFits]

theorem FitsFormat.clIvlNarrow : FitsFormat.Statement .clIvlNarrow := by
  intro c _
  simp [encode, packetFits]

theorem FitsFormat.clIvlShort : FitsFormat.Statement .clIvlShort := by
  intro c _
  simp [encode, packetFits]

theorem FitsFormat.clIvlMid : FitsFormat.Statement .clIvlMid := by
  intro c _
  simp [encode, packetFits]

theorem FitsFormat.clIvlLong : FitsFormat.Statement .clIvlLong := by
  intro c _
  simp [encode, packetFits]

theorem FitsFormat.clIvlWide : FitsFormat.Statement .clIvlWide := by
  intro c _
  simp [encode, packetFits]

theorem FitsFormat.clSegOpen (time : Rat) : FitsFormat.Statement (.clSegOpen time) := by
  intro c _
  simp [encode, packetFits]

theorem FitsFormat.clDropout : FitsFormat.Statement .clDropout := by
  intro c _
  simp [encode, packetFits]

theorem FitsFormat.clEos : FitsFormat.Statement .clEos := by
  intro c _
  simp [encode, packetFits]

theorem FitsFormat.syZero : FitsFormat.Statement .syZero := by
  intro c _
  simp [encode, packetFits]

theorem FitsFormat.syOne : FitsFormat.Statement .syOne := by
  intro c _
  simp [encode, packetFits]

theorem FitsFormat.syGap : FitsFormat.Statement .syGap := by
  intro c _
  simp [encode, packetFits]

theorem FitsFormat.sySegstart (time : Rat) : FitsFormat.Statement (.sySegstart time) := by
  intro c _
  simp [encode, packetFits]

theorem FitsFormat.syAnomNarrow : FitsFormat.Statement .syAnomNarrow := by
  intro c _
  simp [encode, packetFits]

theorem FitsFormat.syAnomMid : FitsFormat.Statement .syAnomMid := by
  intro c _
  simp [encode, packetFits]

theorem FitsFormat.syAnomLong : FitsFormat.Statement .syAnomLong := by
  intro c _
  simp [encode, packetFits]

theorem FitsFormat.syAnomWide : FitsFormat.Statement .syAnomWide := by
  intro c _
  simp [encode, packetFits]

theorem FitsFormat.syEos : FitsFormat.Statement .syEos := by
  intro c _
  simp [encode, packetFits]

theorem FitsFormat.eccDecode (p : Chunk) : FitsFormat.Statement (.eccDecode p) := by
  intro c _
  simp [encode, packetFits]

theorem FitsFormat.feChunkOk (chunk : Nat) (words : Words) (corr : Marks) (metric : Int) : FitsFormat.Statement (.feChunkOk chunk words corr metric) := by
  intro c _
  simp [encode, packetFits]

theorem FitsFormat.feSegEnd (z : Option Int) : FitsFormat.Statement (.feSegEnd z) := by
  intro c _
  simp [encode, packetFits]

theorem FitsFormat.feFaultFraming (seg r off : Nat) (z : Option Int) : FitsFormat.Statement (.feFaultFraming seg r off z) := by
  intro c _
  simp [encode, packetFits]

theorem FitsFormat.feFaultEcc (seg chunk : Nat) (col : Fin 32) (z : Option Int) : FitsFormat.Statement (.feFaultEcc seg chunk col z) := by
  intro c _
  simp [encode, packetFits]

theorem FitsFormat.feEos : FitsFormat.Statement .feEos := by
  intro c _
  simp [encode, packetFits]

theorem FitsFormat.outRecOpen (k : Nat) : FitsFormat.Statement (.outRecOpen k) := by
  intro c h
  exact packOut_fits (by decide) (by simpa [Instr.wellFormed, fitsNat] using h) (Nat.two_pow_pos _)
    (Nat.two_pow_pos _)

theorem FitsFormat.outZeroRun (n : Int) : FitsFormat.Statement (.outZeroRun n) := by
  intro c _
  exact packOut_fits (by decide) (unsignedField_lt _ _) (Nat.two_pow_pos _) (Nat.two_pow_pos _)

theorem FitsFormat.outCorrected (chunk : Nat) (col : Fin 32) : FitsFormat.Statement (.outCorrected chunk col) := by
  intro c h
  simp only [Instr.wellFormed, fitsNat, Bool.and_eq_true, decide_eq_true_eq] at h
  exact packOut_fits (by decide) h.1 h.2 (Nat.two_pow_pos _)

theorem FitsFormat.outByte (b : Byte) : FitsFormat.Statement (.outByte b) := by
  intro c h
  exact packOut_fits (by decide) (by simpa [Instr.wellFormed, fitsNat] using h) (Nat.two_pow_pos _)
    (Nat.two_pow_pos _)

theorem FitsFormat.outRecClose : FitsFormat.Statement .outRecClose := by
  intro c _
  exact packOut_fits (by decide) (Nat.two_pow_pos _) (Nat.two_pow_pos _) (Nat.two_pow_pos _)

theorem FitsFormat.outErrFraming (seg r off : Nat) : FitsFormat.Statement (.outErrFraming seg r off) := by
  intro c h
  simp only [Instr.wellFormed, fitsNat, Bool.and_eq_true, decide_eq_true_eq] at h
  exact packOut_fits (by decide) h.1.1 h.1.2 h.2

theorem FitsFormat.outErrEcc (seg chunk : Nat) (col : Fin 32) : FitsFormat.Statement (.outErrEcc seg chunk col) := by
  intro c h
  simp only [Instr.wellFormed, fitsNat, Bool.and_eq_true, decide_eq_true_eq] at h
  exact packOut_fits (by decide) h.1.1 h.1.2 h.2

theorem FitsFormat.outEnd : FitsFormat.Statement .outEnd := by
  intro c _
  exact packOut_fits (by decide) (Nat.two_pow_pos _) (Nat.two_pow_pos _) (Nat.two_pow_pos _)

theorem FitsFormat.row (pre : BitVec 5) (payload : Payload) : FitsFormat.Statement (.row pre payload) := by
  intro c _
  simp [encode, packetFits]

theorem FitsFormat.codeword (syn : Syndrome) (data : DataWord) : FitsFormat.Statement (.codeword syn data) := by
  intro c _
  simp [encode, packetFits]

theorem FitsFormat.outword (data : DataWord) : FitsFormat.Statement (.outword data) := by
  intro c _
  have := data.isLt
  simp only [encode, packetFits, BitVec.toNat_setWidth]
  omega

theorem FitsFormat.preamble (bits : PreambleWord) : FitsFormat.Statement (.preamble bits) := by
  intro c _
  simp [encode, packetFits]

end Sys2Proof.Laws
end

