-- ==== Sys2Proof/Machine/Text.lean ====
section
/-! DEFINITION. The textual forms of the two line-oriented interfaces: the interchange text of the
`SY` tap (R104) and the manifest (R105). The decimal form of a time is not specified (U12), so a
`time` line keeps its exact value. -/

namespace Sys2Proof.Machine

/-- A line of the interchange format (R104). -/
inductive TapLine where
  | time (t : Rat)
  | data (symbols : List Char)
deriving DecidableEq, Repr

/-- The character of a symbol in its `data` line, where it has one (R104). -/
def symbolChar : SySymbol → Option Char
  | .zero => some '0'
  | .one => some '1'
  | .gap => some 'e'
  | .anomaly .narrow => some 'n'
  | .anomaly .mid => some 'm'
  | .anomaly .long => some 'l'
  | .anomaly .wide => some 'w'
  | .segstart _ => none
  | .eos => none

/-- The symbols of the open segment's `data` line, and the lines before it. -/
def addSymbol (lines : List TapLine) (y : SySymbol) : List TapLine :=
  match y with
  | .segstart t => lines ++ [.time t, .data []]
  | y =>
    match symbolChar y, lines.getLast? with
    | some ch, some (.data symbols) => lines.dropLast ++ [.data (symbols ++ [ch])]
    | some ch, _ => lines ++ [.data [ch]]
    | none, _ => lines

/-- The interchange text of a tap sequence (R104). -/
def interchangeText (ys : List SySymbol) : List TapLine := ys.foldl addSymbol []

/-- A line of the manifest as text (R105). -/
def lineText : ManifestLine → String
  | .file k => "file " ++ toString k
  | .zero n => "zero " ++ toString n

/-- The manifest as text (R105). -/
def manifestText (lines : List ManifestLine) : List String := lines.map lineText

end Sys2Proof.Machine
end

