-- ==== Sys2Proof/Tests/Slice0.lean ====
section
/-! SUPPORT. The model's own tests: ill-formed terms, a word of every operation written out from its
format, one step at a time against the values of spec 95, and for each statement with hypotheses a
witness that meets them. -/

namespace Sys2Proof.Tests

set_option Elab.async false

open Sys2Proof Sys2Proof.Machine

/-! ## Well-formedness: every check refuses an ill-formed term -/

theorem test_sample_too_large : (Instr.inSample 32768).wellFormed Config.atReset = false := by decide
theorem test_sample_too_small : (Instr.inSample (-32769)).wellFormed Config.atReset = false := by decide
theorem test_sample_bounds : (Instr.inSample 32767).wellFormed Config.atReset = true ∧
    (Instr.inSample (-32768)).wellFormed Config.atReset = true := by decide
theorem test_energy_negative : (Instr.trTrans 0 (-1)).wellFormed Config.atReset = false := by decide
theorem test_record_number_too_large :
    (Instr.outRecOpen 0x100000000).wellFormed Config.atReset = false := by decide
theorem test_zero_run_too_large :
    (Instr.outZeroRun 0x80000000).wellFormed Config.atReset = false := by decide
theorem test_corrected_chunk_too_large :
    (Instr.outCorrected 0x100000000 0).wellFormed Config.atReset = false := by decide
theorem test_corrected_column_too_large :
    (Instr.outCorrected 0 4).wellFormed { Config.atReset with counterWidth := 2 } = false := by decide
theorem test_byte_too_large :
    (Instr.outByte 16).wellFormed { Config.atReset with counterWidth := 4 } = false := by decide
theorem test_framing_report_too_large :
    (Instr.outErrFraming 0x100000000 0 0).wellFormed Config.atReset = false ∧
    (Instr.outErrFraming 0 0x100000000 0).wellFormed Config.atReset = false ∧
    (Instr.outErrFraming 0 0 0x100000000).wellFormed Config.atReset = false := by decide
theorem test_ecc_report_too_large :
    (Instr.outErrEcc 0x100000000 0 0).wellFormed Config.atReset = false ∧
    (Instr.outErrEcc 0 0x100000000 0).wellFormed Config.atReset = false ∧
    (Instr.outErrEcc 0 0 4).wellFormed { Config.atReset with counterWidth := 2 } = false := by decide

/-! ## Stand-in parameters of spec 95 section 3. They are NOT the real constants (R9, N1, N2). -/

/-- The stand-in preamble `PT`. -/
def standInPreamble : PreambleWord := 0x0000006AAAAAAAAAAAAAAAAAAAAAAAAA#128

/-- The stand-in tables `T1`, of distance 3. -/
def highT1 : SynTable := #v[0, 12, 17, 29, 18, 30, 3, 15, 20, 24, 5, 9, 6, 10, 23, 27, 24, 20, 9, 5, 10, 6,
  27, 23, 12, 0, 29, 17, 30, 18, 15, 3]
def lowT1 : SynTable := #v[0, 3, 5, 6, 6, 5, 3, 0, 9, 10, 12, 15, 15, 12, 10, 9, 10, 9, 15, 12, 12, 15, 9,
  10, 3, 0, 6, 5, 5, 6, 0, 3]

/-- A stand-in table of `T2`, of distance 2: entry `x` is `x`. -/
def tableT2 : SynTable := Vector.ofFn fun i => BitVec.ofNat 5 i.val

def romT1 : Rom := ⟨standInPreamble, highT1, lowT1⟩
def romT2 : Rom := ⟨standInPreamble, tableT2, tableT2⟩

/-- The configuration of most vectors of spec 95: four samples a bit, the DC window off. -/
def testConfig : Config := ⟨4, 1, 500, mkRat 3 4, 0, 16, 32⟩

/-- The state after reset with that configuration and the stand-in constants. -/
def fresh : State := { State.reset with cfg := testConfig, rom := romT1 }

/-- A hunting framer (R185), the classifier's segment open. -/
def hunting : State :=
  { fresh with frm := { mode := .hunt, segNo := 1 }, cls := { last := some 20 } }

/-- A synchronised framer of metric 15, at the start of row 3 of Program C: three rows, offset 254. -/
def synced : State :=
  { fresh with
    cls := { last := some 20 }
    frm := { mode := .synced, zeroCount := 40, leading := false, zeroMetric := some 15,
             rows := [0x3D8F19C3#32, 0x27453B38#32, 0x858B9FF6#32], symPos := 254, segNo := 1 } }

/-- The same with the record of a first chunk open. -/
def recording : State :=
  { synced with
    frm := { synced.frm with chunkIndex := 1 }
    emt := { recOpen := true, recNo := 1 }
    io := { synced.io with
      outs := [.recOpen 0, .zeroRun 15], manifest := [.file 0, .zero 15], records := [⟨[], false⟩] } }

/-- A framer that ignores its symbols after a fault (R199). -/
def aborted : State := { synced with frm := { synced.frm with mode := .abort, rows := [] } }

/-- The 36 first bits of the row `pre ++ payload`. -/
def rowStart36 (pre : BitVec 5) (payload : Payload) : List Bool := (bitsOf (rowOf pre payload)).dropLast

/-- The chunk of spec 95 section 2.6. -/
def chunkA : Chunk := #v[0x3D8F19C3#32, 0x27453B38#32, 0x858B9FF6#32, 0x0C73C5E1#32, 0x933278EC#32,
  0x0003FFF0#32, 0x01FC07F0#32, 0x0E1C3871#32, 0x326CD9B2#32, 0x56A54AD4#32, 0x1C71E38E#32, 0x6D926D92#32,
  0xB4B4B4B4#32, 0x66666666#32, 0xAAAAAAAA#32]

/-- Its data words, `37 j + 5` in ten bits. -/
def wordsA : Words := byColumn fun j => BitVec.ofNat 10 (37 * j.val + 5)

/-- A synchronised framer one bit before the end of the fifteenth row of chunk `p`. -/
def atLastBit (p : Chunk) : State :=
  { synced with frm := { synced.frm with
      rows := p.toList.dropLast, rowbits := rowStart36 0b11101#5 p[14], rowStart := 661, symPos := 697 } }

/-- The next state, or the state itself where there is none. -/
def after (i : Instr) (s : State) : State := (nextState? (exec i s)).getD s

/-- The refusal of an outcome, where it is one. -/
def refusal? (o : Out) : Option Refusal :=
  match o with
  | .next _ => none
  | .fault _ => none
  | .refused r => some r

/-! ## Decoding: a word of every operation, written out from its format -/

theorem test_decode_in :
    decode Config.atReset (.inPort 0b00000001111101000) = .ok (.inSample 1000) ∧
    decode Config.atReset (.inPort 0b01111110000011000) = .ok (.inSample (-1000)) ∧
    decode Config.atReset (.inPort 0b10000000000000000) = .ok .inEos ∧
    decode Config.atReset (.inPort 0b11111111111111111) = .ok .inEos ∧
    decode Config.atReset (.inPort 0b100000000000000000) = .error .tooWide := by decide
theorem test_decode_tr :
    decode Config.atReset (.tr 0b0#1 20 500) = .ok (.trTrans 20 500) ∧
    decode Config.atReset (.tr 0b1#1 20 500) = .ok .trEos := by decide
theorem test_decode_cl :
    decode Config.atReset (.cl 0b00000#5 0) = .ok .clIvlNarrow ∧
    decode Config.atReset (.cl 0b00001#5 0) = .ok .clIvlShort ∧
    decode Config.atReset (.cl 0b00010#5 0) = .ok .clIvlMid ∧
    decode Config.atReset (.cl 0b00011#5 0) = .ok .clIvlLong ∧
    decode Config.atReset (.cl 0b00100#5 0) = .ok .clIvlWide ∧
    decode Config.atReset (.cl 0b00101#5 0) = .error .reservedClass ∧
    decode Config.atReset (.cl 0b01000#5 5) = .ok (.clSegOpen 5) ∧
    decode Config.atReset (.cl 0b10000#5 0) = .ok .clDropout ∧
    decode Config.atReset (.cl 0b11000#5 0) = .ok .clEos := by decide
theorem test_decode_sy :
    decode Config.atReset (.sy 0b0000#4 0) = .ok .syZero ∧
    decode Config.atReset (.sy 0b0001#4 0) = .ok .syOne ∧
    decode Config.atReset (.sy 0b0010#4 0) = .ok .syGap ∧
    decode Config.atReset (.sy 0b0011#4 5) = .ok (.sySegstart 5) ∧
    decode Config.atReset (.sy 0b0100#4 0) = .ok .syAnomNarrow ∧
    decode Config.atReset (.sy 0b0101#4 0) = .ok .syAnomMid ∧
    decode Config.atReset (.sy 0b0110#4 0) = .ok .syAnomLong ∧
    decode Config.atReset (.sy 0b0111#4 0) = .ok .syAnomWide ∧
    decode Config.atReset (.sy 0b1000#4 0) = .ok .syEos := by decide
theorem test_decode_ecc : decode Config.atReset (.ecc
    0x3D8F19C327453B38858B9FF60C73C5E1933278EC0003FFF001FC07F00E1C3871326CD9B256A54AD41C71E38E6D926D92B4B4B4B466666666AAAAAAAA#480) =
    .ok (.eccDecode chunkA) := by decide +kernel
theorem test_decode_fe :
    decode Config.atReset (.fe 0b000#3 { a := 1, words := wordsA, metric := 15 }) =
      .ok (.feChunkOk 1 wordsA (Vector.replicate 32 false) 15) ∧
    decode Config.atReset (.fe 0b001#3 { z := some 15 }) = .ok (.feSegEnd (some 15)) ∧
    decode Config.atReset (.fe 0b010#3 { a := 0, b := 3, c := 254 }) = .ok (.feFaultFraming 0 3 254 none) ∧
    decode Config.atReset (.fe 0b011#3 { a := 0, b := 1, c := 7 }) = .ok (.feFaultEcc 0 1 7 none) ∧
    decode Config.atReset (.fe 0b011#3 { c := 32 }) = .error .columnTooLarge ∧
    decode Config.atReset (.fe 0b100#3 { }) = .ok .feEos ∧
    decode Config.atReset (.fe 0b101#3 { }) = .error .reservedFeKind := by decide +kernel
theorem test_decode_out :
    decode Config.atReset (.outPort 0x0000000020000000000000000) = .ok (.outRecOpen 2) ∧
    decode Config.atReset (.outPort 0x1FFFFFFE70000000000000000) = .ok (.outZeroRun (-25)) ∧
    decode Config.atReset (.outPort 0x2000000010000000900000000) = .ok (.outCorrected 1 9) ∧
    decode Config.atReset (.outPort 0x3000000EC0000000000000000) = .ok (.outByte 0xEC#8) ∧
    decode Config.atReset (.outPort 0x4000000000000000000000000) = .ok .outRecClose ∧
    decode Config.atReset (.outPort 0x50000000000000003000000FE) = .ok (.outErrFraming 0 3 254) ∧
    decode Config.atReset (.outPort 0x6000000000000000100000007) = .ok (.outErrEcc 0 1 7) ∧
    decode Config.atReset (.outPort 0x7000000000000000000000000) = .ok .outEnd := by decide
theorem test_decode_out_rejects :
    decode Config.atReset (.outPort 0x8000000000000000000000000) = .error .reservedOutKind ∧
    decode Config.atReset (.outPort 0x4000000000000000000000001) = .error .payloadNotZero ∧
    decode Config.atReset (.outPort 0x3000001000000000000000000) = .error .byteTooLarge ∧
    decode Config.atReset (.outPort 0x2000000000000002000000000) = .error .columnTooLarge ∧
    decode Config.atReset (.outPort 0x10000000000000000000000000) = .error .tooWide := by decide
theorem test_decode_data :
    decode Config.atReset (.row 0b1110100111101100011110001100111000011#37) =
      .ok (.row 0b11101#5 0x3D8F19C3#32) ∧
    decode Config.atReset (.codeword 0x7508#15) = .ok (.codeword 0b11101#5 264#10) ∧
    decode Config.atReset (.outword 0x0108#16) = .ok (.outword 264#10) ∧
    decode Config.atReset (.outword 0x0400#16) = .error .highBitsNotZero ∧
    decode Config.atReset (.preamble standInPreamble) = .ok (.preamble standInPreamble) ∧
    decode Config.atReset (.stray 9 0) = .error .noSuchFormat := by decide

/-! ## Detector (spec 95 sections 2.1 and 2.2) -/

theorem test_constants : spb testConfig = 4 ∧ energyLen testConfig = 40 ∧
    energyLen Config.atReset = 147 ∧ dcLen Config.atReset = 23 ∧ dcMid Config.atReset = 11 ∧
    dcShift Config.atReset = 11 ∧ edgeNarrowShort testConfig = 5 / 4 ∧
    edgeLongWide testConfig = 19 / 4 := by decide +kernel

/-- The state before sample 40 of Program S1 (DV6). -/
def beforeS1 : State :=
  { fresh with det := ⟨40, [], List.replicate 20 1000 ++ List.replicate 20 (-1000), some (-1000)⟩ }

/-- DV6: the transition at 79/2 opens a segment at 79/8 seconds. -/
theorem test_in_sample : (after (.inSample 1000) beforeS1).cls.last = some (79 / 2) ∧
    (after (.inSample 1000) beforeS1).io.syTap = [.segstart (79 / 8)] ∧
    (after (.inSample 1000) beforeS1).det.n = 41 := by decide +kernel

/-- The state before sample 6 of DV3, the threshold at its energy. -/
def beforeDV3 : State :=
  { fresh with
    cfg := { testConfig with sampleRate := 1, bitRate := 2, dcWindowBits := 6, energyThreshold := 16 }
    det := ⟨6, [10, 18, 2], [4, -4, -4 / 3, 8], some 8⟩ }

/-- DV3: `y = −8` at index 5, and the transition at 9/2 of energy 16 is accepted. -/
theorem test_in_sample_window : (after (.inSample 10) beforeDV3).det.prev = some (-8) ∧
    (after (.inSample 10) beforeDV3).cls.last = some (9 / 2) := by decide +kernel

theorem test_in_eos : (after .inEos synced).io.outs = [.zeroRun 15, .endRun] ∧
    (after .inEos synced).sts.done = true := by decide +kernel
theorem test_token_after_eos :
    refusal? (exec (.inSample 0) (after .inEos synced)) = some .tokenAfterEos := by decide +kernel
theorem test_invalid_config : refusal? (exec (.inSample 0) { fresh with cfg := { testConfig with tolerance := 1 } }) = some .invalidConfig := by decide +kernel

/-- DV7. -/
theorem test_interpolate : interpolate 10 (-3) 1 = 39 / 4 ∧ interpolate 10 1 (-3) = 37 / 4 ∧
    interpolate 10 (-2) 0 = 10 ∧ interpolate 10 0 (-7) = 9 := by decide +kernel

/-! ## Classifier and recoverer (spec 95 sections 2.3 and 2.4) -/

theorem test_classify : classify testConfig (5 / 4) = .short ∧ classify testConfig 1 = .narrow ∧
    classify testConfig (11 / 4) = .short ∧ classify testConfig 3 = .mid ∧
    classify testConfig (13 / 4) = .long ∧ classify testConfig (19 / 4) = .long ∧
    classify testConfig 5 = .wide := by decide +kernel

theorem test_tr_trans_anchor : (after (.trTrans 20 500) fresh).io.syTap = [.segstart 5] ∧
    (after (.trTrans 20 500) fresh).frm.segNo = 1 := by decide +kernel
theorem test_tr_trans_dropout : (after (.trTrans 24 499) hunting).io.syTap = [.gap] ∧
    (after (.trTrans 24 499) hunting).cls.last = none := by decide +kernel
theorem test_tr_eos : (after .trEos hunting).io.syTap = [.eos] ∧
    (after .trEos hunting).cls.last = none := by decide +kernel
theorem test_cl_ivl_long : (after .clIvlLong hunting).io.syTap = [.zero] ∧
    (after .clIvlLong (setExpecting true hunting)).io.syTap = [.anomaly .long] := by decide +kernel
theorem test_cl_ivl_short : (after .clIvlShort hunting).rcv.expecting = true ∧
    (after .clIvlShort (setExpecting true hunting)).io.syTap = [.one] := by decide +kernel
theorem test_cl_ivl_wide : (after .clIvlWide (setExpecting true hunting)).io.syTap = [.anomaly .wide] ∧
    (after .clIvlWide (setExpecting true hunting)).rcv.expecting = false := by decide +kernel
theorem test_cl_ivl_mid : (after .clIvlMid hunting).io.syTap = [.anomaly .mid] := by decide +kernel
theorem test_cl_ivl_narrow : (after .clIvlNarrow hunting).io.syTap = [.anomaly .narrow] := by
  decide +kernel
theorem test_cl_seg_open : (after (.clSegOpen 5) fresh).frm.mode = .hunt := by decide +kernel
theorem test_cl_dropout : (after .clDropout (setExpecting true hunting)).io.syTap = [.gap] ∧
    (after .clDropout (setExpecting true hunting)).frm.mode = .idle := by decide +kernel
theorem test_cl_eos : (after .clEos hunting).io.outs = [.endRun] := by decide +kernel

/-! ## Framer (spec 95 sections 2.5 and 4.1) -/

theorem test_sy_segstart : (after (.sySegstart 0) fresh).frm = { mode := .hunt, segNo := 1 } ∧
    refusal? (exec (.sySegstart 0) hunting) = some .segstartInsideSegment := by decide +kernel
theorem test_sy_zero : (after .syZero hunting).frm.zeroCount = 1 ∧
    refusal? (exec .syZero fresh) = some .symbolOutsideSegment := by decide +kernel
theorem test_sy_one : (after .syOne hunting).frm.leading = false ∧
    (after .syOne hunting).frm.window = [true] := by decide +kernel
theorem test_sy_anom_narrow : (after .syAnomNarrow hunting).frm.leading = false := by decide +kernel
theorem test_sy_anom_mid : (after .syAnomMid synced).frm.symPos = 255 := by decide +kernel
theorem test_sy_anom_long : (after .syAnomLong aborted).frm = aborted.frm := by decide +kernel
theorem test_sy_anom_wide :
    (after .syAnomWide { synced with frm := { synced.frm with rowbits := [true] } }).frm.rowbits = [] ∧
    (after .syAnomWide synced).frm.rows.length = 3 := by decide +kernel
theorem test_sy_gap : (after .syGap synced).io.outs = [.zeroRun 15] ∧
    (after .syGap recording).io.outs = [.recOpen 0, .zeroRun 15, .recClose] := by decide +kernel
theorem test_sy_eos : (after .syEos aborted).io.outs = [.endRun] := by decide +kernel

/-- The line `0^15 P`: count 40, metric 15. -/
theorem test_preamble : (after (.preamble standInPreamble) { hunting with frm := { hunting.frm with
      zeroCount := 15, window := List.replicate 15 false, symPos := 15 } }).frm =
    { mode := .synced, zeroCount := 40, leading := false, zeroMetric := some 15, symPos := 143, segNo := 1 } := by
  decide +kernel

/-- Row 3 of Program A, and the same row with prefix `11100` (Program C). -/
theorem test_row : (after (.row 0b11101#5 0x0C73C5E1#32) synced).frm.rows.length = 4 ∧
    (after (.row 0b11101#5 0x0C73C5E1#32) synced).frm.rows[3]? = some 0x0C73C5E1#32 := by decide +kernel
theorem test_row_bad_prefix :
    (after (.row 0b11100#5 0x0C73C5E1#32) synced).io.outs = [.errFraming 0 3 254, .zeroRun 15] ∧
    (after (.row 0b11100#5 0x0C73C5E1#32) synced).frm.mode = .abort ∧
    (after (.row 0b11100#5 0x0C73C5E1#32) synced).sts.errFraming = true := by decide +kernel

/-- The last bit of the chunk of Program A opens record 0 and writes its 64 bytes. -/
theorem test_chunk : (after .syZero (atLastBit chunkA)).io.manifest = [.file 0, .zero 15] ∧
    (after .syZero (atLastBit chunkA)).io.outs.length = 66 ∧
    readByte (after .syZero (atLastBit chunkA)) 0 14 = some 0x01#8 ∧
    readByte (after .syZero (atLastBit chunkA)) 0 15 = some 0x08#8 := by decide +kernel

/-! ## ECC decoder (spec 95 section 2.6, tables `T1` and `T2`) -/

theorem test_encode_data : encodeData romT1 264 = 0x7508#15 ∧ encodeData romT1 1023 = 0x03FF#15 ∧
    encodeData romT2 33 = 0x0021#15 ∧ encodeData romT2 32 = 0x0420#15 := by decide +kernel
theorem test_table : eccEntry romT1 0x3952#15 = .corrected 0x2952#15 ∧
    eccEntry romT1 0x3509#15 = .unrecoverable ∧ eccEntry romT1 0x76EA#15 = .corrected 0x76EE#15 ∧
    eccEntry romT2 0x0001#15 = .corrected 0x0021#15 ∧ eccEntry romT2 0x0400#15 = .corrected 0x0420#15 ∧
    eccEntry romT2 0x0C01#15 = .corrected 0x0C41#15 ∧ eccEntry romT2 0x1405#15 = .valid := by decide +kernel
theorem test_transposition : codewordOf chunkA 0 = 0x1405#15 ∧ codewordOf chunkA 31 = 0x4880#15 ∧
    codewordOf chunkA 7 = 0x7508#15 := by decide +kernel
theorem test_ecc_decode : (after (.eccDecode chunkA) fresh).eccReply =
    some (.result (.ok wordsA (Vector.replicate 32 false))) := by decide +kernel

/-- Column 7 of the chunk with bits 0 and 14 flipped. -/
def chunkBad : Chunk := (chunkA.set 0 0x3C8F19C3#32).set 14 0xABAAAAAA#32

theorem test_ecc_decode_fail :
    (after (.eccDecode chunkBad) fresh).eccReply = some (.result (.fail 7)) := by decide +kernel
theorem test_codeword : (after (.codeword 0b11101#5 264#10) fresh).eccReply = some (.entry .valid) ∧
    (after (.codeword 0b01101#5 265#10) fresh).eccReply = some (.entry .unrecoverable) := by decide +kernel

/-! ## Emitter (spec 95 section 2.7) and the OUT channel -/

/-- The marks of columns 3, 9 and 30. -/
def marks3 : Marks := byColumn fun j => decide (j = 3 ∨ j = 9 ∨ j = 30)

theorem test_fe_chunk_ok : (after (.feChunkOk 0 wordsA marks3 15) fresh).io.outs.take 7 =
      [.recOpen 0, .zeroRun 15, .corrected 0 3, .corrected 0 9, .corrected 0 30, .byte 0x00#8, .byte 0x05#8] ∧
    (after (.feChunkOk 0 wordsA marks3 15) fresh).emt = ⟨true, 1⟩ ∧
    (after (.feChunkOk 0 wordsA marks3 15) fresh).sts.correctedCount = 3 := by decide +kernel
theorem test_fe_seg_end : (after (.feSegEnd (some 15)) fresh).io.outs = [.zeroRun 15] ∧
    (after (.feSegEnd none) fresh).io.outs = [] ∧
    (after (.feSegEnd (some 15)) recording).io.records = [⟨[], true⟩] := by decide +kernel
theorem test_fe_fault_framing : (after (.feFaultFraming 0 3 254 (some 15)) fresh).io.outs =
    [.errFraming 0 3 254, .zeroRun 15] := by decide +kernel
theorem test_fe_fault_ecc : (after (.feFaultEcc 0 1 7 (some 15)) recording).io.outs =
    [.recOpen 0, .zeroRun 15, .errEcc 0 1 7, .recClose] := by decide +kernel
theorem test_fe_eos : (after .feEos fresh).io.outs = [.endRun] := by decide +kernel
theorem test_out_rec_open : (after (.outRecOpen 0) fresh).io.records = [⟨[], false⟩] ∧
    (after (.outRecOpen 1) fresh).io.manifest = [.file 1] := by decide +kernel

/-- A byte put out before a reset pulse stands after it, as run 0; the new run numbers from record 0. -/
theorem test_reset_pulse :
    readByteOfRun (applyReset (after (.outByte 0xEC#8) recording)) 0 0 0 = some 0xEC#8 ∧
    (applyReset recording).io.records = [] ∧ (applyReset recording).emt.recNo = 0 := by decide +kernel
theorem test_out_zero_run : manifestText (after (.outZeroRun (-25)) fresh).io.manifest = ["zero -25"] := by
  decide +kernel
theorem test_out_corrected : (after (.outCorrected 0 9) fresh).io.outs = [.corrected 0 9] := by decide +kernel
theorem test_out_byte : readByte (after (.outByte 0xEC#8) recording) 0 0 = some 0xEC#8 ∧
    refusal? (exec (.outByte 0#8) fresh) = some .noOpenRecord := by decide +kernel
theorem test_out_rec_close : refusal? (exec .outRecClose (after .outRecClose recording)) = some .noOpenRecord := by decide +kernel
theorem test_out_err_framing : (after (.outErrFraming 0 3 254) fresh).io.outs = [.errFraming 0 3 254] := by
  decide +kernel
theorem test_out_err_ecc : (after (.outErrEcc 0 1 7) fresh).io.outs = [.errEcc 0 1 7] := by decide +kernel
theorem test_out_end : refusal? (exec .feEos (after .outEnd fresh)) = some .tokenAfterEos := by decide +kernel
theorem test_outword : (after (.outword 264#10) recording).io.records = [⟨[0x01#8, 0x08#8], false⟩] ∧
    (after (.outword 1023#10) recording).io.records = [⟨[0x03#8, 0xFF#8], false⟩] := by decide +kernel

/-- The tap text of the sequence `01nmwle` at 15/2 seconds (spec 95 section 2.3). -/
theorem test_interchange : interchangeText [.segstart (15 / 2), .zero, .one, .anomaly .narrow,
    .anomaly .mid, .anomaly .wide, .anomaly .long, .gap] =
    [.time (15 / 2), .data ['0', '1', 'n', 'm', 'w', 'l', 'e']] := by decide +kernel

/-! ## Steps and opcode-table words -/

theorem test_step_fetches : (nextState? (step (State.reset.withFetchWord 24 5))).map (fun s => s.det.n) = some 1 ∧
    step State.reset = .next State.reset := by
  constructor
  · decide +kernel
  · rfl
theorem test_step_refuses : refusal? (step (fresh.withFetchWord 104 0x8000000000000000000000000)) = some (.undecodable .reservedOutKind) := by decide +kernel
theorem test_table_words : decodeTableWord 24 0x10000 = some .inEos ∧
    decodeTableWord 40 0x1D3D8F19C3 = some (.row 0b11101#5 0x3D8F19C3#32) ∧
    decodeTableWord 8 24 = some .clEos ∧ decodeTableWord 8 8 = some .syEos := by decide

/-! ## Witnesses: for each statement with hypotheses, states and operands that meet them -/

theorem witness_ResetPulseClearsTheBlock :
    ({ synced with pending := [.reset, .token (.inPort 5)] } : State).pending =
      .reset :: [.token (.inPort 5)] := rfl

theorem witness_StepRunsTheDecodedToken :
    decode fresh.cfg (.inPort 5) = .ok (.inSample 5) ∧ fresh.pending = [] ∧
    decode fresh.cfg (.fe 7#3 { }) = .error .reservedFeKind := by decide

theorem witness_DecodeOfEncode :
    let c : Config := { testConfig with sampleWidth := 1, counterWidth := 1 }
    0 < c.sampleWidth ∧ 0 < c.counterWidth ∧ (Instr.inSample (-1)).wellFormed c = true ∧
      (Instr.outRecOpen 1).wellFormed c = true ∧ (Instr.outErrFraming 1 1 1).wellFormed c = true := by decide

theorem witness_ReservedCodesAreRejected :
    5 ≤ (0b00101#5).toNat ∧ (0b00111#5).toNat ≤ 7 ∧
    8 * 2 ^ (3 * testConfig.counterWidth) ≤ 0x8000000000000000000000000 ∧
    0xFFFFFFFFFFFFFFFFFFFFFFFFF < 16 * 2 ^ (3 * testConfig.counterWidth) := by decide

theorem witness_TokensAreTurnedAwayByName :
    (after .inEos fresh).sts.done = true ∧ (after .feEos fresh).io.outs.getLast? = some .endRun ∧
    fresh.sts.done = false ∧ fresh.io.outs.getLast? ≠ some .endRun ∧
    ({ testConfig with sampleRate := 0 } : Config).sampleRate < 1 ∧
    ({ testConfig with bitRate := 0 } : Config).bitRate < 1 ∧
    ({ testConfig with energyThreshold := -1 } : Config).energyThreshold < 0 ∧
    ({ testConfig with tolerance := -1 } : Config).tolerance < 0 ∧
    1 ≤ ({ testConfig with tolerance := 1 } : Config).tolerance := by decide +kernel

theorem witness_DerivedConstants : configValid testConfig = true ∧
    configValid { testConfig with tolerance := 0, dcWindowBits := 3 / 2 } = true ∧
    0 < ({ testConfig with dcWindowBits := 3 / 2 } : Config).dcWindowBits := by decide +kernel

theorem witness_InterpolationLiesBetweenSamples : signChange (-3) 1 = true ∧ signChange 0 (-7) = true := by
  decide +kernel

/-- `W` of the test configuration, as the statements write it. -/
theorem ceil_test : ((40 : Nat) : Int) = ⌈((4 : Nat) : Rat) / ((1 : Nat) : Rat) * 10⌉ := by norm_num
theorem ceil_dv3 : ((5 : Nat) : Int) = ⌈((1 : Nat) : Rat) / ((2 : Nat) : Rat) * 10⌉ ∧
    ((3 : Nat) : Int) = ⌈((1 : Nat) : Rat) / ((2 : Nat) : Rat) * 6⌉ := by constructor <;> norm_num

/-- The first sample (no `prev`), and the sample of DV6 (a sign change with the buffer full). -/
theorem witness_SampleWithoutDcWindow :
    (((40 : Nat) : Int) = ⌈(fresh.cfg.sampleRate : Rat) / fresh.cfg.bitRate * 10⌉ ∧
      accepting fresh = true ∧ ¬ 0 < fresh.cfg.dcWindowBits ∧ fresh.det.prev = none ∧
      [(5 : Rat)] = (if 40 < fresh.det.ebuf.length + 1 then (fresh.det.ebuf ++ [5]).tail
        else fresh.det.ebuf ++ [5]) ∧
      (5 : Rat) ∈ [(5 : Rat)] ∧ ∀ e ∈ [(5 : Rat)], e ≤ 5 ∧ 5 ≤ e) ∧
    ((40 : Nat) : Int) = ⌈(beforeS1.cfg.sampleRate : Rat) / beforeS1.cfg.bitRate * 10⌉ ∧
    ∃ buf : List Rat, accepting beforeS1 = true ∧ ¬ 0 < beforeS1.cfg.dcWindowBits ∧
      beforeS1.det.prev = some (-1000) ∧ ¬ ((-1000 : Rat) < 0 ↔ (1000 : Rat) < 0) ∧
      buf = (if 40 < beforeS1.det.ebuf.length + 1 then (beforeS1.det.ebuf ++ [1000]).tail
        else beforeS1.det.ebuf ++ [1000]) ∧ buf.length = 40 ∧
      1000 ∈ buf ∧ (∀ e ∈ buf, e ≤ 1000) ∧ -1000 ∈ buf ∧ ∀ e ∈ buf, -1000 ≤ e :=
  ⟨⟨ceil_test, by decide +kernel⟩, ceil_test,
    List.replicate 19 1000 ++ List.replicate 20 (-1000) ++ [1000], by decide +kernel⟩

/-- The state of DV3 before its first sample. -/
def startDV3 : State := { fresh with cfg := beforeDV3.cfg }

/-- A window not yet full, and the sample of DV3. -/
theorem witness_SampleWithDcWindow :
    (((3 : Nat) : Int) =
        ⌈(startDV3.cfg.sampleRate : Rat) / startDV3.cfg.bitRate * startDV3.cfg.dcWindowBits⌉ ∧
      accepting startDV3 = true ∧ 0 < startDV3.cfg.dcWindowBits ∧
      [(10 : Int)] = (if 3 < startDV3.det.dcbuf.length + 1 then (startDV3.det.dcbuf ++ [10]).tail
        else startDV3.det.dcbuf ++ [10]) ∧ [(10 : Int)].length < 3) ∧
    ((3 : Nat) : Int) =
      ⌈(beforeDV3.cfg.sampleRate : Rat) / beforeDV3.cfg.bitRate * beforeDV3.cfg.dcWindowBits⌉ ∧
    ((5 : Nat) : Int) = ⌈(beforeDV3.cfg.sampleRate : Rat) / beforeDV3.cfg.bitRate * 10⌉ ∧
    accepting beforeDV3 = true ∧ 0 < beforeDV3.cfg.dcWindowBits ∧
    [18, 2, 10] = (if 3 < beforeDV3.det.dcbuf.length + 1 then (beforeDV3.det.dcbuf ++ [10]).tail
      else beforeDV3.det.dcbuf ++ [10]) ∧
    3 ≤ [(18 : Int), 2, 10].length ∧ [(18 : Int), 2, 10][3 / 2]? = some 2 ∧
    (-8 : Rat) = ((2 : Int) : Rat) - (([18, 2, 10].sum : Int) : Rat) / (3 : Nat) ∧
    [4, -4, -4 / 3, 8, -8] = (if 5 < beforeDV3.det.ebuf.length + 1 then
      (beforeDV3.det.ebuf ++ [(-8 : Rat)]).tail else beforeDV3.det.ebuf ++ [(-8 : Rat)]) ∧
    (8 : Rat) ∈ [(4 : Rat), -4, -4 / 3, 8, -8] ∧ (∀ e ∈ [(4 : Rat), -4, -4 / 3, 8, -8], e ≤ 8) ∧
    (-8 : Rat) ∈ [(4 : Rat), -4, -4 / 3, 8, -8] ∧ (∀ e ∈ [(4 : Rat), -4, -4 / 3, 8, -8], -8 ≤ e) ∧
    beforeDV3.det.prev = some 8 ∧ ¬ ((8 : Rat) < 0 ↔ (-8 : Rat) < 0) ∧
    [(4 : Rat), -4, -4 / 3, 8, -8].length = 5 :=
  ⟨⟨ceil_dv3.2, by decide +kernel⟩, ceil_dv3.2, ceil_dv3.1, by decide +kernel⟩

/-- The invariants hold outside a segment, and inside one with a partial chunk held. -/
theorem blockInv_fresh : BlockInv fresh := by
  refine ⟨⟨?_, ?_, ?_, ?_, ?_, ?_⟩, ⟨?_, ?_, ?_⟩, ?_, ?_, ?_, ?_⟩ <;> decide +kernel
theorem blockInv_synced : BlockInv synced := by
  refine ⟨⟨?_, ?_, ?_, ?_, ?_, ?_⟩, ⟨?_, ?_, ?_⟩, ?_, ?_, ?_, ?_⟩ <;> decide +kernel
theorem witness_EverySampleCompletes : (BlockInv fresh ∧ accepting fresh = true) ∧
    BlockInv synced ∧ accepting synced = true :=
  ⟨⟨blockInv_fresh, by decide +kernel⟩, blockInv_synced, by decide +kernel⟩

/-- The state of `hunting` with a pending zero-run. -/
def counting : State := { hunting with frm := { hunting.frm with zeroCount := 30 } }

/-- A token is taken in each of the modes, with and without a record open. -/
theorem witness_EndOfInputFlushesThePipeline :
    (accepting fresh = true ∧ fresh.frm.mode = .idle) ∧ (accepting aborted = true ∧ aborted.frm.mode = .abort) ∧
    (accepting hunting = true ∧ hunting.frm.mode = .hunt ∧ zeroReport hunting.frm = none) ∧
    (accepting synced = true ∧ synced.frm.mode = .synced ∧ zeroReport synced.frm = some 15) ∧
    (accepting recording = true ∧ recording.emt.recOpen = true) := by decide +kernel
theorem witness_ClassBands : configValid testConfig = true := by decide +kernel

theorem witness_TransitionEvents :
    accepting fresh = true ∧ fresh.cfg.energyThreshold ≤ 500 ∧ (499 : Rat) < fresh.cfg.energyThreshold ∧
    fresh.cls.last = none ∧ accepting hunting = true ∧ hunting.cls.last = some 20 ∧
    classify hunting.cfg (21 - 20) = .narrow ∧ classify hunting.cfg (22 - 20) = .short ∧
    classify hunting.cfg (23 - 20) = .mid ∧ classify hunting.cfg (24 - 20) = .long ∧
    classify hunting.cfg (25 - 20) = .wide := by decide +kernel
theorem witness_AnchorOpensASegment : accepting fresh = true ∧ fresh.cfg.energyThreshold ≤ 500 ∧
    fresh.cls.last = none ∧ fresh.frm.mode = .idle := by decide +kernel
theorem witness_RecovererTable : accepting hunting = true ∧ hunting.rcv.expecting = false ∧
    accepting (setExpecting true hunting) = true ∧ (setExpecting true hunting).rcv.expecting = true := by
  decide +kernel
theorem witness_IntervalsComplete : accepting synced = true ∧ synced.frm.mode ≠ .idle ∧
    (synced.frm.mode = .synced → synced.frm.zeroMetric ≠ none) := by decide +kernel
theorem witness_SegmentOpenAndEndsComplete : accepting fresh = true ∧ fresh.frm.mode = .idle := by
  decide +kernel
theorem witness_SegmentStartInitialisesFramer : accepting fresh = true ∧ fresh.frm.mode = .idle := by
  decide +kernel

/-- A bit that is not, and the bit that is, the 128th of the preamble. -/
theorem witness_HuntedBit : accepting hunting = true ∧ hunting.frm.mode = .hunt ∧
    ((bitsOf standInPreamble).dropLast ++ [false]).length = 128 ∧
    ∀ k < 128, ((bitsOf standInPreamble).dropLast ++ [false])[k]? = some (romT1.preamble.getMsbD k) := by
  decide +kernel
theorem witness_RowBitIsCollected : accepting synced = true ∧ synced.frm.mode = .synced ∧
    synced.frm.rowbits.length < 36 ∧ (List.replicate 35 true).length < 36 := by decide +kernel

/-- A fourth row one bit before its end, with the framing prefix and with another. -/
def lastRowBit (pre : BitVec 5) : State :=
  { synced with frm := { synced.frm with rowbits := rowStart36 pre 0x0C73C5E1#32, symPos := 290, rowStart := 254 } }

theorem witness_GoodRowJoinsTheChunk : accepting (lastRowBit 0b11101#5) = true ∧
    (lastRowBit 0b11101#5).frm.mode = .synced ∧ (lastRowBit 0b11101#5).frm.rowbits.length = 36 ∧
    (lastRowBit 0b11101#5).frm.rows.length < 14 ∧
    ((lastRowBit 0b11101#5).frm.rowbits ++ [true]).take 5 = [true, true, true, false, true] := by decide +kernel
theorem witness_BadRowRaisesFramingFault : accepting (lastRowBit 0b11100#5) = true ∧
    (lastRowBit 0b11100#5).frm.mode = .synced ∧ (lastRowBit 0b11100#5).frm.rowbits.length = 36 ∧
    (lastRowBit 0b11100#5).frm.zeroMetric = some 15 ∧
    ((lastRowBit 0b11100#5).frm.rowbits ++ [true]).take 5 ≠ [true, true, true, false, true] := by
  decide +kernel
theorem witness_GoodChunkIsEmitted :
    accepting (atLastBit chunkA) = true ∧ (atLastBit chunkA).frm.mode = .synced ∧
    (atLastBit chunkA).frm.rowbits.length = 36 ∧ (atLastBit chunkA).frm.rows.length = 14 ∧
    ((atLastBit chunkA).frm.rowbits ++ [false]).take 5 = [true, true, true, false, true] ∧
    (∀ k < 32, some ((0xAAAAAAAA#32).getLsbD (31 - k)) = ((atLastBit chunkA).frm.rowbits ++ [false])[5 + k]?) ∧
    chunkA.toList = (atLastBit chunkA).frm.rows ++ [0xAAAAAAAA#32] ∧
    (atLastBit chunkA).frm.zeroMetric = some 15 ∧
    eccResult (atLastBit chunkA).rom chunkA = .ok wordsA (Vector.replicate 32 false) := by decide +kernel
theorem witness_BadChunkRaisesEccFault :
    accepting (atLastBit chunkBad) = true ∧ (atLastBit chunkBad).frm.mode = .synced ∧
    (atLastBit chunkBad).frm.rowbits.length = 36 ∧ (atLastBit chunkBad).frm.rows.length = 14 ∧
    ((atLastBit chunkBad).frm.rowbits ++ [false]).take 5 = [true, true, true, false, true] ∧
    (∀ k < 32, some ((0xABAAAAAA#32).getLsbD (31 - k)) = ((atLastBit chunkBad).frm.rowbits ++ [false])[5 + k]?) ∧
    chunkBad.toList = (atLastBit chunkBad).frm.rows ++ [0xABAAAAAA#32] ∧
    (atLastBit chunkBad).frm.zeroMetric = some 15 ∧
    eccEntry romT1 (codewordOf chunkBad 7) = .unrecoverable ∧
    ∀ j < (7 : Fin 32), eccEntry romT1 (codewordOf chunkBad j) ≠ .unrecoverable := by decide +kernel
theorem witness_AnomalyDiscardsThePartialRow : accepting hunting = true ∧ hunting.frm.mode = .hunt ∧
    accepting synced = true ∧ synced.frm.mode = .synced := by decide +kernel
theorem witness_GapEndsTheSegment :
    (accepting recording = true ∧ recording.frm.mode = .synced ∧ recording.emt.recOpen = true) ∧
    (accepting synced = true ∧ synced.emt.recOpen = false ∧ synced.frm.zeroMetric = some 15) ∧
    (accepting counting = true ∧ counting.frm.mode = .hunt ∧ counting.emt.recOpen = false ∧
      counting.frm.zeroMetric = none ∧ 0 < counting.frm.zeroCount) ∧
    (accepting hunting = true ∧ hunting.frm.zeroMetric = none ∧ hunting.frm.zeroCount = 0) := by decide +kernel
theorem witness_SymbolEndPassesOn :
    (accepting fresh = true ∧ fresh.frm.mode = .idle) ∧ (accepting aborted = true ∧ aborted.frm.mode = .abort) ∧
    (accepting hunting = true ∧ hunting.frm.mode = .hunt) ∧ accepting synced = true ∧ synced.frm.mode = .synced := by
  decide +kernel
theorem witness_AbortIgnoresSymbols : accepting aborted = true ∧ aborted.frm.mode = .abort := by decide +kernel
theorem witness_ImpossibleSymbolsAreRefused :
    (accepting fresh = true ∧ fresh.frm.mode = .idle) ∧ accepting hunting = true ∧ hunting.frm.mode ≠ .idle := by
  decide +kernel

/-- A code with three data values at distance 1, one with none that is valid, and one with none that is
not (spec 95 section 2.6). -/
theorem neighbours_samples : neighbours romT2 0x0001#15 = [0, 33, 1] ∧ neighbours romT1 0x7508#15 = [] ∧
    neighbours romT1 0x3509#15 = [] ∧ isCodeword romT1 0x3509#15 = false := by decide +kernel

theorem witness_EccTableIsAsBuilt :
    (distance (encodeData romT2 33) 0x0001#15 = 1 ∧
      ∀ d : DataWord, distance (encodeData romT2 d) 0x0001#15 = 1 → d ≤ 33) ∧
    ((∀ d : DataWord, distance (encodeData romT1 d) 0x7508#15 ≠ 1) ∧ 0x7508#15 = encodeData romT1 264) ∧
    ((∀ d : DataWord, distance (encodeData romT1 d) 0x3509#15 ≠ 1) ∧
      ∀ d : DataWord, (0x3509#15 : Codeword) ≠ encodeData romT1 d) := by
  obtain ⟨h1, h2, h3, h4⟩ := neighbours_samples
  simp only [← mem_neighbours_iff, ne_eq, h1, h2, h3]
  refine ⟨by decide, ⟨by simp, by decide +kernel⟩, by simp, ?_⟩
  intro d hd
  have := (isCodeword_iff romT1 _).2 ⟨d, hd⟩
  rw [h4] at this
  cases this
theorem witness_EccTableProperties : (14 : Nat) < 15 ∧
    eccEntry romT2 0x0001#15 = .corrected 0x0021#15 ∧ eccEntry romT1 0x3509#15 = .unrecoverable := by
  decide +kernel
theorem witness_DecoderReplies : accepting fresh = true ∧ eccResult fresh.rom chunkBad = .fail 7 ∧
    eccResult fresh.rom chunkA = .ok wordsA (Vector.replicate 32 false) := by decide +kernel

theorem linear_highT1 : LinearTable highT1 := by unfold LinearTable; decide +kernel
theorem linear_lowT1 : LinearTable lowT1 := by unfold LinearTable; decide +kernel
theorem weight_T1 : ∀ d : DataWord, d ≠ 0 → 3 ≤ popcount (encodeData romT1 d) := by decide +kernel
theorem minDistanceThree_T1 : MinDistanceThree romT1 := fun _ _ h =>
  minDistance_of_weight linear_highT1 linear_lowT1 weight_T1 h
theorem minDistanceTwo_T1 : MinDistanceTwo romT1 := fun d e h => by
  have := minDistanceThree_T1 d e h
  omega

theorem witness_RoundTripWithoutErrors : MinDistanceTwo romT1 ∧
    ∀ j : Fin 32, codewordOf chunkA j = encodeData romT1 wordsA[j] :=
  ⟨minDistanceTwo_T1, by decide +kernel⟩

/-- The chunk with bit 12 of column 9 flipped (Program B). -/
def chunkB : Chunk := chunkA.set 2 0x85CB9FF6#32

theorem witness_SingleBitErrorIsCorrected : MinDistanceThree romT1 ∧ (12 : Nat) < 15 ∧
    (∀ j : Fin 32, j ≠ 9 → codewordOf chunkB j = encodeData romT1 wordsA[j]) ∧
    codewordOf chunkB 9 = encodeData romT1 wordsA[9] ^^^ oneBit 12 :=
  ⟨minDistanceThree_T1, by decide +kernel⟩
theorem witness_ChunkEventsInOrder : (accepting fresh = true ∧ fresh.emt.recOpen = false) ∧
    accepting recording = true ∧ recording.emt.recOpen = true := by decide +kernel

/-- The emitter and the records agree with no record, and with the second of two open. -/
theorem emitterInv_fresh : EmitterInv fresh := by constructor <;> decide +kernel
def secondRecord : State :=
  { recording with
    emt := { recOpen := true, recNo := 2 }
    io := { recording.io with records := [⟨[1, 2], true⟩, ⟨[], false⟩] } }
theorem emitterInv_secondRecord : EmitterInv secondRecord := by constructor <;> decide +kernel

/-- The bytes of the first chunk of a record, and of one whose record, the second, is open already. -/
theorem witness_ChunkBytesStandInTheRecord :
    (EmitterInv fresh ∧ fresh.emt.recOpen = false ∧ 0 = fresh.io.records.length ∧
      (nextState? (exec (.feChunkOk 0 wordsA marks3 15) fresh)).isSome = true) ∧
    (EmitterInv secondRecord ∧ secondRecord.emt.recOpen = true ∧ 1 + 1 = secondRecord.io.records.length ∧
      secondRecord.io.records[1]? = some ⟨[], false⟩ ∧
      (nextState? (exec (.feChunkOk 1 wordsA marks3 15) secondRecord)).isSome = true) :=
  ⟨⟨emitterInv_fresh, by decide +kernel⟩, emitterInv_secondRecord, by decide +kernel⟩
theorem witness_SegmentEndReports : accepting recording = true ∧ recording.emt.recOpen = true ∧
    accepting fresh = true ∧ fresh.emt.recOpen = false := by decide +kernel
theorem witness_FaultReportsThenSegmentEnd : accepting synced = true := by decide +kernel
theorem witness_EndOfRunIsLast : accepting fresh = true := by decide +kernel
theorem witness_OutEventsWriteTheStreamAndTheSpaces :
    (accepting fresh = true ∧ 0 = fresh.io.records.length ∧ 1 ≠ fresh.io.records.length ∧ fresh.io.records = []) ∧
    (accepting recording = true ∧ recording.io.records = [] ++ [⟨[], false⟩]) ∧
    accepting (after .outRecClose recording) = true ∧
    (after .outRecClose recording).io.records = [] ++ [⟨[], true⟩] := by decide +kernel
theorem witness_OutputWordIsTwoBytes : accepting recording = true ∧
    recording.io.records = [] ++ [⟨[], false⟩] := by decide +kernel
theorem witness_CodewordIsLookedUp : accepting fresh = true ∧
    (0x7508#15).extractLsb' 10 5 = 0b11101#5 ∧ (0x7508#15).extractLsb' 0 10 = 264#10 := by decide +kernel
theorem witness_RowAndPreambleAreTheirBits : accepting synced = true ∧ accepting fresh = true := by
  decide +kernel
theorem witness_RowIsReceivedWhole : accepting synced = true ∧ synced.frm.mode = .synced ∧
    synced.frm.rowbits = [] ∧ synced.frm.rows.length < 14 ∧ (0b11100#5 : BitVec 5) ≠ 0b11101#5 ∧
    synced.frm.zeroMetric = some 15 := by decide +kernel
/-- A hunting framer after an anomaly, and after a leader of `l` zeros. -/
def strayed : State := { hunting with frm := { hunting.frm with leading := false, symPos := 1 } }
def led (l : Nat) : State :=
  { hunting with frm := { hunting.frm with
      zeroCount := l, window := List.replicate (min l 128) false, symPos := l } }

theorem witness_PreambleSynchronises : accepting hunting = true ∧ hunting.frm.mode = .hunt ∧
    hunting.frm.window = [] ∧ (0#128 : PreambleWord) ≠ hunting.rom.preamble ∧
    (accepting strayed = true ∧ strayed.frm.mode = .hunt ∧ strayed.frm.window = [] ∧
      strayed.frm.leading = false) ∧
    (∀ l ∈ [0, 15, 128, 200], accepting (led l) = true ∧ (led l).frm.mode = .hunt ∧
      (led l).frm.leading = true ∧ (led l).frm.zeroCount = l ∧
      (led l).frm.window = List.replicate (min l 128) false) ∧
    (∀ k < 25, standInPreamble.getMsbD k = false) ∧ standInPreamble.getMsbD 25 = true := by
  decide +kernel

/-- A sample presented to a synchronised block. -/
def presented : State := { synced with pending := [.token (.inPort 5)] }

theorem witness_StepKeepsTheInvariants : BlockInv presented ∧
    (∀ p rest, presented.pending = .token p :: rest → ∀ i, decode presented.cfg p = .ok i → fromHost i = true) ∧
    (nextState? (step presented)).isSome = true := by
  refine ⟨⟨blockInv_synced.1, blockInv_synced.2, blockInv_synced.3, blockInv_synced.4,
    blockInv_synced.5, blockInv_synced.6⟩, ?_, by decide +kernel⟩
  intro p rest hp i hd
  cases hp
  have : decode presented.cfg (.inPort 5) = .ok (.inSample 5) := by decide
  rw [this] at hd
  cases hd
  rfl
theorem witness_StepKeepsTheFramerInvariants : FramerInv presented.frm ∧
    (nextState? (step presented)).isSome = true := ⟨blockInv_synced.1, by decide +kernel⟩
theorem witness_StepKeepsTheSpacesFolds :
    recording.io.records = recordsOf recording.io.outs ∧ recording.io.manifest = manifestOf recording.io.outs ∧
    (nextState? (step { fresh with pending := [.token (.inPort 5)] })).isSome = true ∧
    fresh.io.records = recordsOf fresh.io.outs ∧ fresh.io.manifest = manifestOf fresh.io.outs := by
  decide +kernel
theorem witness_EmitterAgreesWithRecords : EmitterInv secondRecord ∧
    (nextState? (exec .syGap secondRecord)).isSome = true ∧
    (nextState? (exec (.outByte 5) secondRecord)).isSome = true :=
  ⟨emitterInv_secondRecord, by decide +kernel, by decide +kernel⟩
/-- The state after a first chunk. -/
def oneChunk : State := after (.feChunkOk 0 wordsA marks3 15) fresh

theorem witness_RecordsHoldWholeChunks : EmitterInv oneChunk ∧
    (∀ r ∈ oneChunk.io.records, 64 ∣ r.bytes.length ∧ 0 < r.bytes.length) ∧ oneChunk.io.records.length = 1 ∧
    (nextState? (exec (.feChunkOk 1 wordsA marks3 15) oneChunk)).isSome = true := by
  refine ⟨⟨?_, ?_, ?_⟩, ?_, ?_, ?_⟩ <;> decide +kernel
theorem witness_OutputOnlyGrows : (nextState? (exec .syGap recording)).isSome = true ∧
    (nextState? (step { recording with pending := [.reset] })).isSome = true ∧
    (nextState? (exec (.outByte 5) recording)).isSome = true := by decide +kernel
theorem witness_AtMostOneFaultPerToken :
    (nextState? (exec (.row 0b11100#5 0#32) synced)).isSome = true ∧
    (nextState? (exec (.inSample 1000) beforeS1)).isSome = true := by decide +kernel
theorem witness_FlagsCountersAndConstantsStand :
    (after (.row 0b11100#5 0#32) synced).sts.errFraming = true ∧
    (after (.eccDecode chunkA) { synced with sts := { synced.sts with errEcc := true } }).sts.errEcc = true := by
  decide +kernel
theorem witness_BurstsAreBounded : (nextState? (exec (.inSample 1000) beforeS1)).isSome = true ∧
    (nextState? (exec .inEos synced)).isSome = true := by decide +kernel
theorem witness_SpacingsAreNeverNegative : fromHost (.inSample 1000) = true ∧
    (∀ l, (after (.inSample 1000) beforeS1).cls.last = some l →
      l ≤ (newestIndex (after (.inSample 1000) beforeS1) : Rat)) ∧
    (after (.inSample 1000) beforeS1).cls.last = some (79 / 2) ∧ signChange 1000 (-5) = true ∧
    (nextState? (exec (.inSample (-5)) (after (.inSample 1000) beforeS1))).isSome = true := by
  have h : (after (.inSample 1000) beforeS1).cls.last = some (79 / 2) := by decide +kernel
  refine ⟨rfl, ?_, h, by decide +kernel, by decide +kernel⟩
  intro l hl
  rw [h] at hl
  cases hl
  decide +kernel

/-- The last bit of a row with a wrong prefix, presented: the step that takes the framing fault. -/
def faulting : State := { lastRowBit 0b11100#5 with pending := [.token (.sy 0b0001#4 0)] }

theorem witness_StepKeepsOneFaultPerSegment : OneFaultInv faulting ∧
    (∀ p rest, faulting.pending = .token p :: rest →
      ∀ i, decode faulting.cfg p = .ok i → presentsReport i = false) ∧
    (nextState? (step faulting)).any (fun t => t.io.outs == [.errFraming 0 3 254, .zeroRun 15]) = true := by
  have ho : faulting.io.outs = [] := rfl
  refine ⟨⟨?_, by simp [ho], by simp [ho], by simp [ho]⟩, ?_, by decide +kernel⟩
  · decide +kernel
  · intro p rest hp i hd
    cases hp
    have : decode faulting.cfg (.sy 0b0001#4 0) = .ok .syOne := by decide
    rw [this] at hd
    cases hd
    rfl

end Sys2Proof.Tests
end

section
/-! The derived constants of R10 and the taking of the next input (R3), and the two statements on them. -/

namespace Sys2Proof.Machine

/-! ## The band edges (R10) -/

theorem edgeNarrowShort_eq (c : Config) : edgeNarrowShort c = (2 - c.tolerance) * spb c / 4 :=
  (mul_div_assoc ..).symm

theorem edgeShortMid_eq (c : Config) : edgeShortMid c = (2 + c.tolerance) * spb c / 4 :=
  (mul_div_assoc ..).symm

theorem edgeMidLong_eq (c : Config) : edgeMidLong c = (4 - c.tolerance) * spb c / 4 :=
  (mul_div_assoc ..).symm

theorem edgeLongWide_eq (c : Config) : edgeLongWide c = (4 + c.tolerance) * spb c / 4 :=
  (mul_div_assoc ..).symm

theorem quarter_pos {c : Config} (h : 0 < spb c) : 0 < quarter c := div_pos h (by norm_num)

/-- Every edge is a multiple of the quarter-bit period, so the edges stand in the order of their factors:
`0 < 2 − τ ≤ 2 + τ < 4 − τ ≤ 4 + τ` for `0 ≤ τ < 1`. -/
theorem edges_ordered {c : Config} (hspb : 0 < spb c) (h0 : 0 ≤ c.tolerance) (h1 : c.tolerance < 1) :
    0 < edgeNarrowShort c ∧ edgeNarrowShort c ≤ edgeShortMid c ∧ edgeShortMid c < edgeMidLong c ∧
      edgeMidLong c ≤ edgeLongWide c := by
  have hq : 0 < quarter c := quarter_pos hspb
  refine ⟨mul_pos (by linarith) hq, ?_, ?_, ?_⟩
  · exact mul_le_mul_of_nonneg_right (by linarith) hq.le
  · exact mul_lt_mul_of_pos_right (by linarith) hq
  · exact mul_le_mul_of_nonneg_right (by linarith) hq.le

/-! ## The capacities of the two buffers (R10) -/

/-- The ceiling of a positive product is at least 1, so the energy buffer holds a sample. -/
theorem one_le_energyLen {c : Config} (hspb : 0 < spb c) : 1 ≤ energyLen c := by
  have h : (0 : Int) < energyLen c := by
    rw [energyLen_eq]
    exact Int.ceil_pos.2 (mul_pos hspb (by norm_num))
  omega

theorem one_le_dcLen {c : Config} (hspb : 0 < spb c) (hd : 0 < c.dcWindowBits) : 1 ≤ dcLen c := by
  have h : (0 : Int) < dcLen c := by
    rw [dcLen_eq hd]
    exact Int.ceil_pos.2 (mul_pos hspb hd)
  omega

/-- The element `MID` stands in a buffer of `D` elements, and `SHIFT` elements come after it. -/
theorem dcMid_add_dcShift {c : Config} (h : 1 ≤ dcLen c) : dcMid c + dcShift c + 1 = dcLen c := by
  unfold dcShift dcMid
  omega

theorem dcMid_eq_floor (c : Config) : (dcMid c : Int) = ⌊(dcLen c : Rat) / 2⌋ := by
  exact_mod_cast (Rat.floor_natCast_div_natCast (dcLen c) 2).symm

/-! ## What a step does for each head of the queue (R3, R270, R292) -/

theorem step_idle {s : State} (h : s.pending = []) : step s = .next s := by
  simp [step, fetch, h]

theorem step_token_decoded {s : State} {p : Packet} {rest : List HostInput} {i : Instr}
    (h : s.pending = .token p :: rest) (hd : decode s.cfg p = .ok i) :
    step s = exec i { s with pending := rest } := by
  simp [step, fetch, h, hd]

theorem step_token_rejected {s : State} {p : Packet} {rest : List HostInput} {r : Reject}
    (h : s.pending = .token p :: rest) (hd : decode s.cfg p = .error r) :
    step s = .refused (.undecodable r) := by
  simp [step, fetch, h, hd]

end Sys2Proof.Machine

namespace Sys2Proof.Claims
open Sys2Proof.Machine

/-- Settles O8: a valid configuration has a positive `spb`, from which the sizes and the order follow. -/
theorem derivedConstants : Obligations.DerivedConstants := by
  intro c hc
  obtain ⟨hsample, hbit, -, htol0, htol1⟩ := (configValid_iff c).1 hc
  have hspb : 0 < spb c := spb_pos hsample hbit
  refine ⟨spb_eq c, hspb, energyLen_eq c, one_le_energyLen hspb, ?_, edgeNarrowShort_eq c,
    edgeShortMid_eq c, edgeMidLong_eq c, edgeLongWide_eq c, edges_ordered hspb htol0 htol1⟩
  intro hdc
  have hlen : 1 ≤ dcLen c := one_le_dcLen hspb hdc
  exact ⟨dcLen_eq hdc, hlen, dcMid_add_dcShift hlen, dcMid_eq_floor c⟩

/-- Settles O3: one lemma for each head of the queue. -/
theorem stepRunsTheDecodedToken : Obligations.StepRunsTheDecodedToken := by
  intro s
  refine ⟨?decoded, step_idle, ?rejected⟩
  case decoded => exact fun p rest i hp hd => step_token_decoded hp hd
  case rejected => exact fun p rest r hp hd => step_token_rejected hp hd

end Sys2Proof.Claims
end

section
/-! The invariants of R45 over every step: what one symbol of the `SY` channel does to the framer and to
the flag `rec_open`, what one instruction is made of, and the statements that follow from the two. -/

namespace Sys2Proof.Machine

/-! ## One symbol of the `SY` channel -/

/-- The `SY` channel carries `y` (R93). -/
def sendSymbol : SySymbol → State → Out
  | .zero => sendZero
  | .one => sendOne
  | .gap => sendGap
  | .segstart time => sendSegstart time
  | .anomaly .narrow => sendAnomNarrow
  | .anomaly .mid => sendAnomMid
  | .anomaly .long => sendAnomLong
  | .anomaly .wide => sendAnomWide
  | .eos => sendEos

/-- The symbols that end a segment (R196, R197). -/
def closes : SySymbol → Bool
  | .gap => true
  | .eos => true
  | _ => false

/-- The framer with one more symbol counted (R34). -/
def counted (f : Framer) : Framer := { f with symPos := f.symPos + 1 }

@[simp] theorem closes_bitSymbol (b : Bool) : closes (bitSymbol b) = false := by cases b <;> rfl

theorem sendSymbol_bit (b : Bool) (s : State) : sendSymbol (bitSymbol b) s = sendBit b s := by
  cases b <;> rfl

theorem sendSymbol_anomaly (k : AnomalyKind) (s : State) :
    sendSymbol (.anomaly k) s = symbolAnomaly (tap (.anomaly k) s) := by
  cases k <;> rfl

theorem sendSymbol_effect {y : SySymbol} {s t : State} (h : sendSymbol y s = .next t) : Effect s t := by
  cases y with
  | zero => exact sendZero_effect h
  | one => exact sendOne_effect h
  | gap => exact sendGap_effect h
  | segstart time => exact sendSegstart_effect h
  | anomaly k => exact symbolAnomaly_effect ((sendSymbol_anomaly k s).symm.trans h)
  | eos => exact sendEos_effect h

/-- The outcomes of the symbol `y` for a framer `f` and the flag `rec_open`, `o`: the framer and the flag
that it leaves, under the preamble `pre`. -/
inductive Received (pre : PreambleWord) (f : Framer) (o : Bool) : SySymbol → Framer → Bool → Prop
  /-- a segment starts (R185) -/
  | opened (time : Rat) (hm : f.mode = .idle) : Received pre f o (.segstart time) (segmentStart f) o
  /-- a bit is hunted (R188) -/
  | hunted (b : Bool) (hm : f.mode = .hunt) :
      Received pre f o (bitSymbol b) (huntBit pre b (counted f)) o
  /-- a bit joins a row that it does not complete (R189) -/
  | stored (b : Bool) (hm : f.mode = .synced) (hl : f.rowbits.length ≠ 36) :
      Received pre f o (bitSymbol b) (collected b f.symPos (counted f)) o
  /-- a bit completes a row that joins the chunk (R190) -/
  | joined (b : Bool) (p : Payload) (hm : f.mode = .synced) (hl : f.rows.length ≠ 14) :
      Received pre f o (bitSymbol b)
        { collected b f.symPos (counted f) with rowbits := [], rows := f.rows ++ [p] } o
  /-- a bit completes a row whose five framing bits are wrong, or a chunk with a bad column (R266) -/
  | faulted (b : Bool) (hm : f.mode = .synced) :
      Received pre f o (bitSymbol b)
        { dropAssembly (collected b f.symPos (counted f)) with mode := .abort } false
  /-- a bit completes a chunk that the emitter takes (R191) -/
  | decoded (b : Bool) (hm : f.mode = .synced) :
      Received pre f o (bitSymbol b)
        { collected b f.symPos (counted f) with
          rowbits := [], rows := [], chunkIndex := f.chunkIndex + 1 } true
  /-- an anomaly inside a segment (R203) -/
  | disturbed (k : AnomalyKind) (hm : f.mode = .hunt ∨ f.mode = .synced) :
      Received pre f o (.anomaly k) (anomaly (counted f)) o
  /-- a bit or an anomaly after a fault (R199) -/
  | ignored (y : SySymbol) (hy : closes y = false) (hm : f.mode = .abort) : Received pre f o y f o
  /-- the segment ends, or the symbols do (R196, R197) -/
  | closed (y : SySymbol) (hy : closes y = true) :
      Received pre f o y (idledFramer f) (if f.mode = .hunt ∨ f.mode = .synced then false else o)

/-- A row bit of a synchronised framer has four of the outcomes (R189 to R191). -/
theorem rowBit_received {b : Bool} {s t : State} (hm : s.frm.mode = .synced)
    (h : rowBit b s.frm.symPos (shownBit b s) = .next t) :
    Received s.rom.preamble s.frm s.emt.recOpen (bitSymbol b) t.frm t.emt.recOpen := by
  rcases rowBit_next h with ⟨hl, rfl⟩ | ⟨-, -, rfl⟩ | ⟨-, -, hr, rfl⟩ | ⟨p, -, -, -, hc⟩
  · exact .stored b hm hl
  · rw [raiseFault_eq]
    exact .faulted b hm
  · exact .joined b _ hm hr
  · rcases chunkDone_next hc with ⟨col, -, rfl⟩ | ⟨words, corr, m, -, -, rfl⟩
    · rw [raiseFault_eq]
      exact .faulted b hm
    · rw [chunkOk_eq]
      show Received _ _ _ _ _ (openedEmitter s.emt).recOpen
      rw [openedEmitter_recOpen]
      exact .decoded b hm

theorem sendBit_received {b : Bool} {s t : State} (h : sendBit b s = .next t) :
    Received s.rom.preamble s.frm s.emt.recOpen (bitSymbol b) t.frm t.emt.recOpen := by
  cases hm : s.frm.mode with
  | idle => cases b <;> simp [sendBit, sendOne, sendZero, symbolBit, hm] at h
  | hunt =>
    rw [sendBit_hunt hm] at h
    rw [← Host.Outcome.next.inj h]
    exact .hunted b hm
  | synced => exact rowBit_received hm ((sendBit_synced hm b).symm.trans h)
  | abort =>
    have ht : t = tap (bitSymbol b) s := by
      cases b <;> simpa [sendBit, sendOne, sendZero, symbolBit, hm, bitSymbol] using h.symm
    rw [ht]
    exact .ignored _ (closes_bitSymbol b) hm

theorem symbolAnomaly_received {k : AnomalyKind} {s t : State}
    (h : symbolAnomaly (tap (.anomaly k) s) = .next t) :
    Received s.rom.preamble s.frm s.emt.recOpen (.anomaly k) t.frm t.emt.recOpen := by
  unfold symbolAnomaly at h
  simp only [tap_frm] at h
  split at h <;> cases h
  next hm => exact .disturbed k (.inl hm)
  next hm => exact .disturbed k (.inr hm)
  next hm => exact .ignored _ rfl hm

theorem sendGap_received {s t : State} (h : sendGap s = .next t) :
    Received s.rom.preamble s.frm s.emt.recOpen .gap t.frm t.emt.recOpen := by
  have hclosed := Received.closed (pre := s.rom.preamble) (f := s.frm) (o := s.emt.recOpen) .gap rfl
  unfold sendGap at h
  simp only [tap_frm] at h
  split at h <;> cases h
  all_goals next hm => simpa [segTerminate, idledFramer, hm] using hclosed

theorem sendEos_received {s t : State} (h : sendEos s = .next t) :
    Received s.rom.preamble s.frm s.emt.recOpen .eos t.frm t.emt.recOpen := by
  have hclosed := Received.closed (pre := s.rom.preamble) (f := s.frm) (o := s.emt.recOpen) .eos rfl
  rw [sendEos_eq] at h
  rw [← Host.Outcome.next.inj h]
  by_cases hm : s.frm.mode = .hunt ∨ s.frm.mode = .synced <;> simpa [hm] using hclosed

/-- What a symbol that goes on has done to the framer and to the flag `rec_open`. -/
theorem sendSymbol_received {y : SySymbol} {s t : State} (h : sendSymbol y s = .next t) :
    Received s.rom.preamble s.frm s.emt.recOpen y t.frm t.emt.recOpen := by
  cases y with
  | zero => exact sendBit_received (b := false) h
  | one => exact sendBit_received (b := true) h
  | gap => exact sendGap_received h
  | segstart time =>
    simp only [sendSymbol, sendSegstart, tap_frm] at h
    cases hm : s.frm.mode <;> simp only [hm] at h <;> cases h
    exact .opened time hm
  | anomaly k => exact symbolAnomaly_received ((sendSymbol_anomaly k s).symm.trans h)
  | eos => exact sendEos_received h

/-! ## The framer's clauses of R45 -/

/-- A framer that is not synchronised holds no part of a chunk. -/
theorem FramerInv.no_assembly {f : Framer} (h : FramerInv f) (hm : f.mode ≠ .synced) :
    f.rowbits = [] ∧ f.rows = [] := by
  by_contra hne
  exact hm (h.assembly_synced (by tauto))

/-- The bit that completes the preamble leaves a fresh synchronised framer, every other one a framer that
still hunts, with a window within its capacity (R188). -/
theorem huntBit_framerInv {f : Framer} (pre : PreambleWord) (b : Bool) (h : FramerInv f)
    (hm : f.mode = .hunt) : FramerInv (huntBit pre b f) := by
  obtain ⟨hbits, hrows⟩ := h.no_assembly (by simp [hm])
  unfold huntBit
  simp only
  split
  · exact ⟨by simp, by simp, by simp, by simp, by simp, by simp⟩
  · exact ⟨push_length_le b h.window_le, h.rowbits_le, h.rows_le, by simp [hm],
      fun _ => h.metric_none hm, by simp [hbits, hrows]⟩

theorem anomaly_framerInv {f : Framer} (h : FramerInv f) : FramerInv (anomaly f) := by
  unfold anomaly
  split
  next hm => exact ⟨by simp, h.rowbits_le, h.rows_le, h.metric_some, h.metric_none, h.assembly_synced⟩
  next hm => exact ⟨by simp, by simp, h.rows_le, h.metric_some, h.metric_none, fun _ => hm⟩
  next => exact h
  next => exact h

theorem idledFramer_framerInv {f : Framer} (h : FramerInv f) : FramerInv (idledFramer f) := by
  unfold idledFramer
  split
  · exact ⟨by simp, by simp, by simp, by simp, by simp, by simp⟩
  next hm =>
    obtain ⟨hbits, hrows⟩ := h.no_assembly fun hs => hm (.inr hs)
    exact ⟨h.window_le, h.rowbits_le, h.rows_le, by simp, by simp, by simp [hbits, hrows]⟩

theorem counted_framerInv {f : Framer} (h : FramerInv f) : FramerInv (counted f) :=
  ⟨h.window_le, h.rowbits_le, h.rows_le, h.metric_some, h.metric_none, h.assembly_synced⟩

/-- Every symbol keeps the framer's clauses. -/
theorem Received.framerInv {pre : PreambleWord} {f g : Framer} {o o' : Bool} {y : SySymbol}
    (hr : Received pre f o y g o') (h : FramerInv f) : FramerInv g := by
  have metric : f.mode = .synced → f.zeroMetric ≠ none := fun hm => h.metric_some (.inl hm)
  have hbits := h.rowbits_le
  have hrows := h.rows_le
  cases hr with
  | opened time hm => exact ⟨by simp, by simp, by simp, by simp, by simp, by simp⟩
  | hunted b hm => exact huntBit_framerInv pre b (counted_framerInv h) hm
  | stored b hm hl =>
    exact ⟨h.window_le, by simp [collected, counted]; omega, hrows, fun _ => metric hm,
      h.metric_none, fun _ => hm⟩
  | joined b p hm hl =>
    exact ⟨h.window_le, by simp, by simp; omega, fun _ => metric hm, h.metric_none, fun _ => hm⟩
  | faulted b hm => exact ⟨by simp, by simp, by simp, fun _ => metric hm, by simp, by simp⟩
  | decoded b hm =>
    exact ⟨h.window_le, by simp, by simp, fun _ => metric hm, h.metric_none, fun _ => hm⟩
  | disturbed k hm => exact anomaly_framerInv (counted_framerInv h)
  | ignored _ hy hm => exact h
  | closed _ hy => exact idledFramer_framerInv h

/-! ## The mode and the open record after a symbol -/

theorem huntBit_mode_ne_idle {f : Framer} (pre : PreambleWord) (b : Bool) (hm : f.mode = .hunt) :
    (huntBit pre b f).mode ≠ .idle := by
  unfold huntBit
  simp only
  split <;> simp [hm]

@[simp] theorem anomaly_mode (f : Framer) : (anomaly f).mode = f.mode := by
  unfold anomaly
  split <;> rfl

@[simp] theorem anomaly_chunkIndex (f : Framer) : (anomaly f).chunkIndex = f.chunkIndex := by
  unfold anomaly
  split <;> rfl

/-- The framer is in `IDLE` exactly after the symbols that end a segment (R185, R196, R197). -/
theorem Received.mode_idle_iff {pre : PreambleWord} {f g : Framer} {o o' : Bool} {y : SySymbol}
    (hr : Received pre f o y g o') : g.mode = .idle ↔ closes y = true := by
  cases hr with
  | opened time hm => simp [closes]
  | hunted b hm => simpa using huntBit_mode_ne_idle pre b (f := counted f) hm
  | stored b hm hl => simp [collected, counted, hm]
  | joined b p hm hl => simp [collected, counted, hm]
  | faulted b hm => simp
  | decoded b hm => simp [collected, counted, hm]
  | disturbed k hm => rcases hm with hm | hm <;> simp [counted, hm, closes]
  | ignored _ hy hm => simp [hm, hy]
  | closed _ hy => simp [idledFramer, hy]

/-- A record is open only while the framer is synchronised and has handed on a chunk (R45). -/
def RecordSynced (o : Bool) (f : Framer) : Prop := o = true → f.mode = .synced ∧ 1 ≤ f.chunkIndex

/-- Every symbol keeps that: only a decoded chunk opens a record, and every way out of `SYNCED` closes it. -/
theorem Received.recordSynced {pre : PreambleWord} {f g : Framer} {o o' : Bool} {y : SySymbol}
    (hr : Received pre f o y g o') (h : RecordSynced o f) : RecordSynced o' g := by
  have shut : f.mode ≠ .synced → o = false := fun hm => by
    by_contra ho
    exact hm (h (by simpa using ho)).1
  cases hr with
  | opened time hm => simp [RecordSynced, shut (by simp [hm])]
  | hunted b hm => simp [RecordSynced, shut (by simp [hm])]
  | stored b hm hl => exact h
  | joined b p hm hl => exact h
  | faulted b hm => simp [RecordSynced]
  | decoded b hm => exact fun _ => ⟨hm, Nat.le_add_left 1 _⟩
  | disturbed k hm => simpa [RecordSynced, counted] using h
  | ignored _ hy hm => exact h
  | closed _ hy =>
    by_cases hm : f.mode = .hunt ∨ f.mode = .synced
    · simp [RecordSynced, hm]
    · simp [RecordSynced, shut fun hs => hm (.inr hs)]

/-! ## What an instruction is made of -/

/-- An interval sets the flag `expecting`, then sends on nothing or one symbol that ends no segment (R173). -/
theorem sendInterval_next {k : IntervalClass} {s t : State} (h : sendInterval k s = .next t) :
    ∃ b, t = setExpecting b s ∨ ∃ y, closes y = false ∧ sendSymbol y (setExpecting b s) = .next t := by
  cases k with
  | narrow => exact ⟨false, .inr ⟨.anomaly .narrow, rfl, h⟩⟩
  | mid => exact ⟨false, .inr ⟨.anomaly .mid, rfl, h⟩⟩
  | wide => exact ⟨false, .inr ⟨.anomaly .wide, rfl, h⟩⟩
  | short =>
    simp only [sendInterval, intervalShort] at h
    split at h
    · exact ⟨false, .inr ⟨.one, rfl, h⟩⟩
    · exact ⟨true, .inl (Host.Outcome.next.inj h).symm⟩
  | long =>
    simp only [sendInterval, intervalLong] at h
    split at h
    · exact ⟨false, .inr ⟨.anomaly .long, rfl, h⟩⟩
    · exact ⟨s.rcv.expecting, .inr ⟨.zero, rfl, h⟩⟩

/-- The four outcomes of a transition: the anchor of a segment, an interval, a quiet event outside a
segment, and the dropout that ends one (R150). -/
theorem transition_next {ifrac energy : Rat} {s t : State} (h : transition ifrac energy s = .next t) :
    (s.cls.last = none ∧ ∃ time,
      sendSymbol (.segstart time) (setExpecting false { s with cls := { last := some ifrac } }) = .next t) ∨
    (s.cls.last ≠ none ∧ ∃ k, sendInterval k { s with cls := { last := some ifrac } } = .next t) ∨
    t = s ∨
    sendSymbol .gap (setExpecting false { s with cls := { last := none } }) = .next t := by
  unfold transition at h
  split at h
  · simp only at h
    split at h
    next hl => exact .inl ⟨hl, _, h⟩
    next l hl => exact .inr (.inl ⟨by simp [hl], _, h⟩)
  · split at h
    next => exact .inr (.inr (.inl (Host.Outcome.next.inj h).symm))
    next => exact .inr (.inr (.inr h))

/-- A corrected sample changes the detector, within the capacity of the energy buffer (R23), and then makes
at most one transition (R135). -/
theorem correctedSample_transition {i : Int} {y : Rat} {s t : State}
    (h : correctedSample i y s = .next t) :
    ∃ d : Detector, (DetectorInv s.cfg s.det → DetectorInv s.cfg d) ∧
      (t = { s with det := d } ∨
        ∃ ifrac energy, transition ifrac energy { s with det := d } = .next t) := by
  refine ⟨{ s.det with ebuf := push s.det.ebuf (energyLen s.cfg) y, prev := some y },
    fun hd => ⟨push_length_le y hd.ebuf_le, hd.dcbuf_le, hd.dcbuf_off⟩, ?_⟩
  rcases correctedSample_next h with ht | ⟨p, -, -, -, ht⟩
  · exact .inl ht
  · exact .inr ⟨_, _, ht⟩

/-- A sample changes the detector, within the capacities of its buffers (R22, R23), and then makes at most
one transition (R130). -/
theorem acceptSample_transition {x : Int} {s t : State} (h : acceptSample x s = .next t) :
    ∃ d : Detector, (DetectorInv s.cfg s.det → DetectorInv s.cfg d) ∧
      (t = { s with det := d } ∨
        ∃ ifrac energy, transition ifrac energy { s with det := d } = .next t) := by
  unfold acceptSample at h
  simp only at h
  split at h
  next hon =>
    have buffered (hs : DetectorInv s.cfg s.det) : DetectorInv s.cfg
        { s.det with n := s.det.n + 1, dcbuf := push s.det.dcbuf (dcLen s.cfg) x } :=
      ⟨hs.ebuf_le, fun _ => push_length_le x (hs.dcbuf_le hon), by simp [hon]⟩
    split at h
    · exact ⟨_, buffered, .inl (Host.Outcome.next.inj h).symm⟩
    · obtain ⟨d, hd, ht⟩ := correctedSample_transition h
      exact ⟨d, hd ∘ buffered, ht⟩
  next =>
    obtain ⟨d, hd, ht⟩ := correctedSample_transition h
    exact ⟨d, fun hs => hd ⟨hs.ebuf_le, hs.dcbuf_le, hs.dcbuf_off⟩, ht⟩

/-- The events that an instruction brings to the `OUT` channel itself, beside those of the emitter. -/
def presentedEvents : Instr → List OutEvent
  | .feFaultFraming seg row off _ => [.errFraming seg row off]
  | .feFaultEcc seg chunk col _ => [.errEcc seg chunk col]
  | .feEos => [.endRun]
  | .outRecOpen k => [.recOpen k]
  | .outZeroRun n => [.zeroRun n]
  | .outCorrected chunk col => [.corrected chunk col]
  | .outByte b => [.byte b]
  | .outRecClose => [.recClose]
  | .outErrFraming seg row off => [.errFraming seg row off]
  | .outErrEcc seg chunk col => [.errEcc seg chunk col]
  | .outEnd => [.endRun]
  | .outword d => wordEvents d
  | _ => []

/-- The moves that the instruction `i` can be made of. -/
inductive Move (i : Instr) : State → State → Prop
  /-- an update of the detector, the classifier and the recoverer -/
  | front (s : State) (d : Detector) (c : Classifier) (b : Bool) :
      Move i s (setExpecting b { s with det := d, cls := c })
  /-- a symbol of the `SY` channel -/
  | symbol {y : SySymbol} {s t : State} (h : sendSymbol y s = .next t) : Move i s t
  /-- a decoded chunk (R240) -/
  | chunk (k : Nat) (words : Words) (corr : Marks) (m : Int) (s : State) :
      Move i s (chunkOk k words corr m s)
  /-- the end of a segment (R244) -/
  | segEnd (z : Option Int) (s : State) : Move i s (segmentEnd z s)
  /-- an event presented by the instruction -/
  | event {e : OutEvent} (he : e ∈ presentedEvents i) (s : State) : Move i s (emit e s)
  /-- a reply of the decoder (R219) -/
  | answer (r : EccReply) (s : State) : Move i s (reply r s)
  /-- the end of input (R137) -/
  | finish (s : State) : Move i s (setDone s)

theorem intoOpenRecord_next {e : OutEvent} {s t : State} (h : intoOpenRecord e s = .next t) :
    t = emit e s := by
  unfold intoOpenRecord at h
  split at h <;> cases h
  rfl

/-- What each of its moves keeps, an instruction keeps. -/
theorem exec_keeps {P : State → Prop} {i : Instr} {s t : State}
    (keep : ∀ {u v}, Move i u v → P u → P v) (h : exec i s = .next t) (hs : P s) : P t := by
  obtain ⟨-, h⟩ := exec_next.1 h
  have send : ∀ {y u v}, P u → sendSymbol y u = .next v → P v := fun hu hy => keep (.symbol hy) hu
  have front : ∀ {u} d c b, P u → P (setExpecting b { u with det := d, cls := c }) :=
    fun d c b hu => keep (.front _ d c b) hu
  have flag : ∀ {u} b, P u → P (setExpecting b u) := fun {u} b hu => front u.det u.cls b hu
  have interval : ∀ {k u}, P u → sendInterval k u = .next t → P t := by
    intro k u hu hk
    obtain ⟨b, rfl | ⟨y, -, hy⟩⟩ := sendInterval_next hk
    · exact flag b hu
    · exact send (flag b hu) hy
  have trans : ∀ {ifrac energy u}, P u → transition ifrac energy u = .next t → P t := by
    intro ifrac energy u hu ht
    rcases transition_next ht with ⟨-, time, hy⟩ | ⟨-, k, hk⟩ | rfl | hy
    · exact send (front u.det _ false hu) hy
    · exact interval (front u.det { last := some ifrac } u.rcv.expecting hu) hk
    · exact hu
    · exact send (front u.det _ false hu) hy
  have bits : ∀ {bs}, sendBits bs s = .next t → P t := fun hb =>
    sendBits_induct (fun b u v hv hu => send hu ((sendSymbol_bit b u).trans hv)) hb hs
  have event : ∀ {e u}, e ∈ presentedEvents i → P u → P (emit e u) := fun he hu => keep (.event he _) hu
  cases i
  case inSample =>
    obtain ⟨d, -, rfl | ⟨ifrac, energy, ht⟩⟩ := acceptSample_transition h
    · exact front d s.cls s.rcv.expecting hs
    · exact trans (front d s.cls s.rcv.expecting hs) ht
  case inEos =>
    obtain ⟨u, hu, rfl⟩ := onNext_next.1 h
    exact keep (.finish u) (send (y := .eos) (front s.det _ false hs) hu)
  case trTrans => exact trans hs h
  case trEos => exact send (y := .eos) (front s.det _ false hs) h
  case clIvlNarrow => exact interval (k := .narrow) hs h
  case clIvlShort => exact interval (k := .short) hs h
  case clIvlMid => exact interval (k := .mid) hs h
  case clIvlLong => exact interval (k := .long) hs h
  case clIvlWide => exact interval (k := .wide) hs h
  case clSegOpen => exact send (y := .segstart _) (flag false hs) h
  case clDropout => exact send (y := .gap) (flag false hs) h
  case clEos => exact send (y := .eos) (flag false hs) h
  case syZero => exact send (y := .zero) hs h
  case syOne => exact send (y := .one) hs h
  case syGap => exact send (y := .gap) hs h
  case sySegstart => exact send (y := .segstart _) hs h
  case syAnomNarrow => exact send (y := .anomaly .narrow) hs h
  case syAnomMid => exact send (y := .anomaly .mid) hs h
  case syAnomLong => exact send (y := .anomaly .long) hs h
  case syAnomWide => exact send (y := .anomaly .wide) hs h
  case syEos => exact send (y := .eos) hs h
  case row => exact bits h
  case preamble => exact bits h
  case eccDecode => rw [← Host.Outcome.next.inj h]; exact keep (.answer _ s) hs
  case codeword => rw [← Host.Outcome.next.inj h]; exact keep (.answer _ s) hs
  case feChunkOk => rw [← Host.Outcome.next.inj h]; exact keep (.chunk _ _ _ _ s) hs
  case feSegEnd => rw [← Host.Outcome.next.inj h]; exact keep (.segEnd _ s) hs
  case feFaultFraming =>
    rw [← Host.Outcome.next.inj h]
    exact keep (.segEnd _ _) (event (List.mem_singleton_self _) hs)
  case feFaultEcc =>
    rw [← Host.Outcome.next.inj h]
    exact keep (.segEnd _ _) (event (List.mem_singleton_self _) hs)
  case outByte =>
    rw [intoOpenRecord_next h]
    exact event (List.mem_singleton_self _) hs
  case outRecClose =>
    rw [intoOpenRecord_next h]
    exact event (List.mem_singleton_self _) hs
  case outword d =>
    simp only [ruleOf] at h
    split at h <;> cases h
    exact event (by simp [presentedEvents, wordEvents]) (event (by simp [presentedEvents, wordEvents]) hs)
  all_goals
    rw [← Host.Outcome.next.inj h]
    exact event (List.mem_singleton_self _) hs

/-- Every move keeps the framer's clauses: only a symbol writes the framer. -/
theorem Move.framerInv {i : Instr} {s t : State} (hm : Move i s t) (h : FramerInv s.frm) :
    FramerInv t.frm := by
  cases hm with
  | front d c b => exact h
  | symbol hy => exact (sendSymbol_received hy).framerInv h
  | chunk k words corr m => simpa [chunkOk_eq] using h
  | segEnd z => simpa using h
  | event he => exact h
  | answer r => exact h
  | finish => exact h

/-! ## The block driven at `IN` -/

/-- A block with every element at its reset value satisfies R45. -/
theorem blockInv_fresh {s : State} (hdet : s.det = {}) (hcls : s.cls = {}) (hrcv : s.rcv = {})
    (hfrm : s.frm = {}) (hemt : s.emt = {}) (hsts : s.sts = {}) : BlockInv s where
  framer := by rw [hfrm]; exact ⟨by simp, by simp, by simp, by simp, by simp, by simp⟩
  detector := by rw [hdet]; exact ⟨by simp, by simp, by simp⟩
  expecting_open := by simp [hrcv]
  idle_iff := by simp [hfrm, hcls]
  record_synced := by simp [hemt]
  done_closed := by simp [hsts]

/-- The queue is no part of R45. -/
theorem blockInv_pending {s : State} (h : BlockInv s) (rest : List HostInput) :
    BlockInv { s with pending := rest } :=
  ⟨h.framer, h.detector, h.expecting_open, h.idle_iff, h.record_synced, h.done_closed⟩

theorem blockInv_det {s : State} (h : BlockInv s) {d : Detector} (hd : DetectorInv s.cfg d) :
    BlockInv { s with det := d } :=
  ⟨h.framer, hd, h.expecting_open, h.idle_iff, h.record_synced, h.done_closed⟩

/-- A symbol leaves the sub-blocks upstream of the framer, the configuration and `done` alone. -/
theorem sendSymbol_upstream {y : SySymbol} {s t : State} (h : sendSymbol y s = .next t) :
    t.cfg = s.cfg ∧ t.det = s.det ∧ t.cls = s.cls ∧ t.rcv = s.rcv ∧ t.sts.done = s.sts.done := by
  obtain ⟨ys, es, f, e, st, r, -, hb, -, rfl⟩ := sendSymbol_effect h
  obtain ⟨-, -, -, hdone, -⟩ := hb.status
  exact ⟨rfl, rfl, rfl, rfl, hdone⟩

/-- A symbol keeps R45 when the classifier, which has moved before it, agrees with what the symbol does:
a segment is open afterwards unless the symbol ends one. -/
theorem sendSymbol_blockInv {y : SySymbol} {s t : State} (hy : sendSymbol y s = .next t)
    (hf : FramerInv s.frm) (hd : DetectorInv s.cfg s.det) (hr : RecordSynced s.emt.recOpen s.frm)
    (hdone : s.sts.done = false) (hcls : closes y = true ↔ s.cls.last = none)
    (hexp : s.rcv.expecting = true → s.cls.last ≠ none) : BlockInv t := by
  obtain ⟨hcfg, hdet, hcls', hrcv, hdone'⟩ := sendSymbol_upstream hy
  have received := sendSymbol_received hy
  exact {
    framer := received.framerInv hf
    detector := by rw [hcfg, hdet]; exact hd
    expecting_open := by rw [hrcv, hcls']; exact hexp
    idle_iff := by rw [hcls']; exact received.mode_idle_iff.trans hcls
    record_synced := received.recordSynced hr
    done_closed := by simp [hdone', hdone] }

theorem sendInterval_blockInv {k : IntervalClass} {s t : State} (h : BlockInv s)
    (hdone : s.sts.done = false) (hl : s.cls.last ≠ none) (hk : sendInterval k s = .next t) :
    BlockInv t := by
  obtain ⟨b, rfl | ⟨y, hy, ht⟩⟩ := sendInterval_next hk
  · exact ⟨h.framer, h.detector, fun _ => hl, h.idle_iff, h.record_synced, by simp [hdone]⟩
  · exact sendSymbol_blockInv ht h.framer h.detector h.record_synced hdone (by simp [hy, hl]) fun _ => hl

/-- A transition keeps R45: the classifier opens and closes its segment with the framer (R150). -/
theorem transition_blockInv {ifrac energy : Rat} {s t : State} (h : BlockInv s)
    (hdone : s.sts.done = false) (ht : transition ifrac energy s = .next t) : BlockInv t := by
  rcases transition_next ht with ⟨-, time, hy⟩ | ⟨hl, k, hk⟩ | rfl | hy
  · exact sendSymbol_blockInv hy h.framer h.detector h.record_synced hdone (by simp [closes]) (by simp)
  · have hanchored : BlockInv { s with cls := { last := some ifrac } } :=
      ⟨h.framer, h.detector, by simp, by simpa [hl] using h.idle_iff, h.record_synced, by simp [hdone]⟩
    exact sendInterval_blockInv hanchored hdone (by simp) hk
  · exact h
  · exact sendSymbol_blockInv hy h.framer h.detector h.record_synced hdone (by simp [closes]) (by simp)

theorem acceptSample_blockInv {x : Int} {s t : State} (h : BlockInv s) (hdone : s.sts.done = false)
    (ht : acceptSample x s = .next t) : BlockInv t := by
  obtain ⟨d, hd, rfl | ⟨ifrac, energy, hu⟩⟩ := acceptSample_transition ht
  · exact blockInv_det h (hd h.detector)
  · exact transition_blockInv (blockInv_det h (hd h.detector)) hdone hu

/-- The end of input leaves the segment closed, in the classifier and in the framer, so no record is open
and `done` may be set (R137, R172, R197). -/
theorem acceptEos_blockInv {s t : State} (h : BlockInv s) (hdone : s.sts.done = false)
    (ht : acceptEos s = .next t) : BlockInv t := by
  obtain ⟨u, hu, rfl⟩ := onNext_next.1 ht
  have hy : sendSymbol .eos (setExpecting false { s with cls := { last := none } }) = .next u := hu
  obtain ⟨-, -, hcls, hrcv, -⟩ := sendSymbol_upstream hy
  have hb : BlockInv u :=
    sendSymbol_blockInv hy h.framer h.detector h.record_synced hdone (by simp [closes]) (by simp)
  have hlast : u.cls.last = none := by rw [hcls]; rfl
  have hidle : u.frm.mode = .idle := hb.idle_iff.2 hlast
  have hshut : u.emt.recOpen = false := by
    by_contra ho
    have hsynced := (hb.record_synced (by simpa using ho)).1
    simp [hidle] at hsynced
  exact ⟨hb.framer, hb.detector, hb.expecting_open, hb.idle_iff, hb.record_synced,
    fun _ => ⟨hidle, hlast, by rw [setDone_rcv, hrcv]; rfl, hshut⟩⟩

theorem exec_blockInv {i : Instr} {s t : State} (hi : fromHost i = true) (h : BlockInv s)
    (ht : exec i s = .next t) : BlockInv t := by
  obtain ⟨ha, ht⟩ := exec_next.1 ht
  have hdone : s.sts.done = false := ((accepting_iff s).1 ha).1
  cases i
  case inSample x => exact acceptSample_blockInv h hdone ht
  case inEos => exact acceptEos_blockInv h hdone ht
  all_goals cases hi

/-! ## The emitter and the records -/

theorem emitterInv_congr {s t : State} (he : t.emt = s.emt) (hr : t.io.records = s.io.records)
    (h : EmitterInv s) : EmitterInv t := by
  simpa only [EmitterInv, he, hr] using h

/-- The end of a segment freezes the open record and clears the flag; without one it writes no record
(R244). -/
theorem segmentEnd_emitterInv {s : State} (z : Option Int) (h : EmitterInv s) :
    EmitterInv (segmentEnd z s) := by
  obtain ⟨hno, hopen, hold⟩ := h
  unfold segmentEnd
  split
  next ho =>
    rw [ho] at hopen
    obtain ⟨older, bytes, hr⟩ := (recordOpen_iff _).1 hopen.symm
    exact ⟨by simpa [recordsAfter] using hno, by simp [recordsAfter, hr], by
      simpa [recordsAfter] using hold⟩
  next => cases z <;> exact ⟨hno, hopen, hold⟩

/-- A decoded chunk leaves the last record open, in a new record when none was open (R241, R242). -/
theorem chunkOk_emitterInv {s : State} (k : Nat) (words : Words) (corr : Marks) (m : Int)
    (h : EmitterInv s) : EmitterInv (chunkOk k words corr m s) := by
  obtain ⟨older, r, hs, -, hfrozen, ht⟩ := chunk_records k words corr m s h
  obtain ⟨hno, hopen, hold⟩ := h
  have hemt : (chunkOk k words corr m s).emt = openedEmitter s.emt := by simp [chunkOk_eq]
  refine ⟨?_, ?_, ?_⟩
  · rw [hemt, ht, openedEmitter]
    split at hs <;> simp_all
  · simp [hemt, ht, hfrozen]
  · rw [ht, List.dropLast_concat]
    split at hs
    · simpa [hs] using hold
    next ho =>
      subst hs
      exact all_frozen hold (by rw [← hopen]; simpa using ho)

/-- An event that opens and closes no record keeps how many there are and which are frozen (R66). -/
theorem emit_emitterInv {s : State} {e : OutEvent} (hopen : ∀ k, e ≠ .recOpen k) (hclose : e ≠ .recClose)
    (h : EmitterInv s) : EmitterInv (emit e s) := by
  cases e with
  | recOpen k => exact absurd rfl (hopen k)
  | recClose => exact absurd rfl hclose
  | byte b =>
    obtain ⟨hno, hop, hold⟩ := h
    refine ⟨by simpa [recordsAfter] using hno, ?_, by simpa [recordsAfter] using hold⟩
    rw [emit_emt, hop, emit_io_records, recordsAfter]
    rcases s.io.records.eq_nil_or_concat with hr | ⟨older, r, hr⟩ <;> simp [hr, onLast]
  | _ => exact h

theorem faultEvent_emitterInv {s : State} (i : FaultInfo) (h : EmitterInv s) :
    EmitterInv (emit (faultEvent i) s) := by
  cases i <;> exact emit_emitterInv (by simp [faultEvent]) (by simp [faultEvent]) h

/-- Every burst of the emitter keeps its elements in agreement with the records. -/
theorem Effect.emitterInv {s t : State} (he : Effect s t) (h : EmitterInv s) : EmitterInv t := by
  obtain ⟨ys, es, f, e, st, r, -, hb, -, rfl⟩ := he
  cases hb with
  | silent => exact h
  | segEnd z =>
    exact emitterInv_congr (by simp) (by simp [segmentEnd_eq]) (segmentEnd_emitterInv z h)
  | fault i z =>
    exact emitterInv_congr (s := segmentEnd z (emit (faultEvent i) s)) (by simp)
      (by simp [segmentEnd_eq]) (segmentEnd_emitterInv z (faultEvent_emitterInv i h))
  | chunk k words corr m =>
    exact emitterInv_congr (by simp [chunkOk_eq]) (by simp [chunkOk_eq]) (chunkOk_emitterInv k words corr m h)
  | endRun => exact h
  | segEndRun z =>
    exact emitterInv_congr (by simp) (by simp [segmentEnd_eq, recordsAfter]) (segmentEnd_emitterInv z h)

/-- Only an `OUT.REC_OPEN` or an `OUT.REC_CLOSE` presents the opening or the close of a record. -/
theorem presentedEvents_open_close {i : Instr} (hopen : ∀ k, i ≠ .outRecOpen k) (hclose : i ≠ .outRecClose)
    {e : OutEvent} (he : e ∈ presentedEvents i) : (∀ k, e ≠ .recOpen k) ∧ e ≠ .recClose := by
  cases i
  case outRecOpen k => exact absurd rfl (hopen k)
  case outRecClose => exact absurd rfl hclose
  case outword d =>
    simp only [presentedEvents, wordEvents, List.mem_cons, List.not_mem_nil, or_false] at he
    rcases he with rfl | rfl <;> simp
  all_goals simp only [presentedEvents, List.mem_singleton, List.not_mem_nil] at he <;> (subst he; simp)

theorem Move.emitterInv {i : Instr} (hopen : ∀ k, i ≠ .outRecOpen k) (hclose : i ≠ .outRecClose)
    {s t : State} (hm : Move i s t) (h : EmitterInv s) : EmitterInv t := by
  cases hm with
  | front d c b => exact h
  | symbol hy => exact (sendSymbol_effect hy).emitterInv h
  | chunk k words corr m => exact chunkOk_emitterInv k words corr m h
  | segEnd z => exact segmentEnd_emitterInv z h
  | event he =>
    obtain ⟨ho, hc⟩ := presentedEvents_open_close hopen hclose he
    exact emit_emitterInv ho hc h
  | answer r => exact h
  | finish => exact h

/-! ## What stands through every instruction -/

/-- The sticky flags that are set, the counters kept since reset, the constants, the configuration inputs
and the queue stand from `s` to `t` (R39, R267, R78, R293). -/
structure Stands (s t : State) : Prop where
  errFraming : s.sts.errFraming = true → t.sts.errFraming = true
  errEcc : s.sts.errEcc = true → t.sts.errEcc = true
  correctedCount : s.sts.correctedCount ≤ t.sts.correctedCount
  segNo : s.frm.segNo ≤ t.frm.segNo
  recNo : s.emt.recNo ≤ t.emt.recNo
  samples : s.det.n ≤ t.det.n
  rom : t.rom = s.rom
  cfg : t.cfg = s.cfg
  pending : t.pending = s.pending

theorem Stands.refl (s : State) : Stands s s :=
  ⟨id, id, le_rfl, le_rfl, le_rfl, le_rfl, rfl, rfl, rfl⟩

theorem Stands.trans {s t u : State} (h : Stands s t) (k : Stands t u) : Stands s u :=
  ⟨k.errFraming ∘ h.errFraming, k.errEcc ∘ h.errEcc, h.correctedCount.trans k.correctedCount,
    h.segNo.trans k.segNo, h.recNo.trans k.recNo, h.samples.trans k.samples, k.rom.trans h.rom,
    k.cfg.trans h.cfg, k.pending.trans h.pending⟩

theorem Effect.stands {s t : State} (h : Effect s t) : Stands s t := by
  obtain ⟨ys, es, f, e, st, r, -, hb, hseg, rfl⟩ := h
  obtain ⟨hframing, hecc, hcount, -, hrec⟩ := hb.status
  exact ⟨hframing, hecc, hcount, hseg, hrec, le_rfl, rfl, rfl, rfl⟩

theorem exec_stands {i : Instr} {s t : State} (h : exec i s = .next t) : Stands s t :=
  exec_induct Stands.refl Stands.trans Effect.stands
    (front := fun _ _ _ _ hn => ⟨id, id, le_rfl, le_rfl, le_rfl, hn, rfl, rfl, rfl⟩)
    (event := fun _ _ => ⟨id, id, le_rfl, le_rfl, le_rfl, le_rfl, rfl, rfl, rfl⟩)
    (answer := fun _ _ => ⟨id, id, le_rfl, le_rfl, le_rfl, le_rfl, rfl, rfl, rfl⟩)
    (finish := fun _ => ⟨id, id, le_rfl, le_rfl, le_rfl, le_rfl, rfl, rfl, rfl⟩) h

end Sys2Proof.Machine

namespace Sys2Proof.Claims
open Sys2Proof.Machine

/-- Settles O50: the steps of a block driven at `IN` are idle, a reset pulse, a sample or the end of input. -/
theorem stepKeepsTheInvariants : Obligations.StepKeepsTheInvariants := by
  intro s t h hhost hstep
  rcases step_next hstep with ⟨-, rfl⟩ | ⟨rest, -, rfl⟩ | ⟨p, rest, i, hp, hi, ht⟩
  · exact h
  · exact blockInv_fresh rfl rfl rfl rfl rfl rfl
  · exact exec_blockInv (hhost p rest hp i hi) (blockInv_pending h rest) ht

/-- Settles O51: reset clears the framer, and of an instruction's moves only the symbols write it. -/
theorem stepKeepsTheFramerInvariants : Obligations.StepKeepsTheFramerInvariants := by
  intro s t h hstep
  refine step_induct (P := fun u => FramerInv u.frm) hstep h ?reset (fun _ _ hu => hu) ?exec
  case reset => exact fun u _ => (blockInv_fresh (s := applyReset u) rfl rfl rfl rfl rfl rfl).framer
  case exec => exact fun i u v hu hv => exec_keeps (P := fun w => FramerInv w.frm) Move.framerInv hv hu

/-- Settles O53: every move keeps the agreement but the two events that these two tokens present. -/
theorem emitterAgreesWithRecords : Obligations.EmitterAgreesWithRecords :=
  fun _ _ _ hopen hclose h ht => exec_keeps (Move.emitterInv hopen hclose) ht h

/-- Settles O57: the relation `Stands` holds between the two ends of every instruction. -/
theorem flagsCountersAndConstantsStand : Obligations.FlagsCountersAndConstantsStand := by
  intro i s t h
  obtain ⟨hframing, hecc, hcount, hseg, hrec, hn, hrom, hcfg, hpending⟩ := exec_stands h
  exact ⟨hframing, hecc, hcount, hseg, hrec, hn, hrom, hcfg, hpending⟩

/-- Settles O49: after reset every sub-block is at its reset value and the streams and spaces are empty. -/
theorem resetSatisfiesTheInvariants : Obligations.ResetSatisfiesTheInvariants := by
  refine ⟨blockInv_fresh rfl rfl rfl rfl rfl rfl, ⟨rfl, rfl, ?_⟩, ⟨rfl, rfl⟩, ?_, ?_, ?_⟩
  · simp [State.reset]
  · simp [WholeChunks, State.reset]
  · simp [LastNotAhead, State.reset]
  · exact ⟨by simp [State.reset], by simp [State.reset], by simp [State.reset], by simp [State.reset]⟩

end Sys2Proof.Claims
end

section
/-! The output spaces: what an instruction puts out, the bytes of the records and their whole chunks, the
tokens of the `OUT` channel and the data formats, and the seven statements on them. -/

namespace Sys2Proof.Machine

/-! ## What is put out (R60, R75) -/

/-- All that is put out from `s` to `t`: events and symbols join the streams, and the two spaces take what
the events write. -/
def PutsOut (s t : State) : Prop :=
  t.past = s.past ∧ ∃ (es : List OutEvent) (ys : List SySymbol),
    t.io = { outs := s.io.outs ++ es, syTap := s.io.syTap ++ ys,
             records := es.foldl recordsAfter s.io.records,
             manifest := s.io.manifest ++ es.flatMap linesOf }

theorem putsOut_of_io_eq {s t : State} (hp : t.past = s.past) (hio : t.io = s.io) : PutsOut s t :=
  ⟨hp, [], [], by simp [hio]⟩

theorem PutsOut.trans {s t u : State} (h : PutsOut s t) (k : PutsOut t u) : PutsOut s u := by
  obtain ⟨hp, es, ys, hio⟩ := h
  obtain ⟨kp, fs, zs, kio⟩ := k
  exact ⟨kp.trans hp, es ++ fs, ys ++ zs, by simp [kio, hio]⟩

theorem emit_putsOut (e : OutEvent) (s : State) : PutsOut s (emit e s) := ⟨rfl, [e], [], by simp [emit]⟩

theorem Effect.putsOut {s t : State} (h : Effect s t) : PutsOut s t := by
  obtain ⟨ys, es, f, e, st, r, -, -, -, rfl⟩ := h
  exact ⟨rfl, es, ys, rfl⟩

/-- Whatever an instruction does, of the streams and the spaces it changes only that. -/
theorem exec_putsOut {i : Instr} {s t : State} (h : exec i s = .next t) : PutsOut s t :=
  exec_induct (fun _ => putsOut_of_io_eq rfl rfl) PutsOut.trans Effect.putsOut
    (front := fun _ _ _ _ _ => putsOut_of_io_eq rfl rfl) (event := emit_putsOut)
    (answer := fun _ _ => putsOut_of_io_eq rfl rfl) (finish := fun _ => putsOut_of_io_eq rfl rfl) h

/-- The spaces depend on the streams alone, so that they stay the folds (R248). -/
theorem PutsOut.spacesAreFolds {s t : State} (h : PutsOut s t) (hs : SpacesAreFolds s) :
    SpacesAreFolds t := by
  obtain ⟨-, es, ys, hio⟩ := h
  simpa [SpacesAreFolds, hio] using emitAll_spaces hs es

theorem recordsAfter_length_le (rs : List Record) (e : OutEvent) :
    rs.length ≤ (recordsAfter rs e).length := by
  cases e <;> simp [recordsAfter]

theorem foldl_recordsAfter_length_le (es : List OutEvent) (rs : List Record) :
    rs.length ≤ (es.foldl recordsAfter rs).length := by
  induction es generalizing rs with
  | nil => exact le_rfl
  | cons e es ih => exact (recordsAfter_length_le rs e).trans (ih _)

theorem PutsOut.readByte {s t : State} (h : PutsOut s t) {k a : Nat} {b : Byte}
    (hb : readByte s k a = some b) : readByte t k a = some b := by
  obtain ⟨-, es, ys, hio⟩ := h
  rw [readByte_congr (s := emitAll es s) (by simp [hio])]
  exact readByte_emitAll es hb

/-- A byte that can be read belongs to an earlier run or to the present one. -/
theorem run_le_of_readByteOfRun {s : State} {run k a : Nat} {b : Byte}
    (h : readByteOfRun s run k a = some b) : run ≤ s.past.length := by
  obtain ⟨io, hio, -⟩ := Option.bind_eq_some_iff.1 h
  have hlt : run < (runsOf s).length := (List.getElem?_eq_some_iff.1 hio).1
  simpa [runsOf, Nat.lt_succ_iff] using hlt

/-- The bytes of the earlier runs stand because `past` does, those of the present run because records only
grow (R66, R296). -/
theorem PutsOut.readByteOfRun {s t : State} (h : PutsOut s t) {run k a : Nat} {b : Byte}
    (hb : readByteOfRun s run k a = some b) : readByteOfRun t run k a = some b := by
  rcases (run_le_of_readByteOfRun hb).lt_or_eq with hrun | rfl
  · rwa [readByteOfRun_past h.1 hrun]
  · rw [readByteOfRun_present] at hb
    rw [← h.1, readByteOfRun_present]
    exact h.readByte hb

/-! ## Bytes at the end of a record (R66, R67) -/

/-- Bytes that join the last record stand at its next addresses. -/
theorem readByte_appended {t : State} {older : List Record} {r : Record} {bs : List Byte}
    (ht : t.io.records = older ++ [{ r with bytes := r.bytes ++ bs }]) (i : Nat) :
    readByte t older.length (r.bytes.length + i) = bs[i]? := by
  simp [readByte, ht, List.getElem?_append_right]

/-- Every other address of every record reads as before. -/
theorem readByte_not_appended {s t : State} {older : List Record} {r : Record} {bs : List Byte}
    (hs : s.io.records = older ++ [r])
    (ht : t.io.records = older ++ [{ r with bytes := r.bytes ++ bs }]) {k a : Nat}
    (h : ¬ (k = older.length ∧ r.bytes.length ≤ a ∧ a < r.bytes.length + bs.length)) :
    readByte t k a = readByte s k a := by
  simp only [readByte, hs, ht]
  rcases lt_trichotomy k older.length with hk | rfl | hk
  · simp [List.getElem?_append_left hk]
  · rcases Nat.lt_or_ge a r.bytes.length with ha | ha
    · simp [List.getElem?_append_left ha]
    · have hend : r.bytes.length + bs.length ≤ a := by
        by_contra hlt
        exact h ⟨rfl, ha, by omega⟩
      simp [ha, hend]
  · simp [List.getElem?_eq_none, Nat.succ_le_of_lt hk]

/-- A record that has just been created holds no byte (R248). -/
theorem readByte_recOpen (s : State) (k a : Nat) :
    readByte (emit (.recOpen s.io.records.length) s) k a = readByte s k a := by
  simp only [readByte, emit_io_records, recordsAfter_recOpen_next]
  rcases lt_trichotomy k s.io.records.length with hk | rfl | hk
  · simp [List.getElem?_append_left hk]
  · simp
  · simp [List.getElem?_eq_none, Nat.succ_le_of_lt hk, hk.le]

/-- The bytes of a decoded chunk: 64 more at the end of the open record, or at the start of a new one
(R241, R242). The record's number and its length before the chunk are `older.length` and
`r.bytes.length`. -/
theorem chunkOk_readByte {s : State} (chunk : Nat) (words : Words) (corr : Marks) (m : Int)
    (h : EmitterInv s) : ∃ (older : List Record) (r : Record),
      s.io.records = (if s.emt.recOpen = true then older ++ [r] else older) ∧
      (s.emt.recOpen = false → r = {}) ∧
      (∀ i, readByte (chunkOk chunk words corr m s) older.length (r.bytes.length + i) = (bytesOf words)[i]?) ∧
      ∀ k a, ¬ (k = older.length ∧ r.bytes.length ≤ a ∧ a < r.bytes.length + 64) →
        readByte (chunkOk chunk words corr m s) k a = readByte s k a := by
  obtain ⟨older, r, hs, hnew, -, ht⟩ := chunk_records chunk words corr m s h
  refine ⟨older, r, hs, hnew, readByte_appended ht, fun k a hka => ?_⟩
  rw [← bytesOf_length words] at hka
  cases hopen : s.emt.recOpen with
  | true => exact readByte_not_appended (by simpa [hopen] using hs) ht hka
  | false =>
    obtain rfl := hnew hopen
    obtain rfl : s.io.records = older := by simpa [hopen] using hs
    rw [← readByte_recOpen s k a]
    exact readByte_not_appended (by simp) ht hka

/-! ## Whole chunks (R71, R248) -/

/-- The event opens a record or writes a byte: the other events leave the number of records and their
lengths alone. -/
def growsRecords : OutEvent → Bool
  | .recOpen _ => true
  | .byte _ => true
  | _ => false

theorem wholeChunks_congr {s t : State} (hr : t.io.records = s.io.records) (h : WholeChunks s) :
    WholeChunks t := by
  simpa only [WholeChunks, hr] using h

theorem emit_wholeChunks {s : State} {e : OutEvent} (he : growsRecords e = false) (h : WholeChunks s) :
    WholeChunks (emit e s) := by
  cases e with
  | recOpen k => cases he
  | byte b => cases he
  | recClose =>
    intro x hx
    rcases s.io.records.eq_nil_or_concat with hr | ⟨older, r, hr⟩
    · simp [recordsAfter, hr, onLast] at hx
    · rw [List.concat_eq_append] at hr
      simp only [emit_io_records, recordsAfter, hr, onLast_concat, List.mem_append,
        List.mem_singleton] at hx
      rcases hx with hx | rfl
      · exact h x (by simp [hr, hx])
      · exact h r (by simp [hr])
  | _ => exact h

theorem emitAll_wholeChunks {es : List OutEvent} (hes : ∀ e ∈ es, growsRecords e = false) {s : State}
    (h : WholeChunks s) : WholeChunks (emitAll es s) := by
  induction es generalizing s with
  | nil => exact h
  | cons e es ih =>
    obtain ⟨he, hes⟩ := List.forall_mem_cons.1 hes
    exact ih hes (emit_wholeChunks he h)

/-- A chunk adds 64 bytes to a record of whole chunks, or to one that it has opened (R241, R242). -/
theorem chunkOk_wholeChunks {s : State} (k : Nat) (words : Words) (corr : Marks) (m : Int)
    (he : EmitterInv s) (h : WholeChunks s) : WholeChunks (chunkOk k words corr m s) := by
  obtain ⟨older, r, hs, hnew, -, ht⟩ := chunk_records k words corr m s he
  have hold : ∀ x ∈ older, x ∈ s.io.records := by
    intro x hx
    rw [hs]
    split <;> simp [hx]
  have hlast : 64 ∣ r.bytes.length := by
    cases hopen : s.emt.recOpen with
    | true => exact (h r (by simp [hs, hopen])).1
    | false => simp [hnew hopen]
  intro x hx
  simp only [ht, List.mem_append, List.mem_singleton] at hx
  rcases hx with hx | rfl
  · exact h x (hold x hx)
  · simp only [List.length_append, bytesOf_length]
    exact ⟨hlast.add (dvd_refl 64), by omega⟩

theorem endEvents_no_growth (o : Bool) (z : Option Int) :
    ∀ e ∈ endEvents o z, growsRecords e = false := by
  cases o <;> cases z <;> simp [endEvents, growsRecords]

/-- In every burst but that of a decoded chunk, no record is opened and no byte is written. -/
theorem Burst.no_growth_or_chunk {e e' : Emitter} {st st' : Status} {es : List OutEvent}
    (h : Burst e st es e' st') : (∀ x ∈ es, growsRecords x = false) ∨
      ∃ k words corr m, es = chunkEvents e k words corr m := by
  cases h with
  | silent => exact .inl (by simp)
  | segEnd z => exact .inl (endEvents_no_growth _ z)
  | fault i z =>
    refine .inl (List.forall_mem_cons.2 ⟨?_, endEvents_no_growth _ z⟩)
    cases i <;> rfl
  | chunk k words corr m => exact .inr ⟨k, words, corr, m, rfl⟩
  | endRun => exact .inl (by simp [growsRecords])
  | segEndRun z =>
    exact .inl (List.forall_mem_append.2 ⟨endEvents_no_growth _ z, by simp [growsRecords]⟩)

theorem Effect.wholeChunks {s t : State} (h : Effect s t) (he : EmitterInv s) (hs : WholeChunks s) :
    WholeChunks t := by
  obtain ⟨ys, es, f, e, st, r, -, hb, -, rfl⟩ := h
  rcases hb.no_growth_or_chunk with hes | ⟨k, words, corr, m, rfl⟩
  · exact wholeChunks_congr (s := emitAll es s) (by simp) (emitAll_wholeChunks hes hs)
  · exact wholeChunks_congr (s := chunkOk k words corr m s) (by simp [chunkOk_eq])
      (chunkOk_wholeChunks k words corr m he hs)

/-- Only an `OUT.REC_OPEN`, an `OUT.BYTE` and an output word present such an event. -/
theorem presentedEvents_no_growth {i : Instr} (hopen : ∀ k, i ≠ .outRecOpen k)
    (hbyte : ∀ b, i ≠ .outByte b) (hword : ∀ d, i ≠ .outword d) :
    ∀ e ∈ presentedEvents i, growsRecords e = false := by
  cases i
  case outRecOpen k => exact absurd rfl (hopen k)
  case outByte b => exact absurd rfl (hbyte b)
  case outword d => exact absurd rfl (hword d)
  all_goals simp [presentedEvents, growsRecords]

theorem Move.wholeChunks {i : Instr} (hi : ∀ e ∈ presentedEvents i, growsRecords e = false)
    {s t : State} (hm : Move i s t) (he : EmitterInv s) (h : WholeChunks s) : WholeChunks t := by
  cases hm with
  | front d c b => exact h
  | symbol hy => exact (sendSymbol_effect hy).wholeChunks he h
  | chunk k words corr m => exact chunkOk_wholeChunks k words corr m he h
  | segEnd z => exact (segmentEnd_effect z s).wholeChunks he h
  | event hev => exact emit_wholeChunks (hi _ hev) h
  | answer r => exact h
  | finish => exact h

/-! ## The tokens of the `OUT` channel and the output word -/

/-- An event that writes neither space only joins the stream (R66, R248). -/
theorem emit_of_spaces_stand {e : OutEvent} {s : State} (hr : recordsAfter s.io.records e = s.io.records)
    (hm : linesOf e = []) :
    emit e s = { s with io := { s.io with outs := s.io.outs ++ [e] } } := by
  simp [emit, hr, hm]

theorem emit_byte_concat {s : State} {older : List Record} {r : Record} (hr : s.io.records = older ++ [r])
    (b : Byte) :
    emit (.byte b) s = { s with io := { s.io with
      outs := s.io.outs ++ [.byte b], records := older ++ [{ r with bytes := r.bytes ++ [b] }] } } := by
  simp [emit, recordsAfter, linesOf, hr]

theorem emit_recClose_concat {s : State} {older : List Record} {r : Record}
    (hr : s.io.records = older ++ [r]) :
    emit .recClose s = { s with io := { s.io with
      outs := s.io.outs ++ [.recClose], records := older ++ [{ r with frozen := true }] } } := by
  simp [emit, recordsAfter, linesOf, hr]

theorem intoOpenRecord_open {s : State} (h : recordOpen s.io.records = true) (e : OutEvent) :
    intoOpenRecord e s = .next (emit e s) := by
  simp [intoOpenRecord, h]

theorem intoOpenRecord_closed {s : State} (h : recordOpen s.io.records = false) (e : OutEvent) :
    intoOpenRecord e s = .refused .noOpenRecord := by
  simp [intoOpenRecord, h]

/-- With no record, or the last one frozen, no record is open. -/
theorem recordOpen_eq_false {rs : List Record}
    (h : rs = [] ∨ ∃ older bytes, rs = older ++ [⟨bytes, true⟩]) : recordOpen rs = false := by
  rcases h with rfl | ⟨older, bytes, rfl⟩ <;> simp

theorem exec_outword_open {s : State} (ha : accepting s = true) (h : recordOpen s.io.records = true)
    (d : DataWord) : exec (.outword d) s = .next (emitAll (wordEvents d) s) := by
  rw [exec_accepting ha]
  exact if_pos h

theorem exec_outword_closed {s : State} (ha : accepting s = true) (h : recordOpen s.io.records = false)
    (d : DataWord) : exec (.outword d) s = .refused .noOpenRecord := by
  rw [exec_accepting ha]
  exact if_neg (by simp [h])

/-- The two bytes of a word go to the end of the last record, the high one first (R242). -/
theorem emitAll_wordEvents_records {s : State} {older : List Record} {r : Record}
    (h : s.io.records = older ++ [r]) (d : DataWord) :
    (emitAll (wordEvents d) s).io.records =
      older ++ [{ r with bytes := r.bytes ++ [highByte d, lowByte d] }] := by
  rw [emitAll_records, h]
  exact foldl_byte_concat [highByte d, lowByte d] older r

/-- The high byte holds bits 9 and 8 (R100). -/
theorem highByte_eq_extract (d : DataWord) : highByte d = (d.extractLsb' 8 2).setWidth 8 := by
  apply BitVec.eq_of_toNat_eq
  have hd : d.toNat < 1024 := d.isLt
  simp [highByte_eq, Nat.shiftRight_eq_div_pow]
  omega

/-- The low byte holds bits 7 to 0 (R100). -/
theorem lowByte_eq_extract (d : DataWord) : lowByte d = d.extractLsb' 0 8 := by
  apply BitVec.eq_of_toNat_eq
  simp [lowByte_eq]

/-! ## Rows and preambles as their bits (R68, R97, R101) -/

/-- The bits of a word by their positions, the highest first. -/
theorem bitsOf_eq_getLsbD {w : Nat} (v : BitVec w) :
    bitsOf v = (List.range w).map fun k => v.getLsbD (w - 1 - k) := by
  refine List.map_congr_left fun k hk => ?_
  simp [BitVec.getMsbD, List.mem_range.1 hk]

theorem bitsOf_append {m n : Nat} (a : BitVec m) (b : BitVec n) :
    bitsOf (a ++ b) = bitsOf a ++ bitsOf b := by
  simp only [bitsOf, List.range_add, List.map_append, List.map_map]
  congr 1
  · refine List.map_congr_left fun k hk => ?_
    simp [BitVec.getMsbD_append, Nat.not_le.2 (List.mem_range.1 hk)]
  · refine List.map_congr_left fun k _ => ?_
    simp [BitVec.getMsbD_append]

theorem exec_bitInstr {s : State} (ha : accepting s = true) (b : Bool) :
    exec (bitInstr b) s = sendBit b s := by
  rw [exec_accepting ha]
  cases b <;> rfl

theorem endRun_not_mem_endEvents (o : Bool) (z : Option Int) : OutEvent.endRun ∉ endEvents o z := by
  cases o <;> cases z <;> simp [endEvents]

theorem endRun_not_mem_chunkEvents (e : Emitter) (k : Nat) (words : Words) (corr : Marks) (m : Int) :
    OutEvent.endRun ∉ chunkEvents e k words corr m := by
  have hhead : OutEvent.endRun ∉ headEvents e m := by
    unfold headEvents openingEvents
    split <;> simp
  simp [chunkEvents, hhead, correctionEvents, byteEvents_eq_map]

theorem endRun_not_mem_faultEvents (i : FaultInfo) (o : Bool) (z : Option Int) :
    OutEvent.endRun ∉ faultEvent i :: endEvents o z := by
  cases i <;> simp [faultEvent, endRun_not_mem_endEvents]

theorem raiseFault_outs (i : FaultInfo) (s : State) : (raiseFault i s).io.outs =
    s.io.outs ++ (faultEvent i :: endEvents s.emt.recOpen (zeroReport s.frm)) := by
  rw [raiseFault_eq]
  exact emitAll_outs _ s

theorem chunkOk_outs (k : Nat) (words : Words) (corr : Marks) (m : Int) (s : State) :
    (chunkOk k words corr m s).io.outs = s.io.outs ++ chunkEvents s.emt k words corr m := by
  rw [chunkOk_eq]
  exact emitAll_outs _ s

/-- No bit ends the run: `OUT.END` is not among its events (R186 to R191, R247). -/
theorem sendBit_outs {b : Bool} {s t : State} (h : sendBit b s = .next t) :
    ∃ es, OutEvent.endRun ∉ es ∧ t.io.outs = s.io.outs ++ es := by
  cases hm : s.frm.mode with
  | idle => cases b <;> simp [sendBit, sendOne, sendZero, symbolBit, hm] at h
  | hunt =>
    rw [sendBit_hunt hm] at h
    obtain rfl := Host.Outcome.next.inj h
    exact ⟨[], by simp, by simp⟩
  | abort =>
    have ht : t = tap (bitSymbol b) s := by
      cases b <;> simpa [sendBit, sendOne, sendZero, symbolBit, hm, bitSymbol] using h.symm
    exact ⟨[], by simp, by simp [ht]⟩
  | synced =>
    rw [sendBit_synced hm] at h
    rcases rowBit_next h with ⟨-, rfl⟩ | ⟨-, -, rfl⟩ | ⟨-, -, -, rfl⟩ | ⟨p, -, -, -, hc⟩
    · exact ⟨[], by simp, by simp [shownBit]⟩
    · exact ⟨_, endRun_not_mem_faultEvents _ _ _, raiseFault_outs _ _⟩
    · exact ⟨[], by simp, by simp [shownBit]⟩
    · rcases chunkDone_next hc with ⟨col, -, rfl⟩ | ⟨words, corr, m, -, -, rfl⟩
      · exact ⟨_, endRun_not_mem_faultEvents _ _ _, raiseFault_outs _ _⟩
      · exact ⟨_, endRun_not_mem_chunkEvents _ _ _ _ _, chunkOk_outs _ _ _ _ _⟩

/-- A block that has taken a bit takes the next token. -/
theorem sendBit_accepting {b : Bool} {s t : State} (ha : accepting s = true)
    (h : sendBit b s = .next t) : accepting t = true := by
  obtain ⟨hdone, hend, hcfg⟩ := (accepting_iff s).1 ha
  obtain ⟨hcfg', -, -, -, hdone'⟩ := sendSymbol_upstream ((sendSymbol_bit b s).trans h)
  obtain ⟨es, hes, houts⟩ := sendBit_outs h
  refine (accepting_iff t).2 ⟨hdone'.trans hdone, fun hlast => ?_, by rw [hcfg']; exact hcfg⟩
  rcases es.eq_nil_or_concat with rfl | ⟨es', e, rfl⟩
  · exact hend (by simpa [houts] using hlast)
  · rw [houts, List.concat_eq_append, ← List.append_assoc, List.getLast?_concat] at hlast
    exact hes (by simp [Option.some.inj hlast])

/-- Bits received one after another are the operations of these bits run one after another. -/
theorem sendBits_eq_runInstrs (bs : List Bool) {s : State} (ha : accepting s = true) :
    sendBits bs s = runInstrs (bs.map bitInstr) s := by
  induction bs generalizing s with
  | nil => rfl
  | cons b bs ih =>
    simp only [sendBits, List.map_cons, runInstrs, exec_bitInstr ha]
    cases hb : sendBit b s with
    | next t => exact ih (sendBit_accepting ha hb)
    | fault r => rfl
    | refused r => rfl

end Sys2Proof.Machine

namespace Sys2Proof.Claims
open Sys2Proof.Machine

/-- Settles O54: a close keeps every length; every other move keeps the emitter's agreement with the
records, under which a chunk lands in one record. -/
theorem recordsHoldWholeChunks : Obligations.RecordsHoldWholeChunks := by
  intro i s t hopen hbyte hword he hw ht
  by_cases hclose : i = .outRecClose
  · subst hclose
    obtain ⟨-, ht⟩ := exec_next.1 ht
    rw [intoOpenRecord_next ht]
    exact emit_wholeChunks rfl hw
  · have hi := presentedEvents_no_growth hopen hbyte hword
    exact (exec_keeps (P := fun u => EmitterInv u ∧ WholeChunks u)
      (fun hm ⟨hue, huw⟩ => ⟨hm.emitterInv hopen hclose hue, hm.wholeChunks hi hue huw⟩) ht ⟨he, hw⟩).2

/-- Settles O55: an instruction only puts out, and a reset pulse moves the run that ends to `past`. -/
theorem outputOnlyGrows : Obligations.OutputOnlyGrows := by
  refine ⟨fun i s t h => ?_, fun s t h => ?_⟩
  · obtain ⟨hpast, es, ys, hio⟩ := exec_putsOut h
    refine ⟨hpast, ?_, ?_, ?_, ?_, fun k a b => (exec_putsOut h).readByte⟩
    · simp [hio]
    · simp [hio]
    · simp [hio]
    · simpa [hio] using foldl_recordsAfter_length_le es s.io.records
  · rcases step_next h with ⟨-, rfl⟩ | ⟨rest, -, rfl⟩ | ⟨p, rest, i, -, -, hi⟩
    · exact ⟨by simp, fun _ _ _ _ hb => hb⟩
    · refine ⟨by simp, fun run k a b hb => ?_⟩
      have hrun := run_le_of_readByteOfRun hb
      rw [readByteOfRun_reset (s := { s with pending := rest }) hrun]
      exact hb
    · have hput := exec_putsOut hi
      exact ⟨by simp [hput.1], fun run k a b hb => hput.readByteOfRun hb⟩

/-- Settles O39: the record's number and length in the hypothesis are those of the record that takes the
chunk. -/
theorem chunkBytesStandInTheRecord : Obligations.ChunkBytesStandInTheRecord := by
  intro s t chunk words corr metric k len he hk ht
  obtain ⟨-, ht⟩ := exec_next.1 ht
  obtain rfl := Host.Outcome.next.inj ht
  obtain ⟨older, r, hs, hnew, hbytes, hframe⟩ := chunkOk_readByte chunk words corr metric he
  have hplace : k = older.length ∧ len = r.bytes.length := by
    cases hopen : s.emt.recOpen with
    | true =>
      simp only [hopen, if_true] at hs hk
      obtain ⟨hlast, r', hr', rfl⟩ := hk
      obtain rfl : k = older.length := by simpa [hs] using hlast
      obtain rfl : r = r' := by simpa [hs] using hr'
      exact ⟨rfl, rfl⟩
    | false =>
      simp only [hopen, Bool.false_eq_true, if_false] at hs hk
      simpa [hs, hnew hopen] using hk
  obtain ⟨rfl, rfl⟩ := hplace
  refine ⟨fun j => ?_, hframe⟩
  obtain ⟨hhigh, hlow⟩ := bytesOf_getElem? words j
  rw [Nat.add_assoc, hbytes, hbytes, hhigh, hlow, highByte_eq, lowByte_eq]
  exact ⟨rfl, rfl⟩

/-- Settles O44: the two bytes join the open record, and nothing else but the stream changes. -/
theorem outputWordIsTwoBytes : Obligations.OutputWordIsTwoBytes := by
  intro s d older bytes ha hs
  have hopen : recordOpen s.io.records = true := (recordOpen_iff _).2 ⟨older, bytes, hs⟩
  have ht := emitAll_wordEvents_records hs d
  refine ⟨_, exec_outword_open ha hopen d, ?high, ?low, ?frame, by simp, by simp [wordEvents, linesOf],
    by simp, by simp, by simp, by simp, by simp, by simp⟩
  case high =>
    rw [← highByte_eq_extract]
    exact readByte_appended ht 0
  case low =>
    rw [← lowByte_eq_extract]
    exact readByte_appended ht 1
  case frame =>
    intro k a hka
    refine readByte_not_appended hs ht fun ⟨hk, hle, hlt⟩ => hka ⟨hk, ?_⟩
    simp only [List.length_cons, List.length_nil] at hle hlt
    omega

/-- Settles O46: a bit leaves the block taking tokens, so that each bit runs as its operation. -/
theorem rowAndPreambleAreTheirBits : Obligations.RowAndPreambleAreTheirBits := by
  intro s ha
  refine ⟨fun pre payload => ?_, fun bits => ?_⟩
  · calc exec (.row pre payload) s
        = sendBits (bitsOf (pre ++ payload)) s := exec_accepting ha _
      _ = runInstrs ((bitsOf pre ++ bitsOf payload).map bitInstr) s := by
        rw [bitsOf_append, sendBits_eq_runInstrs _ ha]
      _ = _ := by simp only [bitsOf_eq_getLsbD, List.map_append, List.map_map]; rfl
  · calc exec (.preamble bits) s
        = sendBits (bitsOf bits) s := exec_accepting ha _
      _ = runInstrs ((bitsOf bits).map bitInstr) s := sendBits_eq_runInstrs _ ha
      _ = _ := by simp only [bitsOf_eq_getLsbD, List.map_map]; rfl

/-- Settles O52: reset empties the stream and the spaces, and an instruction keeps the folds. -/
theorem stepKeepsTheSpacesFolds : Obligations.StepKeepsTheSpacesFolds := by
  intro s t hs h
  refine step_induct h hs ?reset (fun _ _ hu => hu) ?exec
  case reset => exact fun u _ => ⟨rfl, rfl⟩
  case exec => exact fun i u v hu hv => (exec_putsOut hv).spacesAreFolds hu

/-- Settles O43: each of the eight tokens is the emission of its event. -/
theorem outEventsWriteTheStreamAndTheSpaces : Obligations.OutEventsWriteTheStreamAndTheSpaces := by
  intro s ha
  simp only [exec_accepting ha]
  refine ⟨fun n => rfl, fun chunk col => ?corrected, fun seg row off => ?framing, fun seg chunk col => ?ecc,
    ?last, ?next, ?free, ?opened, ?shut⟩
  case corrected => exact congrArg _ (emit_of_spaces_stand rfl rfl)
  case framing => exact congrArg _ (emit_of_spaces_stand rfl rfl)
  case ecc => exact congrArg _ (emit_of_spaces_stand rfl rfl)
  case last => exact congrArg _ (emit_of_spaces_stand rfl rfl)
  case next =>
    rintro _ rfl
    simp [ruleOf, emit, linesOf]
  case free => exact fun k _ => ⟨recordGap k s.io.records.length, rfl⟩
  case opened =>
    intro older bytes hr
    have hopen : recordOpen s.io.records = true := (recordOpen_iff _).2 ⟨older, bytes, hr⟩
    refine ⟨fun b => ?_, ?_⟩
    · exact (intoOpenRecord_open hopen _).trans (congrArg _ (emit_byte_concat hr b))
    · exact (intoOpenRecord_open hopen _).trans (congrArg _ (emit_recClose_concat hr))
  case shut =>
    intro hr
    have hclosed := recordOpen_eq_false hr
    refine ⟨fun b => intoOpenRecord_closed hclosed _, intoOpenRecord_closed hclosed _, fun d => ?_⟩
    rw [← exec_accepting ha]
    exact exec_outword_closed ha hclosed d

end Sys2Proof.Claims
end

section
/-! The decoder against the encoder (R90 to R101), and the three formats that reach the framer and the ECC
table: the row, the chunk and the codeword. -/

namespace Sys2Proof.Laws

/-! ## Fields of a number -/

theorem field_div {b q r : Nat} (hr : r < b) : (q * b + r) / b = q := by
  rw [Nat.add_comm, Nat.add_mul_div_right _ _ (by omega), Nat.div_eq_of_lt hr, Nat.zero_add]

theorem field_mod {b q r : Nat} (hr : r < b) : (q * b + r) % b = r := by
  rw [Nat.mul_add_mod', Nat.mod_eq_of_lt hr]

theorem fitsNat_iff (w n : Nat) : fitsNat w n = true ↔ n < 2 ^ w := decide_eq_true_iff

theorem fitsSigned_iff (w : Nat) (x : Int) :
    fitsSigned w x = true ↔ -(2 : Int) ^ (w - 1) ≤ x ∧ x < (2 : Int) ^ (w - 1) := by
  simp [fitsSigned]

/-- A two's-complement field gives back the value written into it (R90): a value that is not negative
stands in the lower half of the field, a negative one, raised by `2 ^ w`, in the upper half. -/
theorem signedField_unsignedField {w : Nat} {x : Int} (hw : 0 < w) (hx : fitsSigned w x = true) :
    signedField w (unsignedField w x) = x := by
  obtain ⟨hlow, hhigh⟩ := (fitsSigned_iff w x).1 hx
  obtain ⟨v, rfl⟩ : ∃ v, w = v + 1 := ⟨w - 1, by omega⟩
  have hnat : ((2 ^ v : Nat) : Int) = 2 ^ v := by push_cast; rfl
  have hpow : (2 : Int) ^ (v + 1) = 2 * 2 ^ v := by ring
  simp only [Nat.add_sub_cancel] at hlow hhigh
  unfold signedField unsignedField
  rw [Nat.add_sub_cancel, hpow]
  rcases lt_or_ge x 0 with hneg | hpos
  · have hmod : x % (2 * 2 ^ v) = x + 2 * 2 ^ v := by
      rw [← Int.add_emod_right, Int.emod_eq_of_lt (by omega) (by omega)]
    rw [hmod, if_neg (by omega)]
    omega
  · rw [Int.emod_eq_of_lt hpos (by omega), if_pos (by omega)]
    omega

/-! ## The `IN` token (R90) -/

theorem decodeIn_sample {w v : Nat} (hv : v < 2 ^ w) :
    decodeIn w v = .ok (.inSample (signedField w v)) := by
  unfold decodeIn
  rw [if_neg (by rw [Nat.pow_succ]; omega), if_neg (by omega)]

theorem decodeIn_eos (w : Nat) : decodeIn w (2 ^ w) = .ok .inEos := by
  have hpos : 0 < 2 ^ w := Nat.two_pow_pos w
  unfold decodeIn
  rw [if_neg (by rw [Nat.pow_succ]; omega), if_pos le_rfl]

/-! ## The `CL` token (R92) -/

theorem decodeCl_reserved {w : BitVec 5} (h5 : 5 ≤ w.toNat) (h7 : w.toNat ≤ 7) (time : Rat) :
    decodeCl w time = .error .reservedClass := by
  unfold decodeCl
  have hw : w.toNat = 5 ∨ w.toNat = 6 ∨ w.toNat = 7 := by omega
  rcases hw with h | h | h <;> simp [h]

/-! ## The `OUT` token (R95) -/

@[simp] theorem columnOf_val (col : Fin 32) (k : Fin 32 → Instr) : columnOf col.val k = .ok (k col) :=
  dif_pos col.isLt

/-- Kinds 8 to 15, the only ones left over that four bits hold, are reserved (R95). -/
theorem decodeOutFields_reserved {kind : Nat} (h : 8 ≤ kind) (cw p0 p1 p2 : Nat) :
    decodeOutFields cw kind p0 p1 p2 = .error .reservedOutKind := by
  obtain ⟨n, rfl⟩ := Nat.exists_eq_add_of_le' h
  rfl

theorem decodeOut_reserved {cw w : Nat} (h8 : 8 * 2 ^ (3 * cw) ≤ w) (h16 : w < 16 * 2 ^ (3 * cw)) :
    decodeOut cw w = .error .reservedOutKind := by
  unfold decodeOut
  rw [if_neg (by omega)]
  exact decodeOutFields_reserved ((Nat.le_div_iff_mul_le (Nat.two_pow_pos _)).2 h8) ..

/-- The decoder reads the four fields that the encoder has packed (R95). -/
theorem decode_packOut {c : Config} {kind p0 p1 p2 : Nat} (hk : kind < 8) (h0 : p0 < 2 ^ c.counterWidth)
    (h1 : p1 < 2 ^ c.counterWidth) (h2 : p2 < 2 ^ c.counterWidth) :
    decode c (packOut c.counterWidth kind p0 p1 p2) = decodeOutFields c.counterWidth kind p0 p1 p2 := by
  have hfits := packOut_fits (c := c) hk h0 h1 h2
  simp only [packOut, packetFits] at hfits
  simp only [decode, packOut, decodeOut]
  rw [if_neg (by omega)]
  have hp2 : 2 ^ (2 * c.counterWidth) = 2 ^ c.counterWidth * 2 ^ c.counterWidth := by
    rw [Nat.two_mul, Nat.pow_add]
  have hp3 : 2 ^ (3 * c.counterWidth) = 2 ^ c.counterWidth * 2 ^ c.counterWidth * 2 ^ c.counterWidth := by
    rw [Nat.succ_mul, Nat.pow_add, hp2]
  simp only [hp2, hp3, ← Nat.div_div_eq_div_mul, field_div h2, field_div h1, field_div h0, field_mod h0,
    field_mod h1, field_mod h2]

/-! ## The chunk word (R98) -/

/-- The number of a list of payloads, the first in the highest bits (R98). -/
def chunkNumber (rs : List Payload) : Nat := rs.foldl (fun n r => n * 2 ^ 32 + r.toNat) 0

theorem chunkNumber_concat (rs : List Payload) (r : Payload) :
    chunkNumber (rs ++ [r]) = chunkNumber rs * 2 ^ 32 + r.toNat := by
  simp [chunkNumber]

theorem chunkNumber_lt (rs : List Payload) : chunkNumber rs < 2 ^ (32 * rs.length) := by
  induction rs using List.reverseRecOn with
  | nil => simp [chunkNumber]
  | append_singleton rs r ih =>
    have hr : r.toNat < 2 ^ 32 := r.isLt
    rw [chunkNumber_concat, List.length_append, List.length_singleton, Nat.mul_succ, Nat.pow_add]
    nlinarith

/-- Payload `k`, counted from the end, stands `32 * k` bits above the lowest. -/
theorem chunkNumber_field (rs : List Payload) {k : Nat} (hk : k < rs.length) :
    chunkNumber rs / 2 ^ (32 * k) % 2 ^ 32 = rs[rs.length - 1 - k].toNat := by
  induction rs using List.reverseRecOn generalizing k with
  | nil => simp at hk
  | append_singleton rs r ih =>
    rw [chunkNumber_concat]
    cases k with
    | zero =>
      rw [Nat.mul_zero, Nat.pow_zero, Nat.div_one, field_mod r.isLt]
      simp
    | succ k =>
      have hk' : k < rs.length := by simpa using hk
      have hidx : (rs ++ [r]).length - 1 - (k + 1) = rs.length - 1 - k := by simp; omega
      rw [Nat.mul_succ, Nat.pow_add, Nat.mul_comm (2 ^ (32 * k)), ← Nat.div_div_eq_div_mul,
        field_div r.isLt, ih hk']
      simp only [hidx]
      rw [List.getElem_append_left]

theorem toNat_ofNat_of_fits {w n : Nat} (h : n < 2 ^ w) : (BitVec.ofNat w n).toNat = n := by
  rw [BitVec.toNat_ofNat, Nat.mod_eq_of_lt h]

/-- Fifteen payloads fill the 480 bits and no more. -/
theorem toNat_wordOfChunk (p : Chunk) : (wordOfChunk p).toNat = chunkNumber p.toList := by
  have hbound := chunkNumber_lt p.toList
  simp only [p.length_toList, Nat.reduceMul] at hbound
  exact toNat_ofNat_of_fits hbound

/-- Each payload is read where the encoder has put it. -/
theorem chunkRow_wordOfChunk (p : Chunk) (r : Fin 15) : chunkRow (wordOfChunk p) r = p[r] := by
  have hlen : p.toList.length = 15 := p.length_toList
  apply BitVec.eq_of_toNat_eq
  rw [chunkRow, toNat_wordOfChunk, BitVec.toNat_ofNat, chunkNumber_field _ (by omega)]
  simp [show 15 - 1 - (14 - r.val) = r.val by omega]

theorem chunkOfWord_wordOfChunk (p : Chunk) : chunkOfWord (wordOfChunk p) = p := by
  apply Vector.ext
  intro i hi
  simpa [chunkOfWord] using chunkRow_wordOfChunk p ⟨i, hi⟩

/-! ## The output word (R100) -/

theorem decodeOutword_setWidth (d : DataWord) : decodeOutword (d.setWidth 16) = .ok (.outword d) := by
  have hd : d.toNat < 1024 := d.isLt
  have hnat : (d.setWidth 16).toNat = d.toNat := by simp; omega
  unfold decodeOutword
  rw [hnat, if_pos hd, BitVec.ofNat_toNat, BitVec.setWidth_eq]

/-! ## Codewords (R98, R99) -/

/-- A codeword is its syndrome above its data (R99). -/
theorem syndrome_append_data (x : Codeword) : x.extractLsb' 10 5 ++ x.extractLsb' 0 10 = x := by
  apply BitVec.eq_of_getLsbD_eq
  intro i hi
  rw [BitVec.getLsbD_append, BitVec.getLsbD_extractLsb', BitVec.getLsbD_extractLsb']
  by_cases h : i < 10
  · simp [h]
  · simp [h, show i - 10 < 5 by omega, show 10 + (i - 10) = i by omega]

end Sys2Proof.Laws

namespace Sys2Proof.Machine
open Sys2Proof.Laws

/-- Bit `14 − r` of the codeword of column `j` is bit `31 − j` of payload `r` (R98). -/
theorem getLsbD_codewordOf (p : Chunk) (j : Fin 32) (r : Fin 15) :
    (codewordOf p j).getLsbD (14 - r) = p[r].getLsbD (31 - j) := by
  unfold codewordOf
  rw [BitVec.getLsbD_ofNat, testBit_bitsToNat, List.getElem?_reverse (by simp; omega)]
  simp [show 14 - r.val < 15 by omega, show 15 - 1 - (14 - r.val) = r.val by omega]

theorem dataOf_eq_extract (x : Codeword) : dataOf x = x.extractLsb' 0 10 := by
  apply BitVec.eq_of_toNat_eq
  simp [dataOf]

/-- The word and the mark of a column of a chunk with no bad column (R222). -/
theorem decoded_column {rom : Rom} {p : Chunk} {j : Fin 32}
    (h : columnEntry rom p j ≠ .unrecoverable) :
    (columnEntry rom p j = .valid ∧ (decodedWords rom p)[j] = (codewordOf p j).extractLsb' 0 10 ∧
      (decodedMarks rom p)[j] = false) ∨
    (∃ c, columnEntry rom p j = .corrected c ∧ (decodedWords rom p)[j] = c.extractLsb' 0 10 ∧
      (decodedMarks rom p)[j] = true) := by
  simp only [decodedWords, decodedMarks, byColumn_get, dataOf_eq_extract]
  cases he : columnEntry rom p j with
  | valid => exact .inl ⟨rfl, rfl, rfl⟩
  | corrected c => exact .inr ⟨c, rfl, rfl, rfl⟩
  | unrecoverable => exact absurd he h

/-! ## Rows received whole (R96, R97, R189) -/

/-- The framer and the tap once the 37 bits of a row that began between rows have come in, before the row
is tested (R189). -/
def rowReceived (w : RowWord) (s : State) : State :=
  { s with
    frm := { s.frm with symPos := s.frm.symPos + 37, rowStart := s.frm.symPos, rowbits := [] }
    io := { s.io with syTap := s.io.syTap ++ (bitsOf w).map bitSymbol } }

/-- The first 36 bits of a row are collected, and the last is a row bit that completes it (R189). -/
theorem sendBits_row {s : State} (w : RowWord) (hm : s.frm.mode = .synced) (hr : s.frm.rowbits = []) :
    ∃ (b : Bool) (pos : Nat) (u : State), sendBits (bitsOf w) s = rowBit b pos u ∧
      u.frm.rowbits.length = 36 ∧ completedRow b u.frm = w ∧
      { u with frm := { collected b pos u.frm with rowbits := [] } } = rowReceived w s := by
  obtain ⟨bs, b, hbits⟩ : ∃ bs b, bitsOf w = bs ++ [b] := by
    rcases (bitsOf w).eq_nil_or_concat with h | ⟨bs, b, h⟩
    · exact absurd (congrArg List.length h) (by simp)
    · exact ⟨bs, b, by simpa using h⟩
  have hlen : bs.length = 36 := by simpa using (congrArg List.length hbits).symm
  have hne : bs ≠ [] := List.ne_nil_of_length_eq_add_one hlen
  refine ⟨b, s.frm.symPos + bs.length, shownBit b (afterBits bs s), ?send, ?length, ?word, ?received⟩
  case send =>
    rw [hbits, sendBits_append_of_next (sendBits_collect bs s hm (by simp [hr, hlen])),
      sendBits_singleton]
    exact sendBit_synced (s := afterBits bs s) hm b
  case length => simpa [shownBit, afterBits, hr] using hlen
  case word =>
    simp only [completedRow, shownBit, afterBits, hr, List.nil_append]
    rw [← hbits, assembleRow_bitsOf]
  case received => simp [rowReceived, collected, shownBit, afterBits, tap, hr, hne, hlen, hbits]

/-- A row that begins with the framing constant and is not the fifteenth joins the chunk (R190). -/
theorem sendBits_row_joins {s : State} {w : RowWord} (hm : s.frm.mode = .synced)
    (hr : s.frm.rowbits = []) (hrows : s.frm.rows.length ≠ 14) (hp : rowPrefix w = framingPrefix) :
    sendBits (bitsOf w) s = .next { rowReceived w s with
      frm := { (rowReceived w s).frm with rows := s.frm.rows ++ [rowPayload w] } } := by
  obtain ⟨b, pos, u, hsend, hlen, rfl, hrec⟩ := sendBits_row w hm hr
  have hurows : u.frm.rows = s.frm.rows := congrArg (fun v => v.frm.rows) hrec
  rw [hsend, rowBit_join hlen hp (by rwa [hurows]), ← hrec, hurows]

/-- A row that begins otherwise raises the framing fault at the position of its first bit (R190, R266). -/
theorem sendBits_row_faults {s : State} {w : RowWord} (hm : s.frm.mode = .synced)
    (hr : s.frm.rowbits = []) (hp : rowPrefix w ≠ framingPrefix) :
    sendBits (bitsOf w) s = .next (raiseFault
      (.framing (s.frm.segNo - 1) (15 * s.frm.chunkIndex + s.frm.rows.length) s.frm.symPos)
      (rowReceived w s)) := by
  obtain ⟨b, pos, u, hsend, hlen, rfl, hrec⟩ := sendBits_row w hm hr
  rw [hsend, rowBit_badPrefix hlen hp, hrec]
  have hframer := congrArg State.frm hrec
  simp only [rowReceived, collected, Framer.mk.injEq] at hframer
  simp [collected, hframer]

theorem endEvents_some (o : Bool) (m : Int) :
    endEvents o (some m) = [if o = true then .recClose else .zeroRun m] := by
  cases o <;> rfl

/-- The bit that completes such a row: the row joins the chunk and the row buffer is emptied (R190). -/
theorem exec_bit_joins {s : State} {b : Bool} (ha : accepting s = true) (hm : s.frm.mode = .synced)
    (hl : s.frm.rowbits.length = 36) (hrows : s.frm.rows.length ≠ 14)
    (hp : rowPrefix (completedRow b s.frm) = framingPrefix) :
    exec (bitInstr b) s = .next
      { s with
        frm := { s.frm with
          symPos := s.frm.symPos + 1, rowbits := []
          rows := s.frm.rows ++ [rowPayload (completedRow b s.frm)] }
        io := { s.io with syTap := s.io.syTap ++ [bitSymbol b] } } := by
  have hne : s.frm.rowbits ≠ [] := List.ne_nil_of_length_eq_add_one hl
  rw [exec_bit_synced ha hm, rowBit_join (s := shownBit b s) hl hp hrows]
  simp [collected, completedRow, shownBit, tap, hne]

end Sys2Proof.Machine

namespace Sys2Proof.Claims
open Sys2Proof.Machine Sys2Proof.Laws

/-- Settles O5: each decoder reads the fields that the encoder has written; an instruction whose operands
stand beside its code bits, or that has none, needs its code alone. -/
theorem decodeOfEncode : Obligations.DecodeOfEncode := by
  intro c i hsw hcw hwf
  have hzero : 0 < 2 ^ c.counterWidth := Nat.two_pow_pos _
  cases i with
  | inSample x =>
    simp only [encode, decode, decodeIn_sample (unsignedField_lt _ _), signedField_unsignedField hsw hwf]
  | inEos => exact decodeIn_eos _
  | eccDecode p => simp only [encode, decode, chunkOfWord_wordOfChunk]
  | feFaultEcc seg chunk col z => exact columnOf_val col fun j => .feFaultEcc seg chunk j z
  | outRecOpen k => exact decode_packOut (by decide) ((fitsNat_iff ..).1 hwf) hzero hzero
  | outZeroRun n =>
    rw [encode, decode_packOut (by decide) (unsignedField_lt _ _) hzero hzero]
    simp [decodeOutFields, whenZero, signedField_unsignedField hcw hwf]
  | outCorrected chunk col =>
    simp only [Instr.wellFormed, Bool.and_eq_true, fitsNat_iff] at hwf
    obtain ⟨hchunk, hcol⟩ := hwf
    exact (decode_packOut (by decide) hchunk hcol hzero).trans (columnOf_val col _)
  | outByte b =>
    have hb : b.toNat < 256 := b.isLt
    rw [encode, decode_packOut (by decide) ((fitsNat_iff ..).1 hwf) hzero hzero]
    simp [decodeOutFields, whenZero, hb]
  | outRecClose => exact decode_packOut (by decide) hzero hzero hzero
  | outErrFraming seg r off =>
    simp only [Instr.wellFormed, Bool.and_eq_true, fitsNat_iff] at hwf
    obtain ⟨⟨hseg, hrow⟩, hoff⟩ := hwf
    exact decode_packOut (by decide) hseg hrow hoff
  | outErrEcc seg chunk col =>
    simp only [Instr.wellFormed, Bool.and_eq_true, fitsNat_iff] at hwf
    obtain ⟨⟨hseg, hchunk⟩, hcol⟩ := hwf
    exact (decode_packOut (by decide) hseg hchunk hcol).trans (columnOf_val col _)
  | outEnd => exact decode_packOut (by decide) hzero hzero hzero
  | row pre payload => simp only [encode, decode, append_high, append_low]
  | codeword syn data => simp only [encode, decode, append_high, append_low]
  | outword data => exact decodeOutword_setWidth data
  | _ => rfl

/-- Settles O6: the three classes left over of `CL` kind 0, and the eight `OUT` kinds left over. -/
theorem reservedCodesAreRejected : Obligations.ReservedCodesAreRejected :=
  ⟨fun _ time _ h5 h7 => decodeCl_reserved h5 h7 time, fun _ _ h8 h16 => decodeOut_reserved h8 h16⟩

/-- Settles O23: the payload is that of the completed row, whose bits are the bits received. -/
theorem goodRowJoinsTheChunk : Obligations.GoodRowJoinsTheChunk := by
  intro s b ha hm hl hrows hprefix
  have hlen : (s.frm.rowbits ++ [b]).length = 37 := by simp [hl]
  exact ⟨rowPayload (completedRow b s.frm), fun k hk => rowPayload_assembleRow hlen hk,
    exec_bit_joins ha hm hl hrows.ne ((rowPrefix_assembleRow hlen).2 hprefix)⟩

/-- Settles O35: the reply is `eccResult`, read through its two characterisations. -/
theorem decoderReplies : Obligations.DecoderReplies := by
  intro s p ha
  refine ⟨getLsbD_codewordOf p, eccResult s.rom p, exec_accepting ha _, eccResult_fail_iff s.rom p, ?_⟩
  intro words corr hok j
  obtain ⟨hgood, rfl, rfl⟩ := (eccResult_ok_iff ..).1 hok
  exact decoded_column (hgood j)

/-- Settles O47: the 37 bits come in, and the first five of them decide between the two outcomes. -/
theorem rowIsReceivedWhole : Obligations.RowIsReceivedWhole := by
  intro s pre payload ha hm hr hrows
  rw [exec_accepting ha]
  refine ⟨fun hpre => ?joins, fun m hpre hmetric => ?faults⟩
  case joins =>
    refine ⟨_, sendBits_row_joins hm hr hrows.ne ((rowPrefix_rowOf ..).trans hpre), ?_, rfl,
      fun _ _ => rfl, rfl, rfl, rfl, rfl, rfl⟩
    simp [rowReceived, hr]
  case faults =>
    refine ⟨_, sendBits_row_faults hm hr (by simpa [framingPrefix] using hpre), ?_, ?_,
      readByte_raiseFault _ _, ?_⟩
    · simp [raiseFault_eq, dropAssembly, rowReceived, hr]
    · rw [raiseFault_outs, zeroReport_metric (f := (rowReceived (rowOf pre payload) s).frm) hmetric,
        endEvents_some]
      rfl
    · simp [raiseFault_eq, rowReceived, setSticky]

/-- Settles O4: one closed word of each channel and format. -/
theorem formatWordsDecode : Obligations.FormatWordsDecode := by
  refine ⟨?_, ?_, ?_, ?_, ?_, ?ecc, ?_, ?_, ?_, ?_, ?_, ?_, rfl⟩
  case ecc => decide +kernel
  all_goals decide

/-- Settles O45: a codeword is its two fields, the syndrome above the data. -/
theorem codewordIsLookedUp : Obligations.CodewordIsLookedUp := by
  rintro s _ _ x ha rfl rfl
  rw [exec_accepting ha]
  simp only [ruleOf, syndrome_append_data]
  rfl

end Sys2Proof.Claims
end

section
/-! The detector and the end of input: the interpolated position, what a sample does stage by stage, the
completion of every sample, and the flush of the pipeline. -/

namespace Sys2Proof.Machine

/-! ## The interpolated position (R134) -/

/-- Across a sign change the distance of the two samples is the sum of their distances to zero. -/
theorem abs_le_abs_sub_of_signChange {p y : Rat} (h : signChange p y = true) : |p| ≤ |y - p| := by
  rw [signChange_iff] at h
  by_cases hp : p < 0
  · have hy : ¬ y < 0 := fun hy => h ⟨fun _ => hy, fun _ => hp⟩
    rw [abs_of_neg hp, abs_of_pos (by linarith)]
    linarith
  · have hy : y < 0 := by by_contra hy; exact h ⟨fun hp' => absurd hp' hp, fun hy' => absurd hy' hy⟩
    rw [abs_of_nonneg (by linarith), abs_of_neg (by linarith)]
    linarith

theorem sub_ne_zero_of_signChange {p y : Rat} (h : signChange p y = true) : y - p ≠ 0 := by
  rw [signChange_iff] at h
  exact fun hyp => h (by rw [sub_eq_zero.1 hyp])

theorem sub_one_le_interpolate (i : Int) (p y : Rat) : (i : Rat) - 1 ≤ interpolate i p y := by
  rw [interpolate_eq]
  have : 0 ≤ |p| / |y - p| := by positivity
  linarith

theorem interpolate_le {p y : Rat} (i : Int) (h : signChange p y = true) : interpolate i p y ≤ i := by
  rw [interpolate_eq]
  have : |p| / |y - p| ≤ 1 := div_le_one_of_le₀ (abs_le_abs_sub_of_signChange h) (abs_nonneg _)
  linarith

/-! ## The stages of a sample (R130 to R136) -/

/-- The state once the sample is counted (R136). -/
def sampled (s : State) : State := { s with det := { s.det with n := s.det.n + 1 } }

/-- The state once the sample is counted and in the DC buffer (R131). -/
def buffered (x : Int) (s : State) : State :=
  { s with det := { s.det with n := s.det.n + 1, dcbuf := push s.det.dcbuf (dcLen s.cfg) x } }

/-- The state once the corrected sample is in the energy buffer and is `prev` (R132, R136). -/
def corrected (y : Rat) (s : State) : State :=
  { s with det := { s.det with ebuf := push s.det.ebuf (energyLen s.cfg) y, prev := some y } }

/-- The corrected sample `y` makes a transition with `p`: a sign change, with the energy buffer full (R133,
R135). -/
def Crosses (y : Rat) (s : State) (p : Rat) : Prop :=
  s.det.prev = some p ∧ signChange p y = true ∧ energyFull s.cfg (corrected y s).det.ebuf = true

theorem crosses_iff (y : Rat) (s : State) (p : Rat) : Crosses y s p ↔
    s.det.prev = some p ∧ ¬ (p < 0 ↔ y < 0) ∧ (corrected y s).det.ebuf.length = energyLen s.cfg := by
  rw [Crosses, signChange_iff, energyFull, beq_iff_eq]

/-- With a transition the event runs downstream of the detector, which is written already. -/
theorem correctedSample_crossing {y : Rat} {s : State} {p : Rat} (i : Int) (h : Crosses y s p) :
    correctedSample i y s =
      transition (interpolate i p y) (energyOf (corrected y s).det.ebuf) (corrected y s) := by
  obtain ⟨hprev, hsign, hfull⟩ := h
  simp only [corrected] at hfull
  simp [correctedSample, hprev, hsign, hfull, corrected]

/-- Without one the sample is only buffered. -/
theorem correctedSample_quiet {y : Rat} {s : State} (i : Int) (h : ∀ p, ¬ Crosses y s p) :
    correctedSample i y s = .next (corrected y s) := by
  unfold correctedSample
  simp only
  split
  next => rfl
  next p hprev =>
    rw [if_neg]
    · rfl
    · rw [Bool.and_eq_true]
      exact fun hc => h p ⟨hprev, hc.1, hc.2⟩

theorem dcOn_iff (c : Config) : dcOn c = true ↔ 0 < c.dcWindowBits := decide_eq_true_iff

theorem acceptSample_off {s : State} (x : Int) (h : ¬ 0 < s.cfg.dcWindowBits) :
    acceptSample x s = correctedSample s.det.n x (sampled s) := by
  rw [← dcOn_iff] at h
  simp [acceptSample, h, sampled]

/-- While the DC buffer is short of `D` samples there is no corrected sample (R131). -/
theorem acceptSample_filling {x : Int} {s : State} (h : 0 < s.cfg.dcWindowBits)
    (hl : (buffered x s).det.dcbuf.length < dcLen s.cfg) : acceptSample x s = .next (buffered x s) := by
  rw [← dcOn_iff] at h
  simp only [buffered] at hl
  simp [acceptSample, h, hl, buffered]

theorem acceptSample_filled {x : Int} {s : State} (h : 0 < s.cfg.dcWindowBits)
    (hl : dcLen s.cfg ≤ (buffered x s).det.dcbuf.length) :
    acceptSample x s = correctedSample ((s.det.n : Int) - dcShift s.cfg)
      (dcCorrected s.cfg (buffered x s).det.dcbuf) (buffered x s) := by
  rw [← dcOn_iff] at h
  simp only [buffered] at hl
  simp [acceptSample, h, Nat.not_lt.2 hl, buffered]

/-- The energy is the greatest less the least element (R132). -/
theorem energyOf_eq {buf : List Rat} {hi lo : Rat} (hhi : hi ∈ buf) (hmax : ∀ e ∈ buf, e ≤ hi)
    (hlo : lo ∈ buf) (hmin : ∀ e ∈ buf, lo ≤ e) : energyOf buf = hi - lo := by
  rw [energyOf, maxOf_eq hhi hmax, minOf_eq hlo hmin]

theorem dcCorrected_eq {c : Config} {buf : List Int} {m : Int} (h : buf[dcMid c]? = some m) :
    dcCorrected c buf = (m : Rat) - (buf.sum : Rat) / dcLen c := by
  rw [dcCorrected, List.getD_eq_getElem?_getD, h, List.sum_eq_foldl]
  rfl

theorem dcShift_cast {c : Config} (h : 1 ≤ dcLen c) :
    (dcShift c : Rat) = (dcLen c : Rat) - (dcLen c / 2 : Nat) - 1 := by
  have hsum : (dcMid c : Rat) + dcShift c + 1 = dcLen c := by exact_mod_cast dcMid_add_dcShift h
  rw [← hsum]
  unfold dcMid
  ring

/-- The capacity `W` as R10 writes it. -/
theorem eq_energyLen {c : Config} {w : Nat} (h : (w : Int) = ⌈(c.sampleRate : Rat) / c.bitRate * 10⌉) :
    w = energyLen c := by
  rw [← spb_eq, ← energyLen_eq] at h
  exact_mod_cast h

/-- The capacity `D` as R10 writes it. -/
theorem eq_dcLen {c : Config} {d : Nat} (hdc : 0 < c.dcWindowBits)
    (h : (d : Int) = ⌈(c.sampleRate : Rat) / c.bitRate * c.dcWindowBits⌉) : d = dcLen c := by
  rw [← spb_eq, ← dcLen_eq hdc] at h
  exact_mod_cast h

/-- The configuration is valid in a block that takes a token, so the DC buffer has room (R10, R12). -/
theorem one_le_dcLen_of_accepting {s : State} (ha : accepting s = true) (hdc : 0 < s.cfg.dcWindowBits) :
    1 ≤ dcLen s.cfg := by
  obtain ⟨-, -, hcfg⟩ := (accepting_iff s).1 ha
  obtain ⟨hsample, hbit, -⟩ := (configValid_iff _).1 hcfg
  exact one_le_dcLen (spb_pos hsample hbit) hdc

/-- A sample that comes to the corrected sample `y` of index `i` in the state `u`: it is buffered, and a
sign change with a full buffer is the transition event at the interpolated position. -/
theorem exec_inSample_corrected {s u : State} {x : Int} {i : Int} {y pos hi lo : Rat}
    (ha : accepting s = true) (hu : u = { s with det := u.det })
    (hrule : acceptSample x s = correctedSample i y u) (hpos : (i : Rat) = pos)
    (henergy : energyOf (corrected y u).det.ebuf = hi - lo) :
    (u.det.prev = none → exec (.inSample x) s = .next (corrected y u)) ∧
    (∀ p, u.det.prev = some p →
      ((p < 0 ↔ y < 0) ∨ (corrected y u).det.ebuf.length ≠ energyLen u.cfg →
        exec (.inSample x) s = .next (corrected y u)) ∧
      (¬ (p < 0 ↔ y < 0) → (corrected y u).det.ebuf.length = energyLen u.cfg →
        exec (.inSample x) s = exec (.trTrans (pos - 1 + |p| / |y - p|) (hi - lo)) (corrected y u))) := by
  have ht : accepting (corrected y u) = true := by
    rw [hu, ← ha]
    exact accepting_congr rfl rfl rfl
  rw [exec_accepting ha, ruleOf, hrule]
  refine ⟨fun hprev => ?_, fun p hprev => ⟨fun hquiet => ?_, fun hsign hfull => ?_⟩⟩
  · exact correctedSample_quiet i fun p hc => by simp [hc.1] at hprev
  · refine correctedSample_quiet i fun q hc => ?_
    obtain ⟨hq, hsign, hfull⟩ := (crosses_iff ..).1 hc
    obtain rfl : q = p := Option.some.inj (hq.symm.trans hprev)
    tauto
  · rw [correctedSample_crossing i ((crosses_iff ..).2 ⟨hprev, hsign, hfull⟩), henergy, interpolate_eq,
      hpos, exec_accepting ht, ruleOf]

/-! ## The last accepted event (R138) -/

/-- `LastNotAhead` is about the classifier's `last`, the counter and the configuration alone. -/
theorem lastNotAhead_mono {s t : State} (hlast : t.cls.last = s.cls.last)
    (hindex : newestIndex s ≤ newestIndex t) (h : LastNotAhead s) : LastNotAhead t := by
  intro l hl
  have hle : (newestIndex s : Rat) ≤ newestIndex t := by exact_mod_cast hindex
  exact (h l (hlast ▸ hl)).trans hle

theorem newestIndex_congr {s t : State} (hcfg : t.cfg = s.cfg) (hdet : t.det = s.det) :
    newestIndex t = newestIndex s := by
  rw [newestIndex, hcfg, hdet, newestIndex]

theorem lastNotAhead_of_last_none {s : State} (h : s.cls.last = none) : LastNotAhead s := by
  simp [LastNotAhead, h]

/-- A symbol leaves all that `LastNotAhead` is about alone. -/
theorem sendSymbol_lastNotAhead {y : SySymbol} {s t : State} (h : sendSymbol y s = .next t)
    (hs : LastNotAhead s) : LastNotAhead t := by
  obtain ⟨hcfg, hdet, hcls, -, -⟩ := sendSymbol_upstream h
  exact lastNotAhead_mono (by rw [hcls]) (newestIndex_congr hcfg hdet).ge hs

/-- A transition at a position that is not ahead keeps the last event so: it becomes that position, or
none, or stands (R150). -/
theorem transition_lastNotAhead {ifrac energy : Rat} {s t : State}
    (h : transition ifrac energy s = .next t) (hs : LastNotAhead s)
    (hle : ifrac ≤ (newestIndex s : Rat)) : LastNotAhead t := by
  have hanchored (b : Bool) : LastNotAhead (setExpecting b { s with cls := { last := some ifrac } }) := by
    rintro l ⟨⟩
    exact hle
  rcases transition_next h with ⟨-, time, hy⟩ | ⟨-, k, hk⟩ | rfl | hy
  · exact sendSymbol_lastNotAhead hy (hanchored false)
  · obtain ⟨b, rfl | ⟨y, -, hy⟩⟩ := sendInterval_next hk
    · exact hanchored b
    · exact sendSymbol_lastNotAhead hy (hanchored b)
  · exact hs
  · exact sendSymbol_lastNotAhead hy (lastNotAhead_of_last_none rfl)

/-- The crossing that a corrected sample makes does not lie after that sample (R134). -/
theorem correctedSample_lastNotAhead {i : Int} {y : Rat} {s t : State}
    (h : correctedSample i y s = .next t) (hs : LastNotAhead s) (hi : i = newestIndex s) :
    LastNotAhead t := by
  rcases correctedSample_next h with rfl | ⟨p, -, hsign, -, ht⟩
  · exact hs
  · exact transition_lastNotAhead (s := corrected y s) ht hs (hi ▸ interpolate_le i hsign)

theorem newestIndex_off {s : State} (h : ¬ 0 < s.cfg.dcWindowBits) :
    newestIndex s = (s.det.n : Int) - 1 := by
  rw [← dcOn_iff] at h
  simp [newestIndex, h]

theorem newestIndex_on {s : State} (h : 0 < s.cfg.dcWindowBits) :
    newestIndex s = (s.det.n : Int) - 1 - dcShift s.cfg := by
  rw [newestIndex, if_pos ((dcOn_iff _).2 h)]

theorem acceptSample_lastNotAhead {x : Int} {s t : State} (h : acceptSample x s = .next t)
    (hs : LastNotAhead s) : LastNotAhead t := by
  by_cases hdc : 0 < s.cfg.dcWindowBits
  · have hindex : newestIndex (buffered x s) = (s.det.n : Int) - dcShift s.cfg := by
      rw [newestIndex_on (s := buffered x s) hdc]
      simp [buffered]
    have hbuffered : LastNotAhead (buffered x s) :=
      lastNotAhead_mono (s := s) rfl (by rw [hindex, newestIndex_on hdc]; omega) hs
    rcases Nat.lt_or_ge (buffered x s).det.dcbuf.length (dcLen s.cfg) with hl | hl
    · rw [acceptSample_filling hdc hl] at h
      exact Host.Outcome.next.inj h ▸ hbuffered
    · rw [acceptSample_filled hdc hl] at h
      exact correctedSample_lastNotAhead h hbuffered hindex.symm
  · have hindex : newestIndex (sampled s) = s.det.n := by
      rw [newestIndex_off (s := sampled s) hdc]
      simp [sampled]
    have hsampled : LastNotAhead (sampled s) :=
      lastNotAhead_mono (s := s) rfl (by rw [hindex, newestIndex_off hdc]; omega) hs
    rw [acceptSample_off x hdc] at h
    exact correctedSample_lastNotAhead h hsampled hindex.symm

/-! ## Every sample completes (R130, R202) -/

/-- A framer with an open segment takes every interval: what it refuses is a chunk without a metric, which
a synchronised framer has (R45). -/
theorem symbolBit_completes {s : State} (b : Bool) (hm : s.frm.mode ≠ .idle)
    (hmetric : s.frm.mode = .synced → s.frm.zeroMetric ≠ none) : ∃ t, symbolBit b s = .next t := by
  unfold symbolBit
  cases hmode : s.frm.mode with
  | idle => exact absurd hmode hm
  | hunt => exact ⟨_, rfl⟩
  | synced => exact rowBit_completes (hmetric hmode)
  | abort => exact ⟨_, rfl⟩

theorem symbolAnomaly_completes {s : State} (hm : s.frm.mode ≠ .idle) :
    ∃ t, symbolAnomaly s = .next t := by
  unfold symbolAnomaly
  cases hmode : s.frm.mode with
  | idle => exact absurd hmode hm
  | hunt => exact ⟨_, rfl⟩
  | synced => exact ⟨_, rfl⟩
  | abort => exact ⟨_, rfl⟩

theorem sendGap_completes {s : State} (hm : s.frm.mode ≠ .idle) : ∃ t, sendGap s = .next t := by
  unfold sendGap
  simp only [tap_frm]
  cases hmode : s.frm.mode with
  | idle => exact absurd hmode hm
  | hunt => exact ⟨_, rfl⟩
  | synced => exact ⟨_, rfl⟩
  | abort => exact ⟨_, rfl⟩

theorem sendSegstart_completes {s : State} (time : Rat) (hm : s.frm.mode = .idle) :
    ∃ t, sendSegstart time s = .next t := by
  unfold sendSegstart
  simp only [tap_frm, hm]
  exact ⟨_, rfl⟩

theorem sendInterval_completes {s : State} (k : IntervalClass) (hm : s.frm.mode ≠ .idle)
    (hmetric : s.frm.mode = .synced → s.frm.zeroMetric ≠ none) : ∃ t, sendInterval k s = .next t := by
  cases k with
  | narrow => exact symbolAnomaly_completes hm
  | mid => exact symbolAnomaly_completes hm
  | wide => exact symbolAnomaly_completes hm
  | short =>
    rw [sendInterval, intervalShort]
    split
    · exact symbolBit_completes true hm hmetric
    · exact ⟨_, rfl⟩
  | long =>
    rw [sendInterval, intervalLong]
    split
    · exact symbolAnomaly_completes hm
    · exact symbolBit_completes false hm hmetric

/-- A transition completes where the classifier and the framer agree on whether a segment is open (R45). -/
theorem transition_completes {s : State} (ifrac energy : Rat)
    (hopen : s.frm.mode = .idle ↔ s.cls.last = none)
    (hmetric : s.frm.mode = .synced → s.frm.zeroMetric ≠ none) :
    ∃ t, transition ifrac energy s = .next t := by
  unfold transition
  cases hlast : s.cls.last with
  | none =>
    split
    · exact sendSegstart_completes _ (hopen.2 hlast)
    · exact ⟨_, rfl⟩
  | some l =>
    have hm : s.frm.mode ≠ .idle := fun h => by simp [hopen.1 h] at hlast
    split
    · exact sendInterval_completes _ hm hmetric
    · exact sendGap_completes hm

theorem correctedSample_completes {s : State} (i : Int) (y : Rat)
    (hopen : s.frm.mode = .idle ↔ s.cls.last = none)
    (hmetric : s.frm.mode = .synced → s.frm.zeroMetric ≠ none) :
    ∃ t, correctedSample i y s = .next t := by
  by_cases h : ∃ p, Crosses y s p
  · obtain ⟨p, hp⟩ := h
    rw [correctedSample_crossing i hp]
    exact transition_completes _ _ hopen hmetric
  · exact ⟨_, correctedSample_quiet i (not_exists.1 h)⟩

theorem acceptSample_completes {s : State} (x : Int) (h : BlockInv s) :
    ∃ t, acceptSample x s = .next t := by
  have hmetric : s.frm.mode = .synced → s.frm.zeroMetric ≠ none :=
    fun hm => h.framer.metric_some (.inl hm)
  by_cases hdc : 0 < s.cfg.dcWindowBits
  · rcases Nat.lt_or_ge (buffered x s).det.dcbuf.length (dcLen s.cfg) with hl | hl
    · exact ⟨_, acceptSample_filling hdc hl⟩
    · rw [acceptSample_filled hdc hl]
      exact correctedSample_completes _ _ h.idle_iff hmetric
  · rw [acceptSample_off x hdc]
    exact correctedSample_completes _ _ h.idle_iff hmetric

/-- A sample counts itself and does not set `done` (R136). -/
theorem acceptSample_counts {x : Int} {s t : State} (h : acceptSample x s = .next t) :
    t.det.n = s.det.n + 1 ∧ t.sts.done = s.sts.done := by
  obtain ⟨d, c, b, hn, ys, es, f, e, st, r, -, hburst, -, rfl⟩ := acceptSample_effect h
  obtain ⟨-, -, -, hdone, -⟩ := hburst.status
  exact ⟨hn, hdone⟩

/-! ## The end of input (R137, R197) -/

@[simp] theorem idledFramer_mode (f : Framer) : (idledFramer f).mode = .idle := rfl

/-- The end of the symbols discards the assembly and keeps the rest of the framer (R198). -/
theorem idledFramer_keeps (f : Framer) : (idledFramer f).segNo = f.segNo ∧
    (idledFramer f).chunkIndex = f.chunkIndex ∧ (idledFramer f).zeroMetric = f.zeroMetric ∧
    (idledFramer f).zeroCount = f.zeroCount := by
  unfold idledFramer
  split <;> exact ⟨rfl, rfl, rfl, rfl⟩

/-- The state once the end of input has run through every sub-block (R137, R154, R172, R197). -/
def flushed (s : State) : State :=
  { s with
    cls := { last := none }
    rcv := { expecting := false }
    frm := idledFramer s.frm
    emt := if s.frm.mode = .hunt ∨ s.frm.mode = .synced then { s.emt with recOpen := false } else s.emt
    sts := { s.sts with done := true }
    io := { outs := s.io.outs ++ (lastEvents s ++ [.endRun]), syTap := s.io.syTap ++ [.eos],
            records := (lastEvents s).foldl recordsAfter s.io.records,
            manifest := s.io.manifest ++ (lastEvents s).flatMap linesOf } }

theorem acceptEos_flushed (s : State) : acceptEos s = .next (flushed s) := by
  unfold acceptEos transitionsEnd intervalsEnd
  rw [sendEos_eq]
  rfl

theorem lastEvents_outside {s : State} (h : s.frm.mode = .idle ∨ s.frm.mode = .abort) :
    lastEvents s = [] := by
  rw [lastEvents, if_neg]
  rcases h with h | h <;> simp [h]

theorem lastEvents_inside {s : State} (h : s.frm.mode = .hunt ∨ s.frm.mode = .synced) :
    lastEvents s = endEvents s.emt.recOpen (zeroReport s.frm) := if_pos h

/-- At most the last record is frozen, so no byte changes (R66). -/
theorem readByte_flushed (s : State) (k a : Nat) : readByte (flushed s) k a = readByte s k a := by
  refine readByte_frozen ?_ k a
  by_cases h : s.frm.mode = .hunt ∨ s.frm.mode = .synced
  · simp only [flushed, lastEvents_inside h]
    exact endEvents_records _ _ _
  · exact .inl (by simp [flushed, lastEvents, h])

end Sys2Proof.Machine

namespace Sys2Proof.Claims
open Sys2Proof.Machine

/-- Settles O9: the quotient that is added lies between 0 and 1. -/
theorem interpolationLiesBetweenSamples : Obligations.InterpolationLiesBetweenSamples := by
  intro i p y h
  exact ⟨sub_ne_zero_of_signChange h, interpolate_eq i p y, sub_one_le_interpolate i p y,
    interpolate_le i h⟩

/-- Settles O10: the sample is its own corrected sample, of index `n`. -/
theorem sampleWithoutDcWindow : Obligations.SampleWithoutDcWindow := by
  intro s x buf hi lo w ha hoff hw hbuf hhi hmax hlo hmin
  obtain rfl := eq_energyLen hw
  rw [← push_eq] at hbuf
  subst hbuf
  exact exec_inSample_corrected ha rfl (acceptSample_off x hoff) (Int.cast_natCast _)
    (energyOf_eq hhi hmax hlo hmin)

/-- Settles O11: while the window fills the sample is only held, and then its element `MID` less the mean
is the corrected sample, of index `n` less `SHIFT`. -/
theorem sampleWithDcWindow : Obligations.SampleWithDcWindow := by
  intro s x raw d ha hon hd hraw
  obtain rfl := eq_dcLen hon hd
  rw [← push_eq] at hraw
  subst hraw
  refine ⟨fun hfilling => ?filling, fun hfilled m y buf hi lo w hm hy hw hbuf hhi hmax hlo hmin => ?filled⟩
  case filling =>
    rw [exec_accepting ha]
    exact acceptSample_filling hon hfilling
  case filled =>
    obtain rfl := eq_energyLen hw
    rw [← push_eq] at hbuf
    subst hbuf
    rw [← dcCorrected_eq hm] at hy
    subst hy
    refine exec_inSample_corrected ha rfl (acceptSample_filled hon hfilled) ?_
      (energyOf_eq hhi hmax hlo hmin)
    rw [Int.cast_sub, Int.cast_natCast, Int.cast_natCast, dcShift_cast (one_le_dcLen_of_accepting ha hon)]

/-- Settles O12: the sample completes, counts itself, and the rest stands as through every instruction. -/
theorem everySampleCompletes : Obligations.EverySampleCompletes := by
  intro s x hinv ha
  obtain ⟨t, ht⟩ := acceptSample_completes x hinv
  have hexec : exec (.inSample x) s = .next t := exec_next.2 ⟨ha, ht⟩
  have hstands := exec_stands hexec
  obtain ⟨hn, hdone⟩ := acceptSample_counts ht
  obtain ⟨hnotDone, -, -⟩ := (accepting_iff s).1 ha
  exact ⟨t, hexec, hn, hdone.trans hnotDone, hstands.cfg, hstands.rom, hstands.pending⟩

/-- Settles O13: the state `flushed`, whose last events depend on the mode and on the open record. -/
theorem endOfInputFlushesThePipeline : Obligations.EndOfInputFlushesThePipeline := by
  intro s ha
  obtain ⟨hseg, hchunk, hmetric, hcount⟩ := idledFramer_keeps s.frm
  refine ⟨flushed s, exec_next.2 ⟨ha, acceptEos_flushed s⟩, rfl, rfl, rfl, rfl, rfl, hseg, hchunk, hmetric,
    hcount, rfl, ?outside, ?inside, readByte_flushed s, rfl, rfl, rfl, rfl⟩
  case outside =>
    intro hm
    refine ⟨by simp [flushed, lastEvents_outside hm], ?_⟩
    rcases hm with hm | hm <;> simp [flushed, hm]
  case inside =>
    intro hm
    have houts : (flushed s).io.outs =
        s.io.outs ++ (endEvents s.emt.recOpen (zeroReport s.frm) ++ [.endRun]) := by
      rw [← lastEvents_inside hm]
      rfl
    refine ⟨if_pos hm, fun ho => ?_, fun ho z hz => ?_, fun ho hz => ?_⟩
    · rw [houts, ho]; rfl
    · rw [houts, ho, hz]; rfl
    · rw [houts, ho, hz]; rfl

/-- Settles O59: a crossing lies between two neighbouring samples, so the event it makes is not ahead of
the newer one, and the next is not behind it. -/
theorem spacingsAreNeverNegative : Obligations.SpacingsAreNeverNegative := by
  refine ⟨fun i s t hi hs ht => ?keeps, fun s l p y hs hl _ => ?spacing⟩
  case keeps =>
    obtain ⟨-, ht⟩ := exec_next.1 ht
    cases i
    case inSample x => exact acceptSample_lastNotAhead ht hs
    case inEos =>
      obtain rfl := Host.Outcome.next.inj ((acceptEos_flushed s).symm.trans ht)
      exact lastNotAhead_of_last_none rfl
    all_goals cases hi
  case spacing =>
    have hlast : l ≤ (newestIndex s : Rat) := hs l hl
    have hcrossing := sub_one_le_interpolate (newestIndex s + 1) p y
    push_cast at hcrossing
    linarith

end Sys2Proof.Claims
end

section
/-! The classifier: the five bands of the spacing, what a transition event becomes on the `CL` channel, the
anchor of a segment, and the end of the intervals and of the transitions. -/

namespace Sys2Proof.Machine

/-! ## The five bands (R151) -/

/-- The spacing meets the condition of the class: both edges of `LONG` and of `SHORT` belong to them. -/
def InBand (c : Config) (delta : Rat) : IntervalClass → Prop
  | .wide => edgeLongWide c < delta
  | .long => edgeMidLong c ≤ delta ∧ delta ≤ edgeLongWide c
  | .mid => edgeShortMid c < delta ∧ delta < edgeMidLong c
  | .short => edgeNarrowShort c ≤ delta ∧ delta ≤ edgeShortMid c
  | .narrow => delta < edgeNarrowShort c

/-- The tests that failed before a class is given are the other half of its condition. -/
theorem inBand_classify (c : Config) (delta : Rat) : InBand c delta (classify c delta) := by
  unfold classify
  split
  next hwide => exact hwide
  next hwide =>
    split
    next hlong => exact ⟨hlong, not_lt.1 hwide⟩
    next hlong =>
      split
      next hmid => exact ⟨hmid, not_le.1 hlong⟩
      next hmid =>
        split
        next hshort => exact ⟨hshort, not_lt.1 hmid⟩
        next hshort => exact not_le.1 hshort

/-- The edges stand in order, so the bands are disjoint and a spacing in one fails every earlier test. -/
theorem classify_of_inBand {c : Config} {delta : Rat} {k : IntervalClass} (hc : configValid c = true)
    (h : InBand c delta k) : classify c delta = k := by
  obtain ⟨hsample, hbit, -, htol0, htol1⟩ := (configValid_iff c).1 hc
  obtain ⟨-, hns_sm, hsm_ml, hml_lw⟩ := edges_ordered (spb_pos hsample hbit) htol0 htol1
  unfold classify
  cases k with
  | wide => exact if_pos h
  | long =>
    obtain ⟨hlo, hhi⟩ := h
    rw [if_neg hhi.not_gt, if_pos hlo]
  | mid =>
    obtain ⟨hlo, hhi⟩ := h
    rw [if_neg (hhi.trans_le hml_lw).not_gt, if_neg hhi.not_ge, if_pos hlo]
  | short =>
    obtain ⟨hlo, hhi⟩ := h
    have hml : delta < edgeMidLong c := hhi.trans_lt hsm_ml
    rw [if_neg (hml.trans_le hml_lw).not_gt, if_neg hml.not_ge, if_neg hhi.not_gt, if_pos hlo]
  | narrow =>
    have hsm : delta < edgeShortMid c := lt_of_lt_of_le h hns_sm
    have hml : delta < edgeMidLong c := hsm.trans hsm_ml
    rw [if_neg (hml.trans_le hml_lw).not_gt, if_neg hml.not_ge, if_neg hsm.not_gt, if_neg (not_le.2 h)]

theorem classify_eq_iff {c : Config} (delta : Rat) (k : IntervalClass) (hc : configValid c = true) :
    classify c delta = k ↔ InBand c delta k :=
  ⟨fun h => h ▸ inBand_classify c delta, classify_of_inBand hc⟩

/-! ## What a transition event becomes (R150) -/

/-- The state once the event at `ifrac` is the last one (R25, R155, R156). -/
def anchored (ifrac : Rat) (s : State) : State := { s with cls := { last := some ifrac } }

/-- The state once the classifier's segment is closed (R153, R154). -/
def unanchored (s : State) : State := { s with cls := { last := none } }

theorem accepting_anchored (ifrac : Rat) (s : State) : accepting (anchored ifrac s) = accepting s :=
  accepting_congr rfl rfl rfl

theorem accepting_unanchored (s : State) : accepting (unanchored s) = accepting s :=
  accepting_congr rfl rfl rfl

theorem transition_anchor {ifrac energy : Rat} {s : State} (he : s.cfg.energyThreshold ≤ energy)
    (hl : s.cls.last = none) :
    transition ifrac energy s = beginSegment (ifrac / s.cfg.sampleRate) (anchored ifrac s) := by
  simp [transition, he, hl, anchored]

theorem transition_interval {ifrac energy l : Rat} {s : State} (he : s.cfg.energyThreshold ≤ energy)
    (hl : s.cls.last = some l) :
    transition ifrac energy s = sendInterval (classify s.cfg (ifrac - l)) (anchored ifrac s) := by
  simp [transition, he, hl, anchored]

theorem transition_outside {ifrac energy : Rat} {s : State} (he : energy < s.cfg.energyThreshold)
    (hl : s.cls.last = none) : transition ifrac energy s = .next s := by
  simp [transition, he.not_ge, hl]

theorem transition_dropout {ifrac energy : Rat} {s : State} (he : energy < s.cfg.energyThreshold)
    (hl : s.cls.last ≠ none) : transition ifrac energy s = dropout (unanchored s) := by
  obtain ⟨l, hl⟩ := Option.ne_none_iff_exists'.1 hl
  simp [transition, he.not_ge, hl, unanchored]

/-- The instruction of the `CL` channel that carries a class (R92). -/
def intervalInstr : IntervalClass → Instr
  | .narrow => .clIvlNarrow
  | .short => .clIvlShort
  | .mid => .clIvlMid
  | .long => .clIvlLong
  | .wide => .clIvlWide

theorem ruleOf_intervalInstr (k : IntervalClass) : ruleOf (intervalInstr k) = sendInterval k := by
  cases k <;> rfl

/-- An event that becomes a token of the `CL` channel runs as that token does when presented. -/
theorem exec_trTrans_eq {s u : State} {ifrac energy : Rat} {i : Instr} (ha : accepting s = true)
    (hu : accepting u = accepting s) (h : transition ifrac energy s = ruleOf i u) :
    exec (.trTrans ifrac energy) s = exec i u := by
  rw [exec_accepting ha, exec_accepting (hu.trans ha), ruleOf, h]

/-- A loud event inside a segment is the interval of its class. -/
theorem exec_trTrans_interval {s : State} {ifrac energy l : Rat} {k : IntervalClass}
    (ha : accepting s = true) (he : s.cfg.energyThreshold ≤ energy) (hl : s.cls.last = some l)
    (hk : classify s.cfg (ifrac - l) = k) :
    exec (.trTrans ifrac energy) s = exec (intervalInstr k) (anchored ifrac s) :=
  exec_trTrans_eq ha (accepting_anchored ifrac s) (by
    rw [transition_interval he hl, hk, ruleOf_intervalInstr])

/-! ## The start of a segment (R165, R185) -/

/-- In mode `IDLE` the start of a segment clears the flag, initialises the framer and shows on the tap. -/
theorem beginSegment_idle {s : State} (time : Rat) (hm : s.frm.mode = .idle) :
    beginSegment time s = .next
      { s with
        rcv := { expecting := false }
        frm := segmentStart s.frm
        io := { s.io with syTap := s.io.syTap ++ [.segstart time] } } := by
  simp only [beginSegment, sendSegstart, tap_frm, setExpecting_frm, hm]
  rfl

/-! ## The end of the intervals (R172) -/

/-- The state once the end of the intervals has run: that of the end of input, with the classifier and the
status as they were. -/
def drained (s : State) : State := { flushed s with cls := s.cls, sts := s.sts }

theorem intervalsEnd_drained (s : State) : intervalsEnd s = .next (drained s) :=
  sendEos_eq (setExpecting false s)

theorem drained_outs_getLast? (s : State) : (drained s).io.outs.getLast? = some .endRun := by
  simp [drained, flushed]

theorem readByte_drained (s : State) (k a : Nat) : readByte (drained s) k a = readByte s k a :=
  (readByte_congr rfl k a).trans (readByte_flushed s k a)

theorem exec_clEos_drained {s : State} (ha : accepting s = true) : exec .clEos s = .next (drained s) :=
  exec_next.2 ⟨ha, intervalsEnd_drained s⟩

/-- The end of the transitions is the end of the intervals, with the classifier's segment closed (R154). -/
theorem exec_trEos_eq_clEos {s : State} (ha : accepting s = true) :
    exec .trEos s = exec .clEos (unanchored s) := by
  rw [exec_accepting ha, exec_accepting ((accepting_unanchored s).trans ha)]
  rfl

end Sys2Proof.Machine

namespace Sys2Proof.Claims
open Sys2Proof.Machine

/-- Settles O14: the edges as R151 writes them are those of `InBand`. -/
theorem classBands : Obligations.ClassBands := by
  intro c delta hc
  rw [← edgeLongWide_eq, ← edgeMidLong_eq, ← edgeShortMid_eq, ← edgeNarrowShort_eq]
  exact ⟨classify_eq_iff delta .wide hc, classify_eq_iff delta .long hc, classify_eq_iff delta .mid hc,
    classify_eq_iff delta .short hc, classify_eq_iff delta .narrow hc⟩

/-- Settles O15: one lemma for each branch of R150. -/
theorem transitionEvents : Obligations.TransitionEvents := by
  intro s ifrac energy ha
  refine ⟨fun he => ⟨fun hl => ?anchor, fun l hl => ?interval⟩,
    fun he => ⟨fun hl => ?outside, fun hl => ?dropout⟩⟩
  case anchor => exact exec_trTrans_eq ha (accepting_anchored ifrac s) (transition_anchor he hl)
  case interval =>
    have interval (k : IntervalClass) := exec_trTrans_interval (ifrac := ifrac) (k := k) ha he hl
    exact ⟨interval .narrow, interval .short, interval .mid, interval .long, interval .wide⟩
  case outside => exact exec_next.2 ⟨ha, transition_outside he hl⟩
  case dropout => exact exec_trTrans_eq ha (accepting_unanchored s) (transition_dropout he hl)

/-- Settles O16: the anchor's start of a segment, in mode `IDLE`. -/
theorem anchorOpensASegment : Obligations.AnchorOpensASegment := by
  intro s ifrac energy ha he hl hm
  rw [exec_accepting ha, ruleOf, transition_anchor he hl, beginSegment_idle _ (s := anchored ifrac s) hm]
  rfl

/-- Settles O19: both ends leave `drained`, the end of the transitions that of the closed classifier. -/
theorem segmentOpenAndEndsComplete : Obligations.SegmentOpenAndEndsComplete := by
  intro s ha
  have hclosed : accepting (unanchored s) = true := (accepting_unanchored s).trans ha
  refine ⟨fun hm time => ?start, ⟨drained s, exec_clEos_drained ha, ?intervals⟩, exec_trEos_eq_clEos ha,
    ⟨drained (unanchored s), (exec_trEos_eq_clEos ha).trans (exec_clEos_drained hclosed), ?transitions⟩⟩
  case start => exact exec_next.2 ⟨ha, beginSegment_idle time hm⟩
  case intervals =>
    exact ⟨rfl, rfl, rfl, rfl, rfl, rfl, drained_outs_getLast? s, readByte_drained s⟩
  case transitions =>
    exact ⟨rfl, rfl, rfl, rfl, rfl, rfl, drained_outs_getLast? _, readByte_drained (unanchored s)⟩

end Sys2Proof.Claims
end

section
/-! The recoverer: the cells of its transition table, and the completion of every interval and of the
dropout in an open segment. -/

namespace Sys2Proof.Machine

/-! ## The transition table (R173) -/

theorem setExpecting_of_eq {s : State} {b : Bool} (h : s.rcv.expecting = b) : setExpecting b s = s := by
  subst h
  rfl

theorem accepting_setExpecting (b : Bool) (s : State) : accepting (setExpecting b s) = accepting s :=
  accepting_congr rfl rfl rfl

/-- A `LONG` with the flag clear is a zero (R166). -/
theorem intervalLong_clear {s : State} (h : s.rcv.expecting = false) :
    intervalLong s = sendZero (setExpecting false s) := by
  rw [setExpecting_of_eq h]
  simp [intervalLong, h]

/-- A `LONG` after an unpaired `SHORT` is an anomaly (R166). -/
theorem intervalLong_set {s : State} (h : s.rcv.expecting = true) :
    intervalLong s = sendAnomLong (setExpecting false s) := by
  simp [intervalLong, h]

/-- The first `SHORT` of a pair is no symbol (R167). -/
theorem intervalShort_clear {s : State} (h : s.rcv.expecting = false) :
    intervalShort s = .next (setExpecting true s) := by
  simp [intervalShort, h]

/-- The second `SHORT` of a pair is a one (R167). -/
theorem intervalShort_set {s : State} (h : s.rcv.expecting = true) :
    intervalShort s = sendOne (setExpecting false s) := by
  simp [intervalShort, h]

/-- A token whose rule sends on a symbol runs as that symbol does when presented, on the new flag. -/
theorem exec_eq_exec_setExpecting {s : State} {b : Bool} {i j : Instr} (ha : accepting s = true)
    (h : ruleOf i s = ruleOf j (setExpecting b s)) : exec i s = exec j (setExpecting b s) := by
  rw [exec_accepting ha, exec_accepting ((accepting_setExpecting b s).trans ha), h]

/-! ## The tokens of an open segment (R174) -/

/-- The flag after an interval or the dropout: only a first `SHORT` leaves it set (R173). -/
def flagAfter (i : Instr) (s : State) : Bool := decide (i = .clIvlShort) && !s.rcv.expecting

theorem sendInterval_effect_flagAfter {k : IntervalClass} {s t : State} (h : sendInterval k s = .next t) :
    Effect (setExpecting (flagAfter (intervalInstr k) s) s) t := by
  cases k with
  | narrow => exact intervalNarrow_effect h
  | short => exact intervalShort_effect h
  | mid => exact intervalMid_effect h
  | long => exact intervalLong_effect h
  | wide => exact intervalWide_effect h

/-- The tokens that the classifier sends between the start of a segment and its end: an interval of each
class and the dropout. -/
theorem mem_segmentTokens {i : Instr}
    (h : i ∈ [Instr.clIvlLong, .clIvlShort, .clIvlWide, .clIvlMid, .clIvlNarrow, .clDropout]) :
    i = .clDropout ∨ ∃ k, i = intervalInstr k := by
  simp only [List.mem_cons, List.not_mem_nil, or_false] at h
  rcases h with rfl | rfl | rfl | rfl | rfl | rfl
  · exact .inr ⟨.long, rfl⟩
  · exact .inr ⟨.short, rfl⟩
  · exact .inr ⟨.wide, rfl⟩
  · exact .inr ⟨.mid, rfl⟩
  · exact .inr ⟨.narrow, rfl⟩
  · exact .inl rfl

/-- Each of them completes with a segment open, and does what its symbol does on the new flag. -/
theorem segmentToken_completes {i : Instr} {s : State} (hi : i = .clDropout ∨ ∃ k, i = intervalInstr k)
    (hm : s.frm.mode ≠ .idle) (hmetric : s.frm.mode = .synced → s.frm.zeroMetric ≠ none) :
    ∃ t, ruleOf i s = .next t ∧ Effect (setExpecting (flagAfter i s) s) t := by
  rcases hi with rfl | ⟨k, rfl⟩
  · obtain ⟨t, ht⟩ := sendGap_completes (s := setExpecting false s) hm
    exact ⟨t, ht, dropout_effect ht⟩
  · obtain ⟨t, ht⟩ := sendInterval_completes k hm hmetric
    exact ⟨t, (congrFun (ruleOf_intervalInstr k) s).trans ht, sendInterval_effect_flagAfter ht⟩

/-- What an effect leaves alone: the sub-blocks upstream of the framer, the constants, the queue and
`done`. -/
theorem Effect.upstream {s t : State} (h : Effect s t) :
    t.det = s.det ∧ t.cls = s.cls ∧ t.rcv = s.rcv ∧ t.cfg = s.cfg ∧ t.rom = s.rom ∧
      t.pending = s.pending ∧ t.sts.done = s.sts.done := by
  obtain ⟨ys, es, f, e, st, r, -, hb, -, rfl⟩ := h
  obtain ⟨-, -, -, hdone, -⟩ := hb.status
  exact ⟨rfl, rfl, rfl, rfl, rfl, rfl, hdone⟩

theorem Effect.shows_at_most_one {s t : State} (h : Effect s t) :
    ∃ ys, t.io.syTap = s.io.syTap ++ ys ∧ ys.length ≤ 1 := by
  obtain ⟨ys, es, f, e, st, r, hys, -, -, rfl⟩ := h
  exact ⟨ys, rfl, hys⟩

end Sys2Proof.Machine

namespace Sys2Proof.Claims
open Sys2Proof.Machine

/-- Settles O17: `LONG` and `SHORT` by the flag, every other token in one cell for both its values. -/
theorem recovererTable : Obligations.RecovererTable := by
  intro s ha
  have cell {i j : Instr} (h : ruleOf i s = ruleOf j (setExpecting false s)) :=
    exec_eq_exec_setExpecting ha h
  refine ⟨fun hclear => ⟨?zero, ?first⟩, fun hset => ⟨?anomaly, ?one⟩, fun time => ?start, ?wide, ?mid,
    ?narrow, ?gap, ?eos⟩
  case zero => exact cell (j := .syZero) (intervalLong_clear hclear)
  case first => exact exec_next.2 ⟨ha, intervalShort_clear hclear⟩
  case anomaly => exact cell (j := .syAnomLong) (intervalLong_set hset)
  case one => exact cell (j := .syOne) (intervalShort_set hset)
  case start => exact cell (i := .clSegOpen time) (j := .sySegstart time) rfl
  case wide => exact cell (i := .clIvlWide) (j := .syAnomWide) rfl
  case mid => exact cell (i := .clIvlMid) (j := .syAnomMid) rfl
  case narrow => exact cell (i := .clIvlNarrow) (j := .syAnomNarrow) rfl
  case gap => exact cell (i := .clDropout) (j := .syGap) rfl
  case eos => exact cell (i := .clEos) (j := .syEos) rfl

/-- Settles O18: the token completes with the effect of at most one symbol, after the flag is written. -/
theorem intervalsComplete : Obligations.IntervalsComplete := by
  intro s ha hm hmetric i hi
  obtain ⟨t, ht, heffect⟩ := segmentToken_completes (mem_segmentTokens hi) hm hmetric
  obtain ⟨hdet, hcls, hrcv, hcfg, hrom, hpending, hdone⟩ := heffect.upstream
  refine ⟨t, exec_next.2 ⟨ha, ht⟩, hdet, hcls, congrArg Recoverer.expecting hrcv, fun hshort hclear => ?first,
    heffect.shows_at_most_one, hcfg, hrom, hpending, hdone⟩
  case first =>
    subst hshort
    obtain rfl := Host.Outcome.next.inj ((intervalShort_clear hclear).symm.trans ht)
    rfl

end Sys2Proof.Claims
end

section
/-! The framer's symbols: what each does in each mode, the refusals of R202, and the end of an open
segment. -/

namespace Sys2Proof.Machine

/-! ## The symbols by mode (R185, R192 to R196, R199, R202) -/

/-- The instruction of the `SY` channel that carries a symbol (R93). -/
def symbolInstr : SySymbol → Instr
  | .zero => .syZero
  | .one => .syOne
  | .gap => .syGap
  | .segstart time => .sySegstart time
  | .anomaly .narrow => .syAnomNarrow
  | .anomaly .mid => .syAnomMid
  | .anomaly .long => .syAnomLong
  | .anomaly .wide => .syAnomWide
  | .eos => .syEos

theorem ruleOf_symbolInstr (y : SySymbol) : ruleOf (symbolInstr y) = sendSymbol y := by
  cases y with
  | anomaly k => cases k <;> rfl
  | _ => rfl

/-- A symbol presented to a block that takes it runs as it does when the recoverer sends it. -/
theorem exec_symbolInstr {s : State} (ha : accepting s = true) (y : SySymbol) :
    exec (symbolInstr y) s = sendSymbol y s := by
  rw [exec_accepting ha, ruleOf_symbolInstr]

theorem sendSegstart_idle {s : State} (time : Rat) (hm : s.frm.mode = .idle) :
    sendSegstart time s = .next { tap (.segstart time) s with frm := segmentStart s.frm } := by
  simp [sendSegstart, hm]

theorem sendSegstart_refused {s : State} (time : Rat) (hm : s.frm.mode ≠ .idle) :
    sendSegstart time s = .refused .segstartInsideSegment := by
  unfold sendSegstart
  simp only [tap_frm]
  cases hmode : s.frm.mode with
  | idle => exact absurd hmode hm
  | hunt => rfl
  | synced => rfl
  | abort => rfl

/-- The symbols that only an open segment takes: all but the start of a segment and the end of the symbols
(R202). -/
def needsSegment : SySymbol → Bool
  | .segstart _ => false
  | .eos => false
  | _ => true

theorem sendSymbol_refused {s : State} {y : SySymbol} (hm : s.frm.mode = .idle)
    (hy : needsSegment y = true) : sendSymbol y s = .refused .symbolOutsideSegment := by
  cases y with
  | zero => simp [sendSymbol, sendZero, symbolBit, hm]
  | one => simp [sendSymbol, sendOne, symbolBit, hm]
  | gap => simp [sendSymbol, sendGap, hm]
  | anomaly k => simp [sendSymbol_anomaly, symbolAnomaly, hm]
  | segstart time => cases hy
  | eos => cases hy

/-- After a fault a symbol that does not end the segment is shown and ignored (R199). -/
theorem sendSymbol_ignored {s : State} {y : SySymbol} (hm : s.frm.mode = .abort)
    (hy : needsSegment y = true) (hc : closes y = false) : sendSymbol y s = .next (tap y s) := by
  cases y with
  | zero => simp [sendSymbol, sendZero, symbolBit, hm]
  | one => simp [sendSymbol, sendOne, symbolBit, hm]
  | anomaly k => simp [sendSymbol_anomaly, symbolAnomaly, hm]
  | gap => cases hc
  | segstart time => cases hy
  | eos => cases hy

/-- Inside a segment an anomaly is shown, counted, and breaks what is being assembled (R203). -/
theorem sendSymbol_anomaly_open {s : State} (k : AnomalyKind)
    (hm : s.frm.mode = .hunt ∨ s.frm.mode = .synced) :
    sendSymbol (.anomaly k) s =
      .next { tap (.anomaly k) s with frm := anomaly (counted s.frm) } := by
  rw [sendSymbol_anomaly]
  rcases hm with hm | hm <;> simp [symbolAnomaly, hm, counted]

theorem sendGap_abort {s : State} (hm : s.frm.mode = .abort) :
    sendGap s = .next { tap .gap s with frm := { s.frm with mode := .idle } } := by
  simp [sendGap, hm]

/-! ## The end of an open segment (R196 to R198) -/

theorem sendGap_open {s : State} (hm : s.frm.mode = .hunt ∨ s.frm.mode = .synced) :
    sendGap s = .next (segTerminate (tap .gap s)) := by
  rcases hm with hm | hm <;> simp [sendGap, hm]

theorem sendEos_idle {s : State} (hm : s.frm.mode = .idle) :
    sendEos s = .next (endOfRun (tap .eos s)) := by
  simp [sendEos, hm]

theorem sendEos_abort {s : State} (hm : s.frm.mode = .abort) :
    sendEos s = .next (endOfRun { tap .eos s with frm := { s.frm with mode := .idle } }) := by
  simp [sendEos, hm]

theorem sendEos_open {s : State} (hm : s.frm.mode = .hunt ∨ s.frm.mode = .synced) :
    sendEos s = .next (endOfRun (segTerminate (tap .eos s))) := by
  rcases hm with hm | hm <;> simp [sendEos, hm]

/-- The end of a segment is that of the emitter, with the zero report, and an idle framer. -/
theorem segTerminate_eq (s : State) : segTerminate s =
    { segmentEnd (zeroReport s.frm) s with frm := { dropAssembly s.frm with mode := .idle } } := by
  simp [segTerminate, segmentEnd_eq, emitAll_eq]

/-- It writes no byte. -/
theorem readByte_segTerminate (s : State) (k a : Nat) :
    readByte (segTerminate s) k a = readByte s k a := by
  rw [segTerminate_eq]
  exact readByte_segmentEnd (zeroReport s.frm) s k a

/-- Without a metric the zero report is the leading count, if any bit was counted (R198). -/
theorem zeroReport_count {f : Framer} (h : f.zeroMetric = none) (hc : 0 < f.zeroCount) :
    zeroReport f = some (f.zeroCount : Int) := by
  simp [zeroReport, h, hc]

theorem zeroReport_nothing {f : Framer} (h : f.zeroMetric = none) (hc : f.zeroCount = 0) :
    zeroReport f = none := by
  simp [zeroReport, h, hc]

/-- A block that has put out no `OUT.END` since it took a token takes the next one. -/
theorem accepting_of_outs_append {s t : State} {es : List OutEvent} (ha : accepting s = true)
    (hdone : t.sts.done = s.sts.done) (hcfg : t.cfg = s.cfg) (houts : t.io.outs = s.io.outs ++ es)
    (hes : OutEvent.endRun ∉ es) : accepting t = true := by
  obtain ⟨hnotDone, hend, hvalid⟩ := (accepting_iff s).1 ha
  refine (accepting_iff t).2 ⟨hdone.trans hnotDone, fun hlast => ?_, by rwa [hcfg]⟩
  rw [houts, List.getLast?_append] at hlast
  cases he : es.getLast? with
  | none => exact hend (by simpa [he] using hlast)
  | some e =>
    obtain rfl : e = .endRun := by simpa [he] using hlast
    exact hes (List.mem_of_getLast? he)

theorem accepting_segmentEnd {s : State} (z : Option Int) (ha : accepting s = true) :
    accepting (segmentEnd z s) = true :=
  accepting_of_outs_append ha (by simp) (by simp) (segmentEnd_outs z s) (endRun_not_mem_endEvents _ _)

/-- The end of the symbols passes `FE.EOS` on from the state it leaves (R197). -/
theorem exec_syEos_eq_feEos {s u : State} (ha : accepting s = true) (hu : accepting u = true)
    (h : sendEos s = .next (endOfRun u)) : exec .syEos s = exec .feEos u := by
  rw [exec_accepting ha, exec_accepting hu]
  exact h

end Sys2Proof.Machine

namespace Sys2Proof.Claims
open Sys2Proof.Machine

/-- Settles O20: the reset values of a framer are those of R185 but for the mode and the segment number. -/
theorem segmentStartInitialisesFramer : Obligations.SegmentStartInitialisesFramer := by
  intro s time ha hm
  exact exec_next.2 ⟨ha, sendSegstart_idle time hm⟩

/-- Settles O31: one refusal for each half of R202. -/
theorem impossibleSymbolsAreRefused : Obligations.ImpossibleSymbolsAreRefused := by
  intro s ha
  refine ⟨fun hm => ?outside, fun hm time => ?inside⟩
  case outside =>
    have refused (y : SySymbol) (hy : needsSegment y = true) :
        exec (symbolInstr y) s = .refused .symbolOutsideSegment :=
      (exec_symbolInstr ha y).trans (sendSymbol_refused hm hy)
    simp only [List.forall_mem_cons]
    exact ⟨refused .zero rfl, refused .one rfl, refused (.anomaly .narrow) rfl,
      refused (.anomaly .mid) rfl, refused (.anomaly .long) rfl, refused (.anomaly .wide) rfl,
      refused .gap rfl, List.forall_mem_nil _⟩
  case inside => exact (exec_symbolInstr ha (.segstart time)).trans (sendSegstart_refused time hm)

/-- Settles O30: what a fault leaves ignores every symbol but the gap. -/
theorem abortIgnoresSymbols : Obligations.AbortIgnoresSymbols := by
  intro s ha hm
  have ignored (y : SySymbol) (hy : needsSegment y = true) (hc : closes y = false) :
      exec (symbolInstr y) s = .next (tap y s) :=
    (exec_symbolInstr ha y).trans (sendSymbol_ignored hm hy hc)
  refine ⟨?_, exec_next.2 ⟨ha, sendGap_abort hm⟩⟩
  simp only [List.forall_mem_cons]
  exact ⟨ignored .zero rfl rfl, ignored .one rfl rfl, ignored (.anomaly .narrow) rfl rfl,
    ignored (.anomaly .mid) rfl rfl, ignored (.anomaly .long) rfl rfl, ignored (.anomaly .wide) rfl rfl,
    List.forall_mem_nil _⟩

/-- Settles O27: the framer does not look at the kind, and `anomaly` is one case for each mode. -/
theorem anomalyDiscardsThePartialRow : Obligations.AnomalyDiscardsThePartialRow := by
  intro s ha
  have hunting (k : AnomalyKind) (hm : s.frm.mode = .hunt) : exec (symbolInstr (.anomaly k)) s =
      .next { tap (.anomaly k) s with
        frm := { s.frm with symPos := s.frm.symPos + 1, window := [], leading := false } } := by
    rw [exec_symbolInstr ha, sendSymbol_anomaly_open k (.inl hm)]
    simp [anomaly, counted, hm]
  have synced (k : AnomalyKind) (hm : s.frm.mode = .synced) : exec (symbolInstr (.anomaly k)) s =
      .next { tap (.anomaly k) s with
        frm := { s.frm with symPos := s.frm.symPos + 1, rowbits := [], window := [] } } := by
    rw [exec_symbolInstr ha, sendSymbol_anomaly_open k (.inr hm)]
    simp [anomaly, counted, hm]
  simp only [List.forall_mem_cons]
  exact ⟨⟨hunting .narrow, synced .narrow⟩, ⟨hunting .mid, synced .mid⟩, ⟨hunting .long, synced .long⟩,
    ⟨hunting .wide, synced .wide⟩, List.forall_mem_nil _⟩

/-- Settles O28: `segTerminate`, whose events depend on the open record and on the zero report. -/
theorem gapEndsTheSegment : Obligations.GapEndsTheSegment := by
  intro s ha hm
  have houts : (segTerminate (tap .gap s)).io.outs =
      s.io.outs ++ endEvents s.emt.recOpen (zeroReport s.frm) := by simp [segTerminate_eq]
  refine ⟨segTerminate (tap .gap s), exec_next.2 ⟨ha, sendGap_open hm⟩, ?framer, ?emitter, ?shown,
    fun ho => ?record, fun ho m hz => ?metric, fun ho hz hc => ?count, fun ho hz hc => ?nothing,
    fun k a => ?bytes, ?rest⟩
  case framer =>
    rw [segTerminate_eq]
    rfl
  case emitter => simp [segTerminate_eq]
  case shown => simp [segTerminate_eq]
  case record => rw [houts, ho]; rfl
  case metric => rw [houts, ho, zeroReport_metric hz]; rfl
  case count => rw [houts, ho, zeroReport_count hz hc]; rfl
  case nothing => rw [houts, ho, zeroReport_nothing hz hc]; exact List.append_nil _
  case bytes => exact (readByte_segTerminate _ k a).trans (readByte_congr rfl k a)
  case rest => simp [segTerminate_eq]

/-- Settles O29: an open segment ends first, which leaves the block taking `FE.EOS`. -/
theorem symbolEndPassesOn : Obligations.SymbolEndPassesOn := by
  intro s ha
  refine ⟨fun hm => ?idle, fun hm => ?abort, fun hm => ?inside,
    ⟨_, exec_next.2 ⟨ha, sendEos_eq s⟩, rfl, ?last⟩⟩
  case idle => exact exec_syEos_eq_feEos ha ((accepting_congr rfl rfl rfl).trans ha) (sendEos_idle hm)
  case abort => exact exec_syEos_eq_feEos ha ((accepting_congr rfl rfl rfl).trans ha) (sendEos_abort hm)
  case inside =>
    have hshown : accepting { tap .eos s with frm := dropAssembly s.frm } = true :=
      (accepting_congr rfl rfl rfl).trans ha
    have hclosed := accepting_segmentEnd (zeroReport s.frm) hshown
    exact ⟨_, exec_next.2 ⟨hshown, rfl⟩,
      exec_syEos_eq_feEos ha ((accepting_congr rfl rfl rfl).trans hclosed) (sendEos_open hm)⟩
  case last => simp

end Sys2Proof.Claims
end

section
/-! The framer's rows: the bit that joins one, the bit that completes one, the chunk that a row completes,
and what the entry of a fault leaves. -/

namespace Sys2Proof.Machine

/-! ## The bits of a row (R189 to R191) -/

theorem exec_bit_collects {s : State} {b : Bool} (ha : accepting s = true) (hm : s.frm.mode = .synced)
    (hl : s.frm.rowbits.length ≠ 36) : exec (bitInstr b) s = .next (afterBits [b] s) := by
  rw [exec_bitInstr ha, sendBit_collect hm hl]

/-- The state once the 37th bit of a row is shown and counted and the row buffer emptied, before the row is
looked at (R190). -/
def rowCompleted (b : Bool) (s : State) : State :=
  { tap (bitSymbol b) s with frm := { counted s.frm with rowbits := [] } }

/-- The state in which a completed chunk is looked at: the row buffer and the chunk are emptied (R191). -/
def chunkCompleted (b : Bool) (s : State) : State :=
  { rowCompleted b s with frm := { counted s.frm with rowbits := [], rows := [] } }

/-- A row that begins otherwise raises the framing fault where it began (R190). -/
theorem exec_bit_badPrefix {s : State} {b : Bool} (ha : accepting s = true) (hm : s.frm.mode = .synced)
    (hl : s.frm.rowbits.length = 36) (hp : rowPrefix (completedRow b s.frm) ≠ framingPrefix) :
    exec (bitInstr b) s = .next (raiseFault
      (.framing (s.frm.segNo - 1) (15 * s.frm.chunkIndex + s.frm.rows.length) s.frm.rowStart)
      (rowCompleted b s)) := by
  have hne : s.frm.rowbits ≠ [] := List.ne_nil_of_length_eq_add_one hl
  rw [exec_bit_synced ha hm, rowBit_badPrefix (s := shownBit b s) hl hp]
  simp [rowCompleted, shownBit, collected, counted, hne]

theorem chunkDone_fail {p : Chunk} {s : State} {col : Fin 32} (h : eccResult s.rom p = .fail col) :
    chunkDone p s = .next (raiseFault (.ecc (s.frm.segNo - 1) s.frm.chunkIndex col)
      (reply (.result (.fail col)) { s with frm := { s.frm with rows := [] } })) := by
  simp [chunkDone, h]

theorem chunkDone_ok {p : Chunk} {s : State} {words : Words} {corr : Marks} {m : Int}
    (h : eccResult s.rom p = .ok words corr) (hm : s.frm.zeroMetric = some m) :
    chunkDone p s = .next
      { chunkOk s.frm.chunkIndex words corr m
          (reply (.result (.ok words corr)) { s with frm := { s.frm with rows := [] } }) with
        frm := { s.frm with rows := [], chunkIndex := s.frm.chunkIndex + 1 } } := by
  simp [chunkDone, h, hm, chunkOk_eq]

/-- The fifteen payloads of a chunk: those of the rows held and that of the completed row. -/
structure CompletesChunk (s : State) (b : Bool) (p : Chunk) : Prop where
  synced : s.frm.mode = .synced
  last_bit : s.frm.rowbits.length = 36
  good_row : rowPrefix (completedRow b s.frm) = framingPrefix
  payloads : p.toList = s.frm.rows ++ [rowPayload (completedRow b s.frm)]

/-- A chunk as the statements give it: by the first five bits of its last row, and by a payload that has the
other 32 (R97). -/
theorem completesChunk_of_bits {s : State} {b : Bool} {p : Chunk} {payload : Payload}
    (hm : s.frm.mode = .synced) (hl : s.frm.rowbits.length = 36)
    (hprefix : (s.frm.rowbits ++ [b]).take 5 = [true, true, true, false, true])
    (hpayload : ∀ k < 32, some (payload.getLsbD (31 - k)) = (s.frm.rowbits ++ [b])[5 + k]?)
    (hp : p.toList = s.frm.rows ++ [payload]) : CompletesChunk s b p := by
  have hlen : (s.frm.rowbits ++ [b]).length = 37 := by simp [hl]
  obtain rfl := eq_rowPayload hlen hpayload
  exact ⟨hm, hl, (rowPrefix_assembleRow hlen).2 hprefix, hp⟩

/-- The last bit of a chunk hands it to the decoder (R190, R191). -/
theorem exec_bit_chunk {s : State} {b : Bool} {p : Chunk} (ha : accepting s = true)
    (hc : CompletesChunk s b p) : exec (bitInstr b) s = chunkDone p
      { rowCompleted b s with frm := { counted s.frm with rowbits := [], rows := p.toList } } := by
  have hne : s.frm.rowbits ≠ [] := List.ne_nil_of_length_eq_add_one hc.last_bit
  rw [exec_bit_synced ha hc.synced, rowBit_chunk (s := shownBit b s) p hc.last_bit hc.good_row hc.payloads]
  simp [rowCompleted, shownBit, collected, counted, hne]

theorem exec_bit_badChunk {s : State} {b : Bool} {p : Chunk} {col : Fin 32} (ha : accepting s = true)
    (hc : CompletesChunk s b p) (hcol : eccResult s.rom p = .fail col) :
    exec (bitInstr b) s = .next (raiseFault (.ecc (s.frm.segNo - 1) s.frm.chunkIndex col)
      (reply (.result (.fail col)) (chunkCompleted b s))) :=
  (exec_bit_chunk ha hc).trans (chunkDone_fail hcol)

theorem exec_bit_goodChunk {s : State} {b : Bool} {p : Chunk} {words : Words} {corr : Marks} {m : Int}
    (ha : accepting s = true) (hc : CompletesChunk s b p) (hok : eccResult s.rom p = .ok words corr)
    (hm : s.frm.zeroMetric = some m) : exec (bitInstr b) s = .next
      { chunkOk s.frm.chunkIndex words corr m (reply (.result (.ok words corr)) (chunkCompleted b s)) with
        frm := { (chunkCompleted b s).frm with chunkIndex := s.frm.chunkIndex + 1 } } :=
  (exec_bit_chunk ha hc).trans (chunkDone_ok hok hm)

/-! ## What the entry of a fault leaves (R266) -/

section
variable (i : FaultInfo) (s : State)
@[simp] theorem raiseFault_cfg : (raiseFault i s).cfg = s.cfg := by simp [raiseFault_eq]
@[simp] theorem raiseFault_rom : (raiseFault i s).rom = s.rom := by simp [raiseFault_eq]
@[simp] theorem raiseFault_pending : (raiseFault i s).pending = s.pending := by simp [raiseFault_eq]
@[simp] theorem raiseFault_det : (raiseFault i s).det = s.det := by simp [raiseFault_eq]
@[simp] theorem raiseFault_cls : (raiseFault i s).cls = s.cls := by simp [raiseFault_eq]
@[simp] theorem raiseFault_rcv : (raiseFault i s).rcv = s.rcv := by simp [raiseFault_eq]
@[simp] theorem raiseFault_frm :
    (raiseFault i s).frm = { dropAssembly s.frm with mode := .abort } := by simp [raiseFault_eq]
@[simp] theorem raiseFault_emt : (raiseFault i s).emt = { s.emt with recOpen := false } := by
  simp [raiseFault_eq]
@[simp] theorem raiseFault_sts : (raiseFault i s).sts = setSticky i s.sts := by simp [raiseFault_eq]
@[simp] theorem raiseFault_syTap : (raiseFault i s).io.syTap = s.io.syTap := by simp [raiseFault_eq]
@[simp] theorem raiseFault_eccReply : (raiseFault i s).eccReply = s.eccReply := by simp [raiseFault_eq]
end

/-- With a metric the report is followed by the closing of the record, or by the metric (R244, R245). -/
theorem raiseFault_outs_metric {i : FaultInfo} {s : State} {m : Int} (hm : s.frm.zeroMetric = some m) :
    (raiseFault i s).io.outs =
      s.io.outs ++ [faultEvent i, if s.emt.recOpen = true then .recClose else .zeroRun m] := by
  rw [raiseFault_outs, zeroReport_metric hm, endEvents_some]

end Sys2Proof.Machine

namespace Sys2Proof.Claims
open Sys2Proof.Machine

/-- Settles O22: fewer than 37 bits complete no row. -/
theorem rowBitIsCollected : Obligations.RowBitIsCollected := by
  intro s b ha hm hl
  rw [exec_bit_collects ha hm hl.ne]
  simp [afterBits]

/-- Settles O24: the fault is raised once the row buffer is emptied, and the rest is what its entry leaves. -/
theorem badRowRaisesFramingFault : Obligations.BadRowRaisesFramingFault := by
  intro s b m ha hm hl hmetric hprefix
  have hlen : (s.frm.rowbits ++ [b]).length = 37 := by simp [hl]
  have hbad : rowPrefix (completedRow b s.frm) ≠ framingPrefix :=
    fun h => hprefix ((rowPrefix_assembleRow hlen).1 h)
  refine ⟨_, exec_bit_badPrefix ha hm hl hbad, raiseFault_frm _ _, raiseFault_sts _ _, raiseFault_emt _ _,
    raiseFault_outs_metric (s := rowCompleted b s) hmetric, raiseFault_syTap _ _,
    raiseFault_records_length _ _, readByte_raiseFault _ _, ?_⟩
  simp [rowCompleted]

/-- Settles O26: the fault is raised once the row buffer and the chunk are emptied and the decoder has
answered. -/
theorem badChunkRaisesEccFault : Obligations.BadChunkRaisesEccFault := by
  intro s b p payload m col ha hm hl _ hprefix hpayload hp hmetric hcol hleast
  have hc : CompletesChunk s b p := completesChunk_of_bits hm hl hprefix hpayload hp
  have hfail : eccResult s.rom p = .fail col := (eccResult_fail_iff ..).2 ⟨hcol, hleast⟩
  refine ⟨_, exec_bit_badChunk ha hc hfail, raiseFault_frm _ _, raiseFault_sts _ _, raiseFault_emt _ _,
    raiseFault_outs_metric (s := reply (.result (.fail col)) (chunkCompleted b s)) hmetric,
    raiseFault_records_length _ _, readByte_raiseFault _ _, ?_⟩
  simp [chunkCompleted, rowCompleted]

/-- Settles O25: the emitter takes the chunk in the state `handed`, and the framer then counts it. -/
theorem goodChunkIsEmitted : Obligations.GoodChunkIsEmitted := by
  intro s b p payload words corr m ha hm hl _ hprefix hpayload hp hmetric hok handed
  have hc : CompletesChunk s b p := completesChunk_of_bits hm hl hprefix hpayload hp
  have hhanded : accepting handed = true := (accepting_congr rfl rfl rfl).trans ha
  exact ⟨chunkOk s.frm.chunkIndex words corr m handed, exec_next.2 ⟨hhanded, rfl⟩,
    exec_bit_goodChunk ha hc hok hmetric⟩

end Sys2Proof.Claims
end

section
/-! The framer's hunt for the preamble: bit by bit, and over 128 bits received whole. -/

namespace Sys2Proof.Machine

/-! ## A bit that is hunted (R188) -/

/-- The framer once a bit is counted and stands in the window, before the window is looked at. -/
def hunted (b : Bool) (f : Framer) : Framer :=
  { f with
    symPos := f.symPos + 1
    zeroCount := if f.leading && !b then f.zeroCount + 1 else f.zeroCount
    leading := leadingAfter f.leading b
    window := push f.window 128 b }

/-- The framer that has recognised the preamble. -/
def synchronised (f : Framer) : Framer :=
  { f with
    mode := .synced, zeroMetric := some ((f.zeroCount : Int) - 25), rowbits := [], rows := [], window := [] }

/-- The window is looked at. -/
def recognise (pre : PreambleWord) (f : Framer) : Framer :=
  if f.window = bitsOf pre then synchronised f else f

theorem recognise_eq {pre : PreambleWord} {f : Framer} (h : f.window = bitsOf pre) :
    recognise pre f = synchronised f := if_pos h

theorem recognise_ne {pre : PreambleWord} {f : Framer} (h : f.window ≠ bitsOf pre) :
    recognise pre f = f := if_neg h

/-- `HuntBit`: the bit enters, and a window equal to the preamble has its 128 bits. -/
theorem huntBit_counted (pre : PreambleWord) (b : Bool) (f : Framer) :
    huntBit pre b (counted f) = recognise pre (hunted b f) := by
  by_cases h : push f.window 128 b = bitsOf pre
  · rw [recognise_eq (f := hunted b f) h]
    simp [huntBit, hunted, synchronised, counted, h]
  · rw [recognise_ne (f := hunted b f) h]
    simp [huntBit, hunted, counted, h]

theorem sendBit_hunted {s : State} (b : Bool) (hm : s.frm.mode = .hunt) : sendBit b s =
    .next { tap (bitSymbol b) s with frm := recognise s.rom.preamble (hunted b s.frm) } := by
  rw [sendBit_hunt hm, ← huntBit_counted]
  rfl

/-- A window is the preamble when it has its length and its bits (R101). -/
theorem eq_bitsOf_iff {w : Nat} (bs : List Bool) (v : BitVec w) :
    bs = bitsOf v ↔ bs.length = w ∧ ∀ k < w, bs[k]? = some (v.getMsbD k) := by
  constructor
  · rintro rfl
    exact ⟨bitsOf_length v, fun k hk => bitsOf_getElem? v hk⟩
  · rintro ⟨hlen, hbits⟩
    refine List.ext_getElem? fun k => ?_
    rcases Nat.lt_or_ge k w with hk | hk
    · rw [hbits k hk, bitsOf_getElem? v hk]
    · rw [List.getElem?_eq_none (hlen.trans_le hk), List.getElem?_eq_none ((bitsOf_length v).trans_le hk)]

/-! ## Bits hunted one after another (R188, R200) -/

/-- The window once bits have entered it. -/
def windowAfter (w bs : List Bool) : List Bool := bs.foldl (fun v b => push v 128 b) w

/-- The number of zeros a list of bits begins with. -/
def leadingZeros (bs : List Bool) : Nat := (bs.takeWhile fun b => !b).length

@[simp] theorem leadingZeros_zero_cons (bs : List Bool) :
    leadingZeros (false :: bs) = leadingZeros bs + 1 := by simp [leadingZeros]

@[simp] theorem leadingZeros_one_cons (bs : List Bool) : leadingZeros (true :: bs) = 0 := by
  simp [leadingZeros]

/-- The framer once bits have been hunted none of which completes the preamble. -/
def huntedAll (bs : List Bool) (f : Framer) : Framer :=
  { f with
    symPos := f.symPos + bs.length
    zeroCount := if f.leading then f.zeroCount + leadingZeros bs else f.zeroCount
    leading := f.leading && decide (leadingZeros bs = bs.length)
    window := windowAfter f.window bs }

theorem huntedAll_nil (f : Framer) : huntedAll [] f = f := by
  simp [huntedAll, leadingZeros, windowAfter]

/-- They enter one by one, and the first one among them ends the leading run. -/
theorem huntedAll_cons (b : Bool) (bs : List Bool) (f : Framer) :
    huntedAll (b :: bs) f = huntedAll bs (hunted b f) := by
  have hpos : f.symPos + (bs.length + 1) = f.symPos + 1 + bs.length := by omega
  have hcount : f.zeroCount + (leadingZeros bs + 1) = f.zeroCount + 1 + leadingZeros bs := by omega
  cases b with
  | false => cases hl : f.leading <;> simp [huntedAll, hunted, leadingAfter, windowAfter, hl, hpos, hcount]
  | true => simp [huntedAll, hunted, leadingAfter, windowAfter, hpos]

theorem huntedAll_concat (bs : List Bool) (b : Bool) (f : Framer) :
    huntedAll (bs ++ [b]) f = hunted b (huntedAll bs f) := by
  induction bs generalizing f with
  | nil => rw [List.nil_append, huntedAll_cons, huntedAll_nil, huntedAll_nil]
  | cons a bs ih => rw [List.cons_append, huntedAll_cons, huntedAll_cons, ih]

/-- The tap shows the bits and the framer is `f`. -/
def shownBits (bs : List Bool) (f : Framer) (s : State) : State :=
  { s with frm := f, io := { s.io with syTap := s.io.syTap ++ bs.map bitSymbol } }

/-- Bits of which none completes the preamble are only hunted. -/
theorem sendBits_missed {bs : List Bool} {s : State} (hm : s.frm.mode = .hunt)
    (h : ∀ k ≤ bs.length, windowAfter s.frm.window (bs.take k) ≠ bitsOf s.rom.preamble) :
    sendBits bs s = .next (shownBits bs (huntedAll bs s.frm) s) := by
  induction bs generalizing s with
  | nil => simp [sendBits, shownBits, huntedAll_nil]
  | cons b bs ih =>
    have hfirst : (hunted b s.frm).window ≠ bitsOf s.rom.preamble := h 1 (by simp)
    have hrest := ih (s := { tap (bitSymbol b) s with frm := hunted b s.frm }) hm
      fun k hk => h (k + 1) (Nat.succ_le_succ hk)
    rw [sendBits_cons, sendBit_hunted b hm, recognise_ne hfirst]
    refine ⟨_, rfl, hrest.trans ?_⟩
    simp [shownBits, tap, huntedAll_cons]

/-- After bits that only came in, the window is looked at once more with the last. -/
theorem sendBits_hunted {bs : List Bool} {b : Bool} {s : State} (hm : s.frm.mode = .hunt)
    (h : ∀ k ≤ bs.length, windowAfter s.frm.window (bs.take k) ≠ bitsOf s.rom.preamble) :
    sendBits (bs ++ [b]) s = .next (shownBits (bs ++ [b])
      (recognise s.rom.preamble (huntedAll (bs ++ [b]) s.frm)) s) := by
  rw [sendBits_append_of_next (sendBits_missed hm h), sendBits_singleton, huntedAll_concat,
    sendBit_hunted (s := shownBits bs (huntedAll bs s.frm) s) b hm]
  simp [shownBits, tap]

/-! ## The window over a whole preamble (R101, R205) -/

/-- A bit pushed onto the last 128 bits of a list leaves the last 128 of the longer list. -/
theorem push_last_bits (l : List Bool) (b : Bool) :
    push (l.drop (l.length - 128)) 128 b = (l ++ [b]).drop (l.length + 1 - 128) := by
  rw [push_eq, List.length_drop, ← List.drop_append_of_le_length (Nat.sub_le ..)]
  split
  · rw [← List.drop_one, List.drop_drop]
    exact congrArg (fun n => (l ++ [b]).drop n) (by omega)
  · exact congrArg (fun n => (l ++ [b]).drop n) (by omega)

/-- The window holds the last 128 bits. -/
theorem windowAfter_eq_drop {w : List Bool} (bs : List Bool) (hw : w.length ≤ 128) :
    windowAfter w bs = (w ++ bs).drop (w.length + bs.length - 128) := by
  induction bs using List.reverseRecOn with
  | nil => rw [List.length_nil, Nat.add_zero, Nat.sub_eq_zero_of_le hw, List.append_nil]; rfl
  | append_singleton bs b ih =>
    have hpush : windowAfter w (bs ++ [b]) = push (windowAfter w bs) 128 b := by simp [windowAfter]
    rw [hpush, ih, ← List.length_append, push_last_bits, List.append_assoc, List.length_append,
      List.length_append, List.length_singleton, Nat.add_assoc]

/-- After 128 bits it holds these. -/
theorem windowAfter_whole {w bs : List Bool} (hw : w.length ≤ 128) (hbs : bs.length = 128) :
    windowAfter w bs = bs := by
  rw [windowAfter_eq_drop bs hw, hbs, Nat.add_sub_cancel]
  exact List.drop_left

/-- It grows from empty until it is full. -/
theorem windowAfter_nil {bs : List Bool} (h : bs.length ≤ 128) : windowAfter [] bs = bs := by
  rw [windowAfter_eq_drop bs (by simp), List.nil_append, List.length_nil, Nat.zero_add,
    Nat.sub_eq_zero_of_le h, List.drop_zero]

/-- Bit 25 of a window of leading zeros and `k < 128` bits of the preamble is one of the 25 zeros it begins
with, or one of the leader's. -/
theorem windowAfter_leader_ne {p : PreambleWord} (hp : PreambleLeads p) {n k : Nat} (hn : n ≤ 128)
    (hk : k < 128) : windowAfter (List.replicate n false) ((bitsOf p).take k) ≠ bitsOf p := by
  obtain ⟨hzeros, hone⟩ := hp
  intro h
  have hlen : (bitsOf p).length = 128 := bitsOf_length p
  have hfull := congrArg List.length h
  have hbit := congrArg (·[25]?) h
  rw [windowAfter_eq_drop _ (by simpa using hn)] at hfull hbit
  simp only [List.getElem?_drop, bitsOf_getElem? p (show 25 < 128 by omega), hone] at hbit
  simp only [List.length_drop, List.length_append, List.length_replicate, List.length_take, hlen,
    Nat.min_eq_left hk.le] at hfull hbit
  rcases Nat.lt_or_ge (n + k - 128 + 25) n with hi | hi
  · rw [List.getElem?_append_left (by simpa using hi)] at hbit
    simp [hi] at hbit
  · rw [List.getElem?_append_right (by simpa using hi), List.length_replicate,
      List.getElem?_take_of_lt (by omega), bitsOf_getElem? p (by omega), hzeros _ (by omega)] at hbit
    simp at hbit

/-- A preamble as in R205 begins with 25 zeros. -/
theorem leadingZeros_preamble {p : PreambleWord} (hp : PreambleLeads p) : leadingZeros (bitsOf p) = 25 := by
  obtain ⟨hzeros, hone⟩ := hp
  have hlen : 25 < (bitsOf p).length := by simp
  have hbits : ∀ k (h : k < (bitsOf p).length), (bitsOf p)[k] = p.getMsbD k := by simp [bitsOf]
  have hfirst : (bitsOf p).findIdx (fun b => b) = 25 := by
    rw [List.findIdx_eq hlen]
    refine ⟨(hbits 25 _).trans hone, fun k hk => ?_⟩
    exact (hbits k _).trans (hzeros k hk)
  rw [leadingZeros, List.takeWhile_eq_take_findIdx_not]
  simp [hfirst]

theorem bitsOf_injective {w : Nat} {u v : BitVec w} (h : bitsOf u = bitsOf v) : u = v := by
  refine BitVec.eq_of_getMsbD_eq fun k hk => Option.some.inj ?_
  rw [← bitsOf_getElem? u hk, h, bitsOf_getElem? v hk]

/-- The framer once 128 bits have been hunted that fill the window with themselves. -/
def huntedWhole (bits : PreambleWord) (f : Framer) : Framer :=
  { f with
    symPos := f.symPos + 128
    zeroCount := if f.leading then f.zeroCount + leadingZeros (bitsOf bits) else f.zeroCount
    leading := f.leading && decide (leadingZeros (bitsOf bits) = 128)
    window := bitsOf bits }

theorem huntedAll_whole (bits : PreambleWord) {f : Framer} (hw : f.window.length ≤ 128) :
    huntedAll (bitsOf bits) f = huntedWhole bits f := by
  simp only [huntedAll, huntedWhole, bitsOf_length, windowAfter_whole hw]

/-- While no earlier window is the preamble, 128 bits fill the window, which is then looked at. -/
theorem exec_preamble_hunted {s : State} {bits : PreambleWord} (ha : accepting s = true)
    (hm : s.frm.mode = .hunt) (hw : s.frm.window.length ≤ 128)
    (h : ∀ k < 128, windowAfter s.frm.window ((bitsOf bits).take k) ≠ bitsOf s.rom.preamble) :
    exec (.preamble bits) s = .next
      (shownBits (bitsOf bits) (recognise s.rom.preamble (huntedWhole bits s.frm)) s) := by
  obtain ⟨bs, b, hbits⟩ : ∃ bs b, bitsOf bits = bs ++ [b] :=
    ⟨_, _, (List.dropLast_concat_getLast (List.ne_nil_of_length_eq_add_one (bitsOf_length bits))).symm⟩
  have hlen : bs.length = 127 := by simpa using (congrArg List.length hbits).symm
  have hmissed : ∀ k ≤ bs.length, windowAfter s.frm.window (bs.take k) ≠ bitsOf s.rom.preamble := by
    intro k hk
    rw [← List.take_append_of_le_length hk (l₂ := [b]), ← hbits]
    exact h k (by omega)
  rw [exec_accepting ha, ruleOf, hbits, sendBits_hunted hm hmissed, ← hbits, huntedAll_whole bits hw]

theorem exec_preamble_found {s : State} {bits : PreambleWord} (ha : accepting s = true)
    (hm : s.frm.mode = .hunt) (hw : s.frm.window.length ≤ 128) (heq : bits = s.rom.preamble)
    (h : ∀ k < 128, windowAfter s.frm.window ((bitsOf bits).take k) ≠ bitsOf bits) :
    exec (.preamble bits) s =
      .next (shownBits (bitsOf bits) (synchronised (huntedWhole bits s.frm)) s) := by
  rw [exec_preamble_hunted ha hm hw (heq ▸ h), recognise_eq (congrArg bitsOf heq)]

/-- An empty window is not full before the last of them. -/
theorem windowAfter_nil_ne {p : PreambleWord} (bits : PreambleWord) {k : Nat} (hk : k < 128) :
    windowAfter [] ((bitsOf bits).take k) ≠ bitsOf p := by
  intro h
  have hlen : ((bitsOf bits).take k).length = k := by simp [hk.le]
  rw [windowAfter_nil (by omega)] at h
  have := congrArg List.length h
  rw [hlen, bitsOf_length] at this
  omega

end Sys2Proof.Machine

namespace Sys2Proof.Claims
open Sys2Proof.Machine

/-- Settles O21: the bit enters, and the window is compared with the preamble bit by bit. -/
theorem huntedBit : Obligations.HuntedBit := by
  intro s b ha hm count window counted shown recognised
  have hframer : hunted b s.frm = counted := by
    simp [hunted, leadingAfter, push_eq, counted, count, window]
  have hiff : counted.window = bitsOf s.rom.preamble ↔ recognised := eq_bitsOf_iff ..
  rw [exec_bitInstr ha, sendBit_hunted b hm, hframer]
  refine ⟨fun h => ?_, fun h => ?_⟩
  · rw [recognise_eq (hiff.2 h)]
    rfl
  · rw [recognise_ne (mt hiff.1 h)]
    rfl

/-- Settles O48: no window but the last can be the preamble, and the last is the 128 bits. -/
theorem preambleSynchronises : Obligations.PreambleSynchronises := by
  intro s bits ha hm received zeros shown count counted found
  refine ⟨fun hw hne => ?other, fun hw heq => ?empty, fun leader hlead hcount hw heq hp => ?leader⟩
  case other =>
    have hdiffers : (huntedWhole bits s.frm).window ≠ bitsOf s.rom.preamble :=
      fun h => hne (bitsOf_injective h)
    rw [exec_preamble_hunted ha hm (by simp [hw]) fun k hk => hw ▸ windowAfter_nil_ne bits hk,
      recognise_ne hdiffers]
    rfl
  case empty =>
    exact exec_preamble_found ha hm (by simp [hw]) heq fun k hk => hw ▸ windowAfter_nil_ne bits hk
  case leader =>
    have hzeros : zeros = 25 := leadingZeros_preamble hp
    refine ⟨exec_preamble_found ha hm (by simp [hw]) heq fun k hk => ?_, ?_⟩
    · exact hw ▸ windowAfter_leader_ne hp (Nat.min_le_right ..) hk
    · simp [found, count, hlead, hcount, hzeros]

end Sys2Proof.Claims
end

section
/-! The ECC table and the chunks it decodes: the table as its three passes leave it, its three kinds of
entry by distance, and what it delivers under the two hypotheses on the minimum distance. -/

namespace Sys2Proof.Machine

/-! ## The two halves of a data word (R215) -/

/-- The tables are indexed by the five bits from 5 upwards and by the five bits below them. -/
theorem syndrome_halves (rom : Rom) (d : DataWord) :
    ∃ hi lo : Syndrome, rom.highSyndrome[(d.extractLsb' 5 5).toNat]? = some hi ∧
      rom.lowSyndrome[(d.extractLsb' 0 5).toNat]? = some lo ∧ syndrome rom d = hi ^^^ lo := by
  refine ⟨_, _, Vector.getElem?_eq_getElem (BitVec.isLt _), Vector.getElem?_eq_getElem (BitVec.isLt _), ?_⟩
  simp [syndrome, BitVec.extractLsb'_toNat, Nat.shiftRight_eq_div_pow]

/-! ## The codes near a word (R218) -/

/-- Of the codes at distance 1, if there are any, one has the greatest data value. -/
theorem nearest_or_alone (rom : Rom) (x : Codeword) :
    (∃ d, distance (encodeData rom d) x = 1 ∧ ∀ e, distance (encodeData rom e) x = 1 → e ≤ d) ∨
      ∀ d, distance (encodeData rom d) x ≠ 1 := by
  simp only [ne_eq, ← mem_neighbours_iff]
  cases h : greatest (neighbours rom x) with
  | some d => exact .inl ⟨d, (greatest_eq_some_iff _ _).1 h⟩
  | none => exact .inr (List.eq_nil_iff_forall_not_mem.1 ((greatest_eq_none_iff _).1 h))

theorem two_le_distance_iff (x y : Codeword) : 2 ≤ distance x y ↔ distance x y ≠ 1 ∧ y ≠ x := by
  rw [ne_comm (a := y), ne_eq (a := x), ← distance_eq_zero_iff]
  omega

/-! ## The table as its passes leave it (R217) -/

theorem allData_increasing : allData.Pairwise (· < ·) := by
  refine List.pairwise_map.2 (List.pairwise_lt_range.imp_of_mem ?_)
  intro i j hi hj hij
  rw [List.mem_range] at hi hj
  simpa [BitVec.lt_def, Nat.mod_eq_of_lt hi, Nat.mod_eq_of_lt hj] using hij

/-- Data values whose codes are not at distance 1 leave an entry as it is. -/
theorem foldl_markNeighbours_alone (rom : Rom) {ds : List DataWord} {x : Codeword}
    (h : ∀ d ∈ ds, distance (encodeData rom d) x ≠ 1) (t : Codeword → EccEntry) :
    ds.foldl (markNeighbours rom) t x = t x := by
  induction ds generalizing t with
  | nil => rfl
  | cons d ds ih =>
    obtain ⟨hd, hds⟩ := List.forall_mem_cons.1 h
    rw [List.foldl_cons, ih hds, markNeighbours_apply, if_neg hd]

/-- The greatest data value at distance 1 writes last. -/
theorem buildTable_corrected (rom : Rom) {x : Codeword} {d : DataWord}
    (hd : distance (encodeData rom d) x = 1)
    (hge : ∀ e, distance (encodeData rom e) x = 1 → e ≤ d) :
    buildTable rom x = .corrected (encodeData rom d) := by
  obtain ⟨before, after, hsplit⟩ := List.append_of_mem (mem_allData d)
  have hlater : ∀ e ∈ after, d < e := by
    have hincreasing := allData_increasing
    rw [hsplit, List.pairwise_append, List.pairwise_cons] at hincreasing
    obtain ⟨-, ⟨hlater, -⟩, -⟩ := hincreasing
    exact hlater
  have hafter : ∀ e ∈ after, distance (encodeData rom e) x ≠ 1 := fun e he h1 =>
    BitVec.not_lt.2 (hge e h1) (hlater e he)
  rw [buildTable, hsplit, List.foldl_append, List.foldl_cons, foldl_markNeighbours_alone rom hafter,
    markNeighbours_apply, if_pos hd]

/-- With no code at distance 1 the entry is what the first two passes leave. -/
theorem buildTable_alone (rom : Rom) {x : Codeword} (h : ∀ d, distance (encodeData rom d) x ≠ 1) :
    buildTable rom x = if isCodeword rom x then .valid else .unrecoverable := by
  rw [buildTable, foldl_markNeighbours_alone rom fun d _ => h d, foldl_markValid]
  simp only [mem_allData, true_and, isCodeword_iff]

theorem eccEntry_eq_buildTable (rom : Rom) (x : Codeword) : eccEntry rom x = buildTable rom x := by
  rcases nearest_or_alone rom x with ⟨d, hd, hge⟩ | halone
  · rw [eccEntry_corrected rom hd hge, buildTable_corrected rom hd hge]
  · rw [eccEntry_alone rom halone, buildTable_alone rom halone]

/-! ## The kinds of entry by distance (R224) -/

theorem eccEntry_eq_unrecoverable_iff (rom : Rom) (x : Codeword) :
    eccEntry rom x = .unrecoverable ↔ ∀ d, 2 ≤ distance (encodeData rom d) x := by
  simp only [two_le_distance_iff, forall_and]
  rcases nearest_or_alone rom x with ⟨d, hd, hge⟩ | halone
  · simp only [eccEntry_corrected rom hd hge, reduceCtorEq, false_iff]
    exact fun hfar => hfar.1 d hd
  · have hcode : isCodeword rom x = false ↔ ∀ d, x ≠ encodeData rom d := by
      rw [← Bool.not_eq_true, isCodeword_iff, not_exists]
    rw [eccEntry_alone rom halone, ← hcode]
    simp [halone]

/-! ## Entries under the hypotheses on the minimum distance (R225, R226) -/

theorem MinDistanceThree.two {rom : Rom} (h : MinDistanceThree rom) : MinDistanceTwo rom :=
  fun d d' hne => Nat.le_of_succ_le (h d d' hne)

theorem popcount_xor_le (x y : Codeword) : popcount (x ^^^ y) ≤ popcount x + popcount y := by
  have hbit : ∀ a b : Bool, (if (a ^^ b) then 1 else 0) ≤ (if a then 1 else 0) + (if b then 1 else 0) := by
    decide
  unfold popcount
  induction List.range 15 with
  | nil => simp
  | cons i is ih =>
    simp only [List.countP_cons, BitVec.getLsbD_xor]
    exact (Nat.add_le_add ih (hbit _ _)).trans_eq (Nat.add_add_add_comm ..)

theorem distance_triangle (x y z : Codeword) : distance x z ≤ distance x y + distance y z := by
  have hvia : x ^^^ z = (x ^^^ y) ^^^ (y ^^^ z) := by
    rw [BitVec.xor_assoc, ← BitVec.xor_assoc y y, BitVec.xor_self, BitVec.zero_xor]
  exact (congrArg popcount hvia).trans_le (popcount_xor_le _ _)

theorem distance_flip (x : Codeword) {b : Nat} (hb : b < 15) : distance x (x ^^^ oneBit b) = 1 := by
  rw [distance_comm, distance_eq_one_iff]
  exact ⟨b, hb, rfl⟩

/-- Under H1 no code is a neighbour of another, so a code stands for itself. -/
theorem eccEntry_encodeData {rom : Rom} (h : MinDistanceTwo rom) (d : DataWord) :
    eccEntry rom (encodeData rom d) = .valid := by
  have halone : ∀ e, distance (encodeData rom e) (encodeData rom d) ≠ 1 := by
    intro e
    rcases eq_or_ne e d with rfl | hne
    · simp [(distance_eq_zero_iff _ _).2 rfl]
    · have := h e d hne
      omega
  rw [eccEntry_alone rom halone, if_pos ((isCodeword_iff ..).2 ⟨d, rfl⟩)]

/-- Under H2 a code with a flipped bit has no other neighbour, by the triangle inequality. -/
theorem eccEntry_encodeData_flip {rom : Rom} (h : MinDistanceThree rom) (d : DataWord) {b : Nat}
    (hb : b < 15) :
    eccEntry rom (encodeData rom d ^^^ oneBit b) = .corrected (encodeData rom d) := by
  have hflip := distance_flip (encodeData rom d) hb
  refine eccEntry_corrected rom hflip fun e he => ?_
  rcases eq_or_ne e d with rfl | hne
  · exact BitVec.le_refl _
  · have hfar := h e d hne
    have hvia := distance_triangle (encodeData rom e) (encodeData rom d ^^^ oneBit b) (encodeData rom d)
    rw [he, distance_comm (_ ^^^ _), hflip] at hvia
    omega

/-! ## A chunk, column by column (R219, R222) -/

theorem eq_byColumn_iff {α : Type} (v : Vector α 32) (f : Fin 32 → α) :
    v = byColumn f ↔ ∀ j : Fin 32, v[j] = f j := by
  refine ⟨?_, fun h => Vector.ext fun i hi => (h ⟨i, hi⟩).trans (byColumn_get f ⟨i, hi⟩).symm⟩
  rintro rfl j
  exact byColumn_get f j

/-- A column that delivers a word: it is recoverable, its codeword or its correction holds the word, and
it is marked as said. -/
def Delivers (rom : Rom) (p : Chunk) (j : Fin 32) (d : DataWord) (mark : Bool) : Prop :=
  columnEntry rom p j ≠ .unrecoverable ∧
    d = dataOf (deliveredCodeword (codewordOf p j) (columnEntry rom p j)) ∧
    mark = isCorrected (columnEntry rom p j)

theorem eccResult_ok_iff_delivers (rom : Rom) (p : Chunk) (w : Words) (corr : Marks) :
    eccResult rom p = .ok w corr ↔ ∀ j : Fin 32, Delivers rom p j w[j] corr[j] := by
  simp only [eccResult_ok_iff, decodedWords, decodedMarks, eq_byColumn_iff, Delivers, forall_and]

theorem delivers_encodeData {rom : Rom} {p : Chunk} {j : Fin 32} {d : DataWord} (h : MinDistanceTwo rom)
    (hcol : codewordOf p j = encodeData rom d) : Delivers rom p j d false := by
  have hentry : columnEntry rom p j = .valid := by rw [columnEntry, hcol, eccEntry_encodeData h]
  simp [Delivers, hentry, deliveredCodeword, isCorrected, hcol, dataOf_encodeData]

theorem delivers_encodeData_flip {rom : Rom} {p : Chunk} {j : Fin 32} {d : DataWord} {b : Nat}
    (h : MinDistanceThree rom) (hb : b < 15) (hcol : codewordOf p j = encodeData rom d ^^^ oneBit b) :
    Delivers rom p j d true := by
  have hentry : columnEntry rom p j = .corrected (encodeData rom d) := by
    rw [columnEntry, hcol, eccEntry_encodeData_flip h d hb]
  simp [Delivers, hentry, deliveredCodeword, isCorrected, dataOf_encodeData]

end Sys2Proof.Machine

namespace Sys2Proof.Claims
open Sys2Proof.Machine

/-- Settles O32: the codeword is its two fields, the data word below its syndrome. -/
theorem encodingKeepsTheData : Obligations.EncodingKeepsTheData := by
  intro rom d
  obtain ⟨hi, lo, hhi, hlo, hsyn⟩ := syndrome_halves rom d
  refine ⟨?_, ⟨hi, lo, hhi, hlo, (syndromeOf_encodeData rom d).trans hsyn⟩,
    fun d' => encodeData_injective rom⟩
  rw [← dataOf_eq_extract, dataOf_encodeData]

/-- Settles O33: the second pass writes an entry last for the greatest data value at distance 1, and
leaves to the first an entry that has none. -/
theorem eccTableIsAsBuilt : Obligations.EccTableIsAsBuilt := by
  intro rom x
  refine ⟨eccEntry_eq_buildTable rom x, fun d => buildTable_corrected rom, fun halone hcode => ?valid,
    fun halone hnot => ?unrecoverable⟩
  case valid => rw [buildTable_alone rom halone, if_pos ((isCodeword_iff ..).2 hcode)]
  case unrecoverable =>
    rw [buildTable_alone rom halone, if_neg (mt (isCodeword_iff ..).1 (not_exists.2 hnot))]

/-- Settles O34: an entry with a code at distance 1 is corrected to the greatest such, and one with none
is unrecoverable unless it is a code. -/
theorem eccTableProperties : Obligations.EccTableProperties := by
  refine fun rom => ⟨fun d b hb => ?neighbour, fun x c h => ?corrected, eccEntry_eq_unrecoverable_iff rom⟩
  case neighbour =>
    rcases nearest_or_alone rom (encodeData rom d ^^^ oneBit b) with ⟨d', hd', hge⟩ | halone
    · exact ⟨d', hd', eccEntry_corrected rom hd' hge⟩
    · exact absurd (distance_flip _ hb) (halone d)
  case corrected =>
    obtain ⟨d, rfl, hd, -⟩ := eccEntry_eq_corrected rom h
    exact ⟨d, rfl, hd⟩

/-- Settles O36: under H1 every column is a valid entry. -/
theorem roundTripWithoutErrors : Obligations.RoundTripWithoutErrors := by
  intro rom p w hmin hcols
  rw [eccResult_ok_iff_delivers]
  intro j
  simpa using delivers_encodeData hmin (hcols j)

/-- Settles O37: under H2 the flipped column is corrected to its own code, and the others are valid. -/
theorem singleBitErrorIsCorrected : Obligations.SingleBitErrorIsCorrected := by
  intro rom p w col b hmin hb hothers hcol
  refine ⟨byColumn fun j => decide (j = col), (eccResult_ok_iff_delivers ..).2 fun j => ?_, byColumn_get _⟩
  rw [byColumn_get]
  rcases eq_or_ne j col with rfl | hne
  · simpa using delivers_encodeData_flip hmin hb hcol
  · simpa [hne] using delivers_encodeData hmin.two (hothers j hne)

end Sys2Proof.Claims
end

section
/-! The record emitter (spec 45): a decoded chunk, the end of a segment, the reports of the two faults and
the end of the run. -/

namespace Sys2Proof.Machine

/-! ## A decoded chunk (R240, R241, R243) -/

/-- Opening a record uses up its number; an open one keeps it (R241). -/
theorem openedEmitter_recNo (e : Emitter) :
    (openedEmitter e).recNo = if e.recOpen = true then e.recNo else e.recNo + 1 := by
  unfold openedEmitter
  split <;> rfl

/-- One report for each marked column, in column order (R243). -/
theorem correctionEvents_eq_map (chunk : Nat) (corr : Marks) :
    ∃ cols : List (Fin 32), cols.Pairwise (· < ·) ∧ (∀ j, j ∈ cols ↔ corr[j] = true) ∧
      correctionEvents chunk corr = cols.map (OutEvent.corrected chunk) :=
  ⟨(List.finRange 32).filter fun j => corr[j], (List.pairwise_lt_finRange 32).filter _, by simp, rfl⟩

/-! ## The end of a segment (R244) -/

/-- With no record open and nothing to report, a segment ends without a trace. -/
theorem segmentEnd_nothing {s : State} (h : s.emt.recOpen = false) : segmentEnd none s = s := by
  simp [segmentEnd, h]

/-- The manifest takes the reported zero run, and no line from the closing of a record. -/
theorem segmentEnd_manifest (z : Option Int) (s : State) : (segmentEnd z s).io.manifest =
    s.io.manifest ++ (endEvents s.emt.recOpen z).flatMap linesOf := by
  simp [segmentEnd_eq]

/-! ## The reports of the faults (R245, R246) -/

/-- The instruction of the `FE` channel that reports a fault. -/
def faultInstr : FaultInfo → Option Int → Instr
  | .framing seg row off, z => .feFaultFraming seg row off z
  | .ecc seg chunk col, z => .feFaultEcc seg chunk col z

theorem ruleOf_faultInstr (i : FaultInfo) (z : Option Int) :
    ruleOf (faultInstr i z) = fun s => .next (reportFault i z s) := by
  cases i <;> rfl

/-- The report of a fault writes no space: it only joins the stream. -/
theorem emit_faultEvent (i : FaultInfo) (s : State) :
    emit (faultEvent i) s = { s with io := { s.io with outs := s.io.outs ++ [faultEvent i] } } := by
  cases i <;> exact emit_of_spaces_stand rfl rfl

/-- The report leaves the block taking tokens. -/
theorem accepting_faultEvent {s : State} (i : FaultInfo) (ha : accepting s = true) :
    accepting (emit (faultEvent i) s) = true :=
  accepting_of_outs_append ha rfl rfl (emit_io_outs _ s) (by cases i <;> simp [faultEvent])

/-- Reporting a fault is the end of the segment in the state that has the report. -/
theorem exec_faultInstr {s : State} (ha : accepting s = true) (i : FaultInfo) (z : Option Int) :
    exec (faultInstr i z) s =
      exec (.feSegEnd z) { s with io := { s.io with outs := s.io.outs ++ [faultEvent i] } } := by
  rw [← emit_faultEvent, exec_accepting ha, exec_accepting (accepting_faultEvent i ha), ruleOf_faultInstr]
  rfl

/-- It completes with no record open, and leaves the status to the raiser (R266). -/
theorem faultInstr_completes {s : State} (ha : accepting s = true) (i : FaultInfo) (z : Option Int) :
    ∃ t, exec (faultInstr i z) s = .next t ∧ t.emt.recOpen = false ∧ t.sts = s.sts := by
  refine ⟨reportFault i z s, exec_next.2 ⟨ha, by rw [ruleOf_faultInstr]⟩, ?_, ?_⟩ <;> simp [reportFault]

/-! ## The end of the run (R247, R296) -/

theorem endOfRun_eq (s : State) :
    endOfRun s = { s with io := { s.io with outs := s.io.outs ++ [.endRun] } } :=
  emit_of_spaces_stand rfl rfl

/-- Once `OUT.END` is the last event, every token is refused. -/
theorem exec_after_end {s : State} (h : s.io.outs.getLast? = some .endRun) (i : Instr) :
    exec i s = .refused .tokenAfterEos := by
  rw [exec_eq_present]
  simp [present, ended, h]

end Sys2Proof.Machine

namespace Sys2Proof.Claims
open Sys2Proof.Machine

/-- Settles O38: the three parts of `chunkEvents` are those of R240. -/
theorem chunkEventsInOrder : Obligations.ChunkEventsInOrder := by
  intro s chunk words corr metric ha
  refine ⟨chunkOk chunk words corr metric s, correctionEvents chunk corr, byteEvents words,
    exec_next.2 ⟨ha, rfl⟩, ?order, correctionEvents_eq_map chunk corr, byteEvents_length words,
    fun j => ?bytes, ?isOpen, ?number, ?rest⟩
  case order =>
    rw [chunkOk_outs, chunkEvents, ← List.append_assoc, ← List.append_assoc]
    rfl
  case bytes =>
    rw [← highByte_eq, ← lowByte_eq]
    exact byteEvents_getElem? words j
  case isOpen => simp [chunkOk_eq]
  case number => simp [chunkOk_eq, openedEmitter_recNo]
  case rest => simp [chunkOk_eq]

/-- Settles O40: the three cases of R244 are those of `endEvents`. -/
theorem segmentEndReports : Obligations.SegmentEndReports := by
  intro s z ha
  refine ⟨segmentEnd z s, exec_next.2 ⟨ha, rfl⟩, segmentEnd_emt z s, fun hopen => ?closed,
    fun hopen n hz => ?reported, fun hopen hz => ?nothing, readByte_segmentEnd z s, ?rest⟩
  case closed => simp [segmentEnd_manifest, hopen, endEvents, linesOf]
  case reported => simp [segmentEnd_manifest, hopen, hz, endEvents, linesOf]
  case nothing => rw [hz, segmentEnd_nothing hopen]
  case rest => simp

/-- Settles O41: both reports are `faultInstr`. -/
theorem faultReportsThenSegmentEnd : Obligations.FaultReportsThenSegmentEnd := by
  intro s z ha
  have report (i : FaultInfo) := And.intro (exec_faultInstr ha i z) (faultInstr_completes ha i z)
  exact ⟨fun seg row off => report (.framing seg row off), fun seg chunk col => report (.ecc seg chunk col)⟩

/-- Settles O42: `OUT.END` is then the last event of the stream. -/
theorem endOfRunIsLast : Obligations.EndOfRunIsLast := by
  intro s ha
  exact ⟨endOfRun s, exec_next.2 ⟨ha, rfl⟩, endOfRun_eq s, exec_after_end (by simp)⟩

end Sys2Proof.Claims
end

section
/-! The reports of faults (spec 60): the segment numbers that the stream's reports carry, how a symbol of
the `SY` channel adds to them, and the two statements on them. -/

namespace Sys2Proof.Machine

/-! ## The segments that a stream reports (R260 to R262) -/

/-- The segment numbers of the reports of faults in a stream, in their order. -/
def reportedSegments (es : List OutEvent) : List Nat := es.filterMap faultSegment

@[simp] theorem reportedSegments_nil : reportedSegments [] = [] := rfl

@[simp] theorem reportedSegments_append (es fs : List OutEvent) :
    reportedSegments (es ++ fs) = reportedSegments es ++ reportedSegments fs :=
  List.filterMap_append

/-- The reports of faults are the events that carry a segment number. -/
theorem isFaultReport_eq (e : OutEvent) : isFaultReport e = (faultSegment e).isSome := by
  cases e <;> rfl

theorem length_reportedSegments (es : List OutEvent) :
    (reportedSegments es).length = (es.filter isFaultReport).length := by
  simp only [reportedSegments, List.length_filterMap_eq_countP, List.countP_eq_length_filter,
    ← isFaultReport_eq]

theorem reportedSegments_eq_nil {es : List OutEvent} (h : es.filter isFaultReport = []) :
    reportedSegments es = [] := by
  rw [← List.length_eq_zero_iff, length_reportedSegments, h, List.length_nil]

@[simp] theorem reportedSegments_endEvents (o : Bool) (z : Option Int) :
    reportedSegments (endEvents o z) = [] := reportedSegments_eq_nil (endEvents_no_fault o z)

theorem reportedSegments_chunkOk (k : Nat) (words : Words) (corr : Marks) (m : Int) (s : State) :
    reportedSegments (chunkOk k words corr m s).io.outs = reportedSegments s.io.outs := by
  rw [chunkOk_outs, reportedSegments_append, reportedSegments_eq_nil (chunkEvents_no_fault ..), List.append_nil]

theorem reportedSegments_segmentEnd (z : Option Int) (s : State) :
    reportedSegments (segmentEnd z s).io.outs = reportedSegments s.io.outs := by
  rw [segmentEnd_outs, reportedSegments_append, reportedSegments_endEvents, List.append_nil]

theorem reportedSegments_segTerminate (s : State) :
    reportedSegments (segTerminate s).io.outs = reportedSegments s.io.outs := by
  rw [segTerminate_eq]
  exact reportedSegments_segmentEnd _ s

/-- The entry of a fault adds the segment number that its report carries (R266). -/
theorem reportedSegments_raiseFault {i : FaultInfo} {g : Nat} (hg : faultSegment (faultEvent i) = some g)
    (s : State) :
    reportedSegments (raiseFault i s).io.outs = reportedSegments s.io.outs ++ [g] := by
  have hfault : reportedSegments [faultEvent i] = [g] := by simp [reportedSegments, hg]
  rw [raiseFault_outs, List.append_cons, reportedSegments_append, reportedSegments_append, hfault,
    reportedSegments_endEvents, List.append_nil]

/-! ## At most one report for each segment (R265) -/

/-- The framer is inside a segment in which no fault was raised. -/
def InSegment (f : Framer) : Prop := f.mode = .hunt ∨ f.mode = .synced

/-- The clauses of `OneFaultInv` on the list of the segments reported. -/
structure EachReportedOnce (s : State) : Prop where
  numbered : InSegment s.frm → 0 < s.frm.segNo
  earlier : ∀ g ∈ reportedSegments s.io.outs, g < s.frm.segNo
  current : InSegment s.frm → s.frm.segNo - 1 ∉ reportedSegments s.io.outs
  once : (reportedSegments s.io.outs).Nodup

theorem oneFaultInv_iff (s : State) : OneFaultInv s ↔ EachReportedOnce s := by
  have mem (g : Nat) : g ∈ reportedSegments s.io.outs ↔ ∃ e ∈ s.io.outs, faultSegment e = some g :=
    List.mem_filterMap
  have once (g : Nat) : (s.io.outs.filter fun e => faultSegment e == some g).length =
      (reportedSegments s.io.outs).count g := by
    rw [reportedSegments, List.count_filterMap, List.countP_eq_length_filter]
  constructor
  · rintro ⟨hnumbered, hearlier, hcurrent, honce⟩
    refine ⟨hnumbered, fun g hg => ?_, fun hm hg => ?_, ?_⟩
    · obtain ⟨e, he, hseg⟩ := (mem g).1 hg
      exact hearlier e he g hseg
    · obtain ⟨e, he, hseg⟩ := (mem _).1 hg
      exact hcurrent hm e he hseg
    · exact List.nodup_iff_count_le_one.2 fun g => once g ▸ honce g
  · rintro ⟨hnumbered, hearlier, hcurrent, honce⟩
    refine ⟨hnumbered, fun e he g hseg => hearlier g ((mem g).2 ⟨e, he, hseg⟩),
      fun hm e he hseg => hcurrent hm ((mem _).2 ⟨e, he, hseg⟩), fun g => ?_⟩
    rw [once]
    exact List.nodup_iff_count_le_one.1 honce g

/-! ## What a symbol reports (R185, R199, R266) -/

/-- The outcomes of a symbol for the number of the segment and the segments reported. -/
inductive Reported (s t : State) : Prop
  /-- nothing is reported, and no segment starts -/
  | silent (hout : reportedSegments t.io.outs = reportedSegments s.io.outs)
      (hseg : t.frm.segNo = s.frm.segNo) (hin : InSegment t.frm → InSegment s.frm)
  /-- the next segment starts (R185) -/
  | started (hout : reportedSegments t.io.outs = reportedSegments s.io.outs)
      (hseg : t.frm.segNo = s.frm.segNo + 1)
  /-- the present segment is reported, and left for `ABORT` (R266) -/
  | faulted (hout : reportedSegments t.io.outs = reportedSegments s.io.outs ++ [s.frm.segNo - 1])
      (hseg : t.frm.segNo = s.frm.segNo) (hin : InSegment s.frm) (hmode : t.frm.mode = .abort)

/-- Each of them keeps the clauses: the number that a fault reports is that of the present segment, which
had no report and has ended with it. -/
theorem Reported.eachReportedOnce {s t : State} (h : Reported s t) (hs : EachReportedOnce s) :
    EachReportedOnce t := by
  obtain ⟨hnumbered, hearlier, hcurrent, honce⟩ := hs
  cases h with
  | silent hout hseg hin =>
    rw [← hseg] at hnumbered hearlier hcurrent
    rw [← hout] at hearlier hcurrent honce
    exact ⟨hnumbered ∘ hin, hearlier, hcurrent ∘ hin, honce⟩
  | started hout hseg =>
    rw [← hout] at hearlier honce
    refine ⟨fun _ => by omega, fun g hg => ?_, fun _ hg => ?_, honce⟩
    · have := hearlier g hg
      omega
    · have := hearlier _ hg
      omega
  | faulted hout hseg hin hmode =>
    have hpos := hnumbered hin
    have left : ¬ InSegment t.frm := by simp [InSegment, hmode]
    refine ⟨fun ht => absurd ht left, fun g hg => ?_, fun ht => absurd ht left, ?_⟩
    · rw [hout, List.mem_append, List.mem_singleton] at hg
      rcases hg with hg | rfl
      · exact hseg ▸ hearlier g hg
      · omega
    · rw [hout]
      exact honce.append (List.nodup_singleton _) (by simpa using hcurrent hin)

theorem Reported.oneFaultInv {s t : State} (h : Reported s t) (hs : OneFaultInv s) : OneFaultInv t :=
  (oneFaultInv_iff t).2 (h.eachReportedOnce ((oneFaultInv_iff s).1 hs))

theorem huntBit_segNo (pre : PreambleWord) (b : Bool) (f : Framer) :
    (huntBit pre b f).segNo = f.segNo := by
  unfold huntBit
  simp only
  split <;> rfl

theorem anomaly_segNo (f : Framer) : (anomaly f).segNo = f.segNo := by
  unfold anomaly
  split <;> rfl

/-- A bit after a fault is only shown (R199). -/
theorem sendBit_abort {s : State} (hm : s.frm.mode = .abort) (b : Bool) :
    sendBit b s = .next (tap (bitSymbol b) s) := by
  rw [← sendSymbol_bit]
  exact sendSymbol_ignored hm (by cases b <;> rfl) (closes_bitSymbol b)

/-- A fault that is raised, in the state `u` that a symbol has come to, with the number of the present
segment (R266). -/
theorem raiseFault_reported {s u : State} {i : FaultInfo} (hin : InSegment s.frm)
    (hseg : u.frm.segNo = s.frm.segNo) (hout : u.io.outs = s.io.outs)
    (hi : faultSegment (faultEvent i) = some (s.frm.segNo - 1)) : Reported s (raiseFault i u) :=
  .faulted (by rw [reportedSegments_raiseFault hi, hout]) (by simpa using hseg) hin (by simp)

/-- A row bit reports a fault by ending a row with wrong framing bits, or a chunk with a bad column (R190,
R191). -/
theorem rowBit_reported {b : Bool} {pos : Nat} {s t : State} (hm : s.frm.mode = .synced)
    (h : rowBit b pos (shownBit b s) = .next t) : Reported s t := by
  have hin : InSegment s.frm := .inr hm
  rcases rowBit_next h with ⟨-, rfl⟩ | ⟨-, -, rfl⟩ | ⟨-, -, -, rfl⟩ | ⟨p, -, -, -, hc⟩
  · exact .silent rfl rfl id
  · exact raiseFault_reported hin rfl rfl rfl
  · exact .silent rfl rfl id
  · rcases chunkDone_next hc with ⟨col, -, rfl⟩ | ⟨words, corr, m, -, -, rfl⟩
    · exact raiseFault_reported hin rfl rfl rfl
    · exact .silent (reportedSegments_chunkOk ..) rfl id

theorem sendBit_reported {b : Bool} {s t : State} (h : sendBit b s = .next t) : Reported s t := by
  cases hm : s.frm.mode with
  | idle =>
    rw [← sendSymbol_bit, sendSymbol_refused hm (by cases b <;> rfl)] at h
    cases h
  | hunt =>
    obtain rfl := Host.Outcome.next.inj ((sendBit_hunt hm b).symm.trans h)
    exact .silent rfl (huntBit_segNo ..) fun _ => .inl hm
  | synced => exact rowBit_reported hm ((sendBit_synced hm b).symm.trans h)
  | abort =>
    obtain rfl := Host.Outcome.next.inj ((sendBit_abort hm b).symm.trans h)
    exact .silent rfl rfl id

theorem sendAnomaly_reported {k : AnomalyKind} {s t : State} (h : sendSymbol (.anomaly k) s = .next t) :
    Reported s t := by
  have inside (hin : InSegment s.frm) : Reported s t := by
    obtain rfl := Host.Outcome.next.inj ((sendSymbol_anomaly_open k hin).symm.trans h)
    exact .silent rfl (anomaly_segNo _) fun _ => hin
  cases hm : s.frm.mode with
  | idle => cases (sendSymbol_refused hm rfl).symm.trans h
  | hunt => exact inside (.inl hm)
  | synced => exact inside (.inr hm)
  | abort =>
    obtain rfl := Host.Outcome.next.inj ((sendSymbol_ignored hm rfl rfl).symm.trans h)
    exact .silent rfl rfl id

/-- The symbols that end a segment leave an idle framer of its number. -/
theorem Received.leaves_segment {pre : PreambleWord} {f g : Framer} {o o' : Bool} {y : SySymbol}
    (hr : Received pre f o y g o') (hy : closes y = true) : g.segNo = f.segNo ∧ ¬ InSegment g := by
  have hidle : g.mode = .idle := hr.mode_idle_iff.2 hy
  refine ⟨?_, by simp [InSegment, hidle]⟩
  cases hr with
  | closed => exact (idledFramer_keeps f).1
  | ignored _ hopen => simp [hopen] at hy
  | opened => cases hy
  | disturbed => cases hy
  | _ => simp at hy

/-- The end of the symbols reports no fault (R197). -/
theorem reportedSegments_lastEvents (s : State) : reportedSegments (lastEvents s) = [] := by
  unfold lastEvents
  split <;> simp

theorem sendGap_silent {s t : State} (h : sendGap s = .next t) :
    reportedSegments t.io.outs = reportedSegments s.io.outs := by
  have inside (hin : InSegment s.frm) : reportedSegments t.io.outs = reportedSegments s.io.outs := by
    obtain rfl := Host.Outcome.next.inj ((sendGap_open hin).symm.trans h)
    exact reportedSegments_segTerminate _
  cases hm : s.frm.mode with
  | idle => cases (sendSymbol_refused (y := .gap) hm rfl).symm.trans h
  | hunt => exact inside (.inl hm)
  | synced => exact inside (.inr hm)
  | abort =>
    obtain rfl := Host.Outcome.next.inj ((sendGap_abort hm).symm.trans h)
    rfl

theorem sendEos_silent {s t : State} (h : sendEos s = .next t) :
    reportedSegments t.io.outs = reportedSegments s.io.outs := by
  obtain rfl := Host.Outcome.next.inj ((sendEos_eq s).symm.trans h)
  have hend : reportedSegments [.endRun] = [] := rfl
  simp [reportedSegments_lastEvents, hend]

/-- What a symbol that goes on has reported. -/
theorem sendSymbol_reported {y : SySymbol} {s t : State} (h : sendSymbol y s = .next t) :
    Reported s t := by
  have closing (hy : closes y = true)
      (hsilent : reportedSegments t.io.outs = reportedSegments s.io.outs) : Reported s t := by
    obtain ⟨hseg, hleft⟩ := (sendSymbol_received h).leaves_segment hy
    exact .silent hsilent hseg fun hin => absurd hin hleft
  cases y with
  | zero => exact sendBit_reported (b := false) h
  | one => exact sendBit_reported (b := true) h
  | gap => exact closing rfl (sendGap_silent h)
  | segstart time =>
    by_cases hm : s.frm.mode = .idle
    · obtain rfl := Host.Outcome.next.inj ((sendSegstart_idle time hm).symm.trans h)
      exact .started rfl rfl
    · cases (sendSegstart_refused time hm).symm.trans h
  | anomaly k => exact sendAnomaly_reported h
  | eos => exact closing rfl (sendEos_silent h)

/-! ## What an instruction's moves report (R102, R245, R246) -/

/-- Only four tokens bring a report to the `OUT` channel themselves. -/
theorem reportedSegments_presentedEvents {i : Instr} (hi : presentsReport i = false) :
    reportedSegments (presentedEvents i) = [] := by
  cases i
  case feFaultFraming | feFaultEcc | outErrFraming | outErrEcc => cases hi
  all_goals rfl

/-- Every move of an instruction that presents no report has one of the three outcomes: of the moves only a
symbol reports a fault or starts a segment. -/
theorem Move.reported {i : Instr} (hi : presentsReport i = false) {s t : State} (hm : Move i s t) :
    Reported s t := by
  cases hm with
  | front d c b => exact .silent rfl rfl id
  | symbol hy => exact sendSymbol_reported hy
  | chunk k words corr m =>
    exact .silent (reportedSegments_chunkOk ..) (by simp [chunkOk_eq]) (by simp [chunkOk_eq])
  | segEnd z => exact .silent (reportedSegments_segmentEnd z s) (by simp) (by simp)
  | event he =>
    have hnone := List.filterMap_eq_nil_iff.1 (reportedSegments_presentedEvents hi) _ he
    exact .silent (by simp [reportedSegments, hnone]) rfl id
  | answer r => exact .silent rfl rfl id
  | finish => exact .silent rfl rfl id

/-! ## At most one report for each instruction (R265) -/

/-- At most one fault is reported from `s` to `t`. -/
def OneReport (s t : State) : Prop :=
  (reportedSegments t.io.outs).length ≤ (reportedSegments s.io.outs).length + 1

theorem oneReport_of_append {s t : State} {es : List OutEvent} (h : t.io.outs = s.io.outs ++ es)
    (hes : (es.filter isFaultReport).length ≤ 1) : OneReport s t := by
  rw [OneReport, h, reportedSegments_append, List.length_append, length_reportedSegments es]
  omega

theorem Effect.oneReport {s t : State} (h : Effect s t) : OneReport s t := by
  obtain ⟨ys, es, f, e, st, r, -, hb, -, rfl⟩ := h
  exact oneReport_of_append rfl hb.one_fault

theorem emit_oneReport (e : OutEvent) (s : State) : OneReport s (emit e s) :=
  oneReport_of_append (emit_io_outs e s) (List.length_filter_le _ _)

theorem reportFault_oneReport (i : FaultInfo) (z : Option Int) (s : State) :
    OneReport s (reportFault i z s) :=
  oneReport_of_append (by simp [reportFault]) (Burst.fault (e := s.emt) (st := s.sts) i z).one_fault

/-- After a fault bits put nothing out (R199). -/
theorem sendBits_abort {bs : List Bool} {s t : State} (hm : s.frm.mode = .abort)
    (h : sendBits bs s = .next t) : t.io.outs = s.io.outs := by
  induction bs generalizing s with
  | nil => rw [← Host.Outcome.next.inj h]
  | cons b bs ih =>
    obtain ⟨u, hu, ht⟩ := sendBits_cons.1 h
    obtain rfl := Host.Outcome.next.inj ((sendBit_abort hm b).symm.trans hu)
    exact ih (s := tap (bitSymbol b) s) hm ht

/-- The bit that reports a fault is the last of its word that reports anything: the rest of the word finds
the framer in `ABORT` (R199, R266). -/
theorem sendBits_oneReport {bs : List Bool} {s t : State} (h : sendBits bs s = .next t) :
    OneReport s t := by
  induction bs generalizing s with
  | nil => rw [← Host.Outcome.next.inj h]; exact Nat.le_succ _
  | cons b bs ih =>
    obtain ⟨u, hu, ht⟩ := sendBits_cons.1 h
    cases sendBit_reported hu with
    | silent hout => simpa only [OneReport, hout] using ih ht
    | started hout => simpa only [OneReport, hout] using ih ht
    | faulted hout _ _ hmode =>
      rw [OneReport, sendBits_abort hmode ht, hout, List.length_append, List.length_singleton]

theorem intoOpenRecord_oneReport {e : OutEvent} {s t : State} (h : intoOpenRecord e s = .next t) :
    OneReport s t := by
  rw [intoOpenRecord_next h]
  exact emit_oneReport e s

/-- An instruction sends the bits of a word, has the effect of one symbol or one burst, or presents an event
of its own. -/
theorem exec_oneReport {i : Instr} {s t : State} (h : exec i s = .next t) : OneReport s t := by
  obtain ⟨-, h⟩ := exec_next.1 h
  have interval {k} (hk : sendInterval k s = .next t) : OneReport s t :=
    have ⟨_, he⟩ := sendInterval_effect hk
    he.oneReport
  cases i
  case inSample =>
    obtain ⟨d, c, b, -, he⟩ := acceptSample_effect h
    exact he.oneReport
  case inEos =>
    obtain ⟨u, hu, rfl⟩ := onNext_next.1 h
    exact (transitionsEnd_effect hu).oneReport
  case trTrans =>
    obtain ⟨c, b, he⟩ := transition_effect h
    exact he.oneReport
  case trEos => exact (transitionsEnd_effect h).oneReport
  case clIvlNarrow => exact interval (k := .narrow) h
  case clIvlShort => exact interval (k := .short) h
  case clIvlMid => exact interval (k := .mid) h
  case clIvlLong => exact interval (k := .long) h
  case clIvlWide => exact interval (k := .wide) h
  case clSegOpen => exact (beginSegment_effect h).oneReport
  case clDropout => exact (dropout_effect h).oneReport
  case clEos => exact (intervalsEnd_effect h).oneReport
  case syZero | syOne => exact (symbolBit_effect h).oneReport
  case syGap => exact (sendGap_effect h).oneReport
  case sySegstart => exact (sendSegstart_effect h).oneReport
  case syAnomNarrow | syAnomMid | syAnomLong | syAnomWide => exact (symbolAnomaly_effect h).oneReport
  case syEos => exact (sendEos_effect h).oneReport
  case row | preamble => exact sendBits_oneReport h
  case outByte | outRecClose => exact intoOpenRecord_oneReport h
  case outword d =>
    simp only [ruleOf] at h
    split at h <;> cases h
    exact oneReport_of_append (emitAll_outs _ s) (by simp [wordEvents, isFaultReport])
  case eccDecode | codeword => rw [← Host.Outcome.next.inj h]; exact Nat.le_succ _
  case feChunkOk => rw [← Host.Outcome.next.inj h]; exact (chunkOk_effect ..).oneReport
  case feSegEnd => rw [← Host.Outcome.next.inj h]; exact (segmentEnd_effect ..).oneReport
  case feFaultFraming | feFaultEcc => rw [← Host.Outcome.next.inj h]; exact reportFault_oneReport ..
  all_goals rw [← Host.Outcome.next.inj h]; exact emit_oneReport ..

end Sys2Proof.Machine

namespace Sys2Proof.Claims
open Sys2Proof.Machine

/-- Settles O60: a reset pulse clears the framer and the stream, and every move of an instruction has one of
the outcomes `Reported`, which keep the invariant. -/
theorem stepKeepsOneFaultPerSegment : Obligations.StepKeepsOneFaultPerSegment := by
  intro s t h htoken hstep
  rcases step_next hstep with ⟨-, rfl⟩ | ⟨rest, -, rfl⟩ | ⟨p, rest, i, hp, hi, ht⟩
  · exact h
  · exact (oneFaultInv_iff _).2 ⟨by simp [InSegment], by simp, by simp, by simp⟩
  · have hpopped : OneFaultInv { s with pending := rest } :=
      Reported.oneFaultInv (s := s) (.silent rfl rfl id) h
    have hi : presentsReport i = false := htoken p rest hp i hi
    exact exec_keeps (fun hm hu => (hm.reported hi).oneFaultInv hu) ht hpopped

/-- Settles O56: the reports are counted on the whole stream, which the instruction only extends. -/
theorem atMostOneFaultPerToken : Obligations.AtMostOneFaultPerToken := by
  refine ⟨fun i s t h => ?report, fun x s t h => ?symbol⟩
  case report =>
    obtain ⟨-, es, ys, hio⟩ := exec_putsOut h
    have hone := exec_oneReport h
    simp only [OneReport, hio, reportedSegments_append, List.length_append] at hone
    refine ⟨es, by rw [hio], ?_⟩
    rw [← length_reportedSegments]
    omega
  case symbol =>
    obtain ⟨d, c, b, -, ys, es, f, e, st, r, hys, -, -, rfl⟩ := acceptSample_effect (exec_next.1 h).2
    exact ⟨ys, rfl, hys⟩

end Sys2Proof.Claims
end

section
/-! Reset (spec 10 section 12, spec 70), the tokens that are turned away, the bursts of events of the `IN`
port, and the four statements on them. -/

namespace Sys2Proof.Machine

/-! ## The state after reset (R290) -/

@[simp] theorem reset_cfg : State.reset.cfg = Config.atReset := rfl
@[simp] theorem reset_det : State.reset.det = {} := rfl
@[simp] theorem reset_cls : State.reset.cls = {} := rfl
@[simp] theorem reset_rcv : State.reset.rcv = {} := rfl
@[simp] theorem reset_frm : State.reset.frm = {} := rfl
@[simp] theorem reset_emt : State.reset.emt = {} := rfl
@[simp] theorem reset_sts : State.reset.sts = {} := rfl

/-- The four inputs that R7 gives a default, the fractions in ordinary arithmetic. -/
theorem atReset_defaults : Config.atReset.bitRate = 3000 ∧ Config.atReset.energyThreshold = 500 ∧
    Config.atReset.tolerance = 3 / 4 ∧ Config.atReset.dcWindowBits = 3 / 2 :=
  ⟨rfl, rfl, Rat.mkRat_eq_div 3 4, Rat.mkRat_eq_div 3 2⟩

/-- A pulse of the reset line at the head of the queue is taken in every state. -/
theorem step_reset {s : State} {rest : List HostInput} (h : s.pending = .reset :: rest) :
    step s = .next (applyReset { s with pending := rest }) := by
  simp [step, fetch, h]

/-! ## Tokens that are turned away (R12, R296) -/

/-- Once `IN.EOS` has been processed, every token is refused. -/
theorem exec_after_done {s : State} (h : s.sts.done = true) (i : Instr) :
    exec i s = .refused .tokenAfterEos := by
  rw [exec_eq_present]
  simp [present, h]

/-- A configuration is invalid when one of the conditions of R12 fails. -/
theorem configValid_eq_false_iff (c : Config) : configValid c = false ↔
    c.sampleRate < 1 ∨ c.bitRate < 1 ∨ c.energyThreshold < 0 ∨ c.tolerance < 0 ∨ 1 ≤ c.tolerance := by
  rw [← Bool.not_eq_true, configValid_iff]
  simp only [not_and_or, not_le, not_lt]

/-- Before the end of the run, the configuration is what a token can be turned away for. -/
theorem exec_invalidConfig {s : State} (hdone : s.sts.done = false)
    (hend : s.io.outs.getLast? ≠ some .endRun) (hcfg : configValid s.cfg = false) (i : Instr) :
    exec i s = .refused .invalidConfig := by
  rw [exec_eq_present]
  simp [present, ended, hdone, hend, hcfg]

/-! ## Bursts (R295) -/

/-- Whatever a symbol does, its events are one burst of the emitter. -/
theorem Effect.outs_le {s t : State} (h : Effect s t) :
    ∃ es, t.io.outs = s.io.outs ++ es ∧ es.length ≤ 98 := by
  obtain ⟨ys, es, f, e, st, r, -, hburst, -, rfl⟩ := h
  exact ⟨es, rfl, hburst.length_le⟩

/-- The symbols end with at most one event before `OUT.END` (R197). -/
theorem lastEvents_length_le (s : State) : (lastEvents s).length ≤ 1 := by
  unfold lastEvents
  split
  · exact endEvents_length_le _ _
  · exact Nat.zero_le 1

end Sys2Proof.Machine

namespace Sys2Proof.Claims
open Sys2Proof.Machine

/-- Settles O58: a sample sends on at most one symbol, whose burst is bounded; the end of input puts out
`OUT.END` behind the last events of the segment. -/
theorem burstsAreBounded : Obligations.BurstsAreBounded := by
  refine ⟨fun x s t h => ?sample, fun s t h => ?eos⟩
  case sample =>
    obtain ⟨d, c, b, -, heffect⟩ := acceptSample_effect (exec_next.1 h).2
    exact heffect.outs_le
  case eos =>
    obtain rfl := Host.Outcome.next.inj ((acceptEos_flushed s).symm.trans (exec_next.1 h).2)
    have hlast := lastEvents_length_le s
    exact ⟨lastEvents s ++ [.endRun], rfl, by simp, by simpa using hlast⟩

/-- Settles O7: the end of the run is looked at before the configuration. -/
theorem tokensAreTurnedAwayByName : Obligations.TokensAreTurnedAwayByName := by
  intro i s
  refine ⟨?afterEnd, fun hdone hend hcfg => ?invalid⟩
  case afterEnd =>
    rintro (hdone | hend)
    · exact exec_after_done hdone i
    · exact exec_after_end hend i
  case invalid => exact exec_invalidConfig hdone hend ((configValid_eq_false_iff s.cfg).2 hcfg) i

/-- Settles O1: every sub-block stands at the initial values of its elements, and the configuration inputs
at the defaults of R7. -/
theorem resetLeavesTheTable : Obligations.ResetLeavesTheTable := by
  unfold Obligations.ResetLeavesTheTable
  simp [atReset_defaults]

/-- Settles O2: the step is `applyReset`, which makes the run that ends the last of the earlier runs. -/
theorem resetPulseClearsTheBlock : Obligations.ResetPulseClearsTheBlock := by
  intro s rest h
  exact ⟨applyReset { s with pending := rest }, step_reset h, by simp⟩

end Sys2Proof.Claims
end
